-- ==== Sys2Proof/Word.lean ====
section
/-!
DEFINITION. The words of the block: bytes, half-words and the 32-bit words of its registers
(R22 of 10_state.md, R65 of 20_memory.md).
-/

namespace Sys2Proof

/-- One byte of the flash array. -/
abbrev Byte := BitVec 8

/-- A half-word, "a 2-byte programming unit" (R15). -/
abbrev Half := BitVec 16

/-- A register of the block, or a 4-byte unit of flash (R22, R15). -/
abbrev Word := BitVec 32

end Sys2Proof
end

