-- ==== Sys2Proof/Config.lean ====
section
/-!
DEFINITION. What is fixed for a machine: the sizes the source fixes (R7), the parameters it leaves
open as plain data (R9), and the free values (R13's `draw()`, R102's choice of agent), which have
no body, so that nothing proved depends on their value.
-/

namespace Sys2Proof

namespace Config

/-- PAGE_SIZE, the standard erase unit (R7). -/
abbrev pageSize : Nat := 4096

/-- FAST_PAGE_SIZE, the fast erase and program unit (R7). -/
abbrev fastPageSize : Nat := 256

/-- BLOCK_SIZE, the fast block erase unit (R7). -/
abbrev blockSize : Nat := 32768

/-- BUF_WORDS, the words of the page buffer (R7). -/
abbrev bufWords : Nat := 64

/-- FAST_RUN_PAGES, the pages the fast orchestrator programs (R7). -/
abbrev fastRunPages : Nat := 128

/-- Bytes of the register window (R22). -/
abbrev windowSize : Nat := 0x200

/-- `draw()` for one byte: the n-th free value of a run (R13, R66, R67). No body: any byte.
DESIGN CHOICE: applied to a counter in State, log entry 7. -/
opaque draw : Nat → Byte

/-- Which of two agents with an enabled step moves when the agenda is silent (R14, R102): true is
the flash engine, false the sequencer. No body: either. DESIGN CHOICE, log entry 5. -/
opaque engineFirst : Nat → Bool

end Config

namespace Machine

/-- The kinds of engine operation that FAIL is asked about (R9, R42, R112). -/
inductive OpKind
  | page4K | fastPage | block32K | prog | pageProg
  deriving DecidableEq, Repr

/-- The parameters the source leaves open (R9), as plain data. The functions of R9 are held as what
tells them apart: ERASED_READ by a default byte and the addresses that differ from it, WP by the
protected page indices, FAIL by the pairs it holds of. Addresses are 32-bit (R10), so every
function of R9 has such a form. DESIGN CHOICE: log entry 1. -/
structure Params where
  /-- SEQ_BASE, the base of the register window. -/
  seqBase      : Nat
  /-- FLASH_BASE. -/
  flashBase    : Nat
  /-- FLASH_SIZE, in bytes. -/
  flashSize    : Nat
  /-- ERASED_READ(a) where `erasedAt` does not list a. -/
  erasedByte   : Byte
  /-- The addresses at which ERASED_READ differs from `erasedByte`. -/
  erasedAt     : List Host.Cell
  /-- The standard page indices k with WP(k). -/
  wp           : List Nat
  /-- The pairs (operation kind, base address) of which FAIL holds. -/
  fails        : List (OpKind × Nat)
  /-- CLK_THRESHOLD, a host clock frequency. R9 calls it "host side only": no step reads it. -/
  clkThreshold : Nat
  deriving DecidableEq, Repr

/-- The defaults of R9. Two parameters have none. SEQ_BASE: DESIGN CHOICE 0x40000000, log entry 2.
CLK_THRESHOLD: DESIGN CHOICE 0, log entry 23. -/
def Params.default : Params where
  seqBase      := 0x40000000
  flashBase    := 0x08000000
  flashSize    := 0x00010000
  erasedByte   := 0xFF
  erasedAt     := []
  wp           := []
  fails        := []
  clkThreshold := 0

/-- FLASH_END (R10). -/
def Params.flashEnd (p : Params) : Nat := p.flashBase + p.flashSize

/-- What R9 and R61 ask of SEQ_BASE, FLASH_BASE and FLASH_SIZE. That FLASH_END and the end of the
register window are 32-bit addresses is DEDUCED from R10 and R11, log entry 3. -/
def Params.wf (p : Params) : Bool :=
  p.seqBase % Config.windowSize == 0 && decide (p.seqBase + Config.windowSize ≤ 2 ^ 32)
    && p.flashBase % Config.blockSize == 0 && p.flashSize % Config.blockSize == 0
    && decide (p.flashBase ≤ 0x08008000) && decide (0x08010000 ≤ p.flashEnd)
    && decide (p.flashEnd < 2 ^ 32)

end Machine

end Sys2Proof
end

