-- ==== Sys2Proof/Syntax.lean ====
section
/-!
DEFINITION. The commands of the block (R82 of 30_encoding.md), one constructor per row of the opcode
table, and the fields of the one command format CMD32 (R80).
-/

namespace Sys2Proof

/-- The two lock domains (R15). -/
inductive Domain
  | std | fast
  deriving DecidableEq, Repr

/-- The other domain, `other(d)` of R115. -/
def Domain.other : Domain → Domain
  | .std  => .fast
  | .fast => .std

/-- A command (R82). Operands other than DOM and NODIAG are read from registers (R81), so they are
no part of the command. -/
inductive Instr
  | unlock (d : Domain)          -- R115
  | lock (d : Domain)            -- R116
  | clearFlags                   -- R117
  | wait                         -- R118
  | erasePage                    -- R119
  | programHalfword              -- R120
  | programWord                  -- R121
  | resetBuffer                  -- R142
  | loadBuffer                   -- R143
  | commitPageFast               -- R144
  | programPageFast              -- R145
  | erasePageFast                -- R146
  | eraseBlock32kFast            -- R147
  | runStandard                  -- R170
  | runFast (nodiag : Bool)      -- R178
  deriving DecidableEq, Repr

/-- The fields of the one format CMD32 (R80), as they stand in a word, legal or not. -/
structure Cmd32 where
  /-- OPC, bits [7:0]. -/
  opc    : BitVec 8
  /-- DOM, bit 8: 0 = Std, 1 = Fast. -/
  dom    : Bool
  /-- NODIAG, bit 9. -/
  nodiag : Bool
  /-- RSV, bits [31:10]. -/
  rsv    : BitVec 22
  deriving DecidableEq, Repr

end Sys2Proof
end

