-- ==== Sys2Proof/Machine/State.lean ====
section
/-!
DEFINITION. The state of the block (R20 to R48 of 10_state.md) as plain data, the reasons the model
stops, and the state after reset (R241 of 70_reset_and_hazards.md).
-/

namespace Sys2Proof.Machine

/-- Operation Result (R28). Codes 5 to 7 are "never produced". -/
inductive OpResult
  | complete | busy | programError | writeProtectError | timedOut
  deriving DecidableEq, Repr

/-- ORCH.PHASE (R30). Codes 8 to 15 are "never produced". -/
inductive Phase
  | idle | unlocking | erasing | programming | verifying | locking | done | diagnostic
  deriving DecidableEq, Repr

/-- ORCH.KIND (R30): 0 for the standard orchestrator, 1 for the fast one. -/
inductive RunKind
  | standard | fast
  deriving DecidableEq, Repr

/-- A reason of a protocol fault (R216). -/
inductive FaultReason
  | bus | flashWrite | addr | clk | both | unlockOther | order | buf | range
  deriving DecidableEq, Repr

/-- One byte of the flash array (R40). -/
inductive FlashCell
  | erased            -- reads as ERASED_READ(a)
  | val (b : Byte)    -- programmed, reads as b
  | indet             -- reads as a fresh draw on every read
  deriving DecidableEq, Repr

/-- The flash array: (address, cell) pairs, addresses strictly rising, no entry equal to what an
address that is not listed holds (`Memory.wf`). -/
abbrev Memory := List (Nat × FlashCell)

/-- What an address that is not listed holds: an indeterminate cell, which reads as a free value.
R242: the cells at first power-on are "a launch parameter". DESIGN CHOICE, log entry 9. -/
abbrev Memory.unlisted : FlashCell := .indet

/-- The granularities of an erase (R42). -/
inductive EraseKind
  | page4K | fastPage | block32K
  deriving DecidableEq, Repr

/-- An engine operation (R42). -/
inductive Op
  | eraseRange (base size : Nat) (kind : EraseKind)
  | program (a : Nat) (bytes : List Byte)
  | pageProgram (p : Nat) (words : Vector Word 64)
  deriving DecidableEq, Repr

/-- The flash engine (R42). `spoiled` says that CLK_SAFE was driven to 0 while the operation was in
flight, so that it will complete with Indet cells (R113). -/
inductive Engine
  | idle
  | inFlight (op : Op) (spoiled : Bool)
  deriving DecidableEq, Repr

/-- The two busy-waits of an erase or program command (R109). -/
inductive WaitKind
  | pre | final
  deriving DecidableEq, Repr

/-- A command's position between step boundaries (R21, R102): before its first step, or at a `poll`
of one of its busy-waits. WAIT and the primitives have one call site, the orchestrators several. -/
inductive Point
  | start
  | wait (w : WaitKind)           -- a primitive command, or WAIT
  | stdErase (w : WaitKind)       -- RUN_STANDARD, erasing phase (R174)
  | stdProgram (w : WaitKind)     -- RUN_STANDARD, programming phase (R175)
  | fastErase (w : WaitKind)      -- RUN_FAST, erasing phase (R181)
  | fastProgram (w : WaitKind)    -- RUN_FAST, programming phase (R182)
  | diagPage (w : WaitKind)       -- RUN_FAST, first diagnostic erase (R184)
  | diagStd (w : WaitKind)        -- RUN_FAST, second diagnostic erase
  | diagBlock (w : WaitKind)      -- RUN_FAST, third diagnostic erase
  deriving DecidableEq, Repr

/-- seq_state, with cur and its position while Exec (R21, R47). -/
inductive SeqState
  | idle
  | exec (cur : Instr) (pos : Point)
  | faulted
  deriving DecidableEq, Repr

/-- A move of the host agent (R14): a bus read or write of n bytes, or driving CLK_SAFE (R44). -/
inductive HostAct
  | read (addr : Word) (n : Nat)
  | write (addr : Word) (n : Nat) (v : Word)
  | clk (b : Bool)
  deriving DecidableEq, Repr

/-- One turn of the interleaving (R14, R71): a host move, a sequencer step, the engine's completion
step (R110), or the platform's system reset (R240). -/
inductive Turn
  | host (a : HostAct)
  | sequencer
  | engine
  | reset
  deriving DecidableEq, Repr

/-- The state of the block. The first group is the spec's (R20), the last the model's own. -/
structure State where
  /-- ADDR (R25). -/
  addr         : Word
  /-- DATA0 (R25). -/
  data0        : Word
  /-- DATA1 (R25). -/
  data1        : Word
  /-- DATA2 (R25). -/
  data2        : Word
  /-- DATA3 (R25). -/
  data3        : Word
  /-- TIMEOUT (R29). -/
  timeout      : Word
  /-- START (R31). -/
  startAddr    : Word
  /-- END (R31). -/
  endAddr      : Word
  /-- PATTERN[15:0] (R31); the upper half is RAZ/WI. -/
  pattern      : Half
  /-- STATR.PGERR (R26). -/
  pgerr        : Bool
  /-- STATR.WRPRTERR (R26). -/
  wrprterr     : Bool
  /-- STATR.EOP (R26). -/
  eop          : Bool
  /-- STATR.OVR (R26). -/
  ovr          : Bool
  /-- STATR.ILLCMD (R26). -/
  illcmd       : Bool
  /-- STATR.PROTERR (R26). -/
  proterr      : Bool
  /-- lock[Std], true means locked (R41). -/
  lockStd      : Bool
  /-- lock[Fast], true means locked (R41). -/
  lockFast     : Bool
  /-- RESULT (R28). -/
  result       : OpResult
  /-- ORCH.PHASE (R30). -/
  orchPhase    : Phase
  /-- ORCH.KIND (R30). -/
  orchKind     : RunKind
  /-- NBR_PAGE (R32). -/
  nbrPage      : Word
  /-- ERASE_CNT (R32). -/
  eraseCnt     : Word
  /-- CURSOR (R32). -/
  cursor       : Word
  /-- FLASH_STATUS (R32). -/
  flashStatus  : OpResult
  /-- VERIFY.PASSED (R33). -/
  verifyPassed : Bool
  /-- VERIFY.FLAG (R33). -/
  verifyFlag   : Bool
  /-- PAGE_IDX (R34). -/
  pageIdx      : Word
  /-- DIAG[2:0] (R35). -/
  diagPage     : OpResult
  /-- DIAG[5:3] (R35). -/
  diagStd      : OpResult
  /-- DIAG[8:6] (R35). -/
  diagBlock    : OpResult
  /-- DIAG[9] (R35). -/
  diagRan      : Bool
  /-- LASTPROG (R36). -/
  lastProg     : Word
  /-- SRCBUF (R38): the words written since reset. -/
  srcbuf       : Vector Word 64
  /-- Which SRCBUF words have been written since reset; the others hold a draw (R38, R241). -/
  srcWritten   : BitVec 64
  /-- PBUF (R43). -/
  pbuf         : Vector Word 64
  /-- loaded[0..63] (R43). -/
  loaded       : BitVec 64
  /-- seq_state and cur (R21, R47). -/
  seq          : SeqState
  /-- polls (R46). -/
  polls        : Word
  /-- engine (R42). -/
  engine       : Engine
  /-- cell (R40). -/
  flash        : Memory
  /-- CLK_SAFE (R44). -/
  clkSafe      : Bool
  /-- faults (R45), oldest first. -/
  faults       : List FaultReason
  /-- The model's own: the parameters of R9; no step changes them. Log entry 1. -/
  cfg          : Params
  /-- The model's own: the turns taken next, first first. Log entry 4. -/
  agenda       : List Turn
  /-- The model's own: how many free values have been drawn. Log entry 7. -/
  draws        : Nat
  /-- The model's own: the data of the host's last bus read. Log entry 11. -/
  busData      : Word
  deriving DecidableEq, Repr

/-- Why the model stops. A protocol fault of R215 is no stop: it is a next state. -/
inductive Fault
  /-- Raised by the bus (`hostAct`) when the host addresses neither window: "Accesses to other
  addresses are not to this block and are outside this spec" (R60). Safe: the model stops where
  another block would answer. Log entry 15. -/
  | outsideBlock (addr : Nat)
  deriving DecidableEq, Repr

/-- Why the model gives no meaning. -/
inductive Refusal
  /-- Raised by `exec` for a command that has no meaning yet, by its mnemonic. Safe. No arm does. -/
  | notModelled (mnemonic : String)
  deriving DecidableEq, Repr

/-- The state after reset (R241), at first power-on: no fault recorded, nothing listed in the flash
array. What R241 leaves open: SRCBUF (log entry 8), CLK_SAFE (log entry 10), the cells (log
entry 9). -/
def State.reset : State where
  addr         := 0
  data0        := 0
  data1        := 0
  data2        := 0
  data3        := 0
  timeout      := 0
  startAddr    := 0
  endAddr      := 0
  pattern      := 0
  pgerr        := false
  wrprterr     := false
  eop          := false
  ovr          := false
  illcmd       := false
  proterr      := false
  lockStd      := true
  lockFast     := true
  result       := .complete
  orchPhase    := .idle
  orchKind     := .standard
  nbrPage      := 0
  eraseCnt     := 0
  cursor       := 0
  flashStatus  := .complete
  verifyPassed := false
  verifyFlag   := false
  pageIdx      := 0
  diagPage     := .complete
  diagStd      := .complete
  diagBlock    := .complete
  diagRan      := false
  lastProg     := 0
  srcbuf       := Vector.replicate 64 0
  srcWritten   := 0
  pbuf         := Vector.replicate 64 0xFFFFFFFF
  loaded       := 0
  seq          := .idle
  polls        := 0
  engine       := .idle
  flash        := []
  clkSafe      := false
  faults       := []
  cfg          := Params.default
  agenda       := []
  draws        := 0
  busData      := 0

end Sys2Proof.Machine
end

