-- ==== Sys2Proof/Machine/Flags.lean ====
section
/-!
DEFINITION. STATR and its flags (R26, R48 of 10_state.md), the completion-flag monitor (R106 of
40_controller.md), flag clearing (R114, R117), and the codes RESULT, ORCH, VERIFY, DIAG and LOCKR
read as (R27, R28, R30, R33, R35).
-/

namespace Sys2Proof.Machine

/-- A word whose bit i is b and whose other bits are 0. -/
def bitAt (b : Bool) (i : Nat) : Word := if b then 1#32 <<< i else 0#32

/-- STATR.BSY = (engine ≠ Idle) (R48). -/
def State.bsy (s : State) : Bool :=
  match s.engine with
  | .idle         => false
  | .inFlight _ _ => true

/-- STATR.SEQBSY = (seq_state = Exec) (R48). -/
def State.seqbsy (s : State) : Bool :=
  match s.seq with
  | .idle     => false
  | .exec _ _ => true
  | .faulted  => false

/-- STATR as it reads (R26); bits 3, 6, 7 and 11–31 are RAZ. -/
def State.statr (s : State) : Word :=
  bitAt s.bsy 0 ||| bitAt s.seqbsy 1 ||| bitAt s.pgerr 2 ||| bitAt s.wrprterr 4
    ||| bitAt s.eop 5 ||| bitAt s.ovr 8 ||| bitAt s.illcmd 9 ||| bitAt s.proterr 10

/-- A host write of v to STATR clears the W1C bits that are 1 in v (R114). -/
def writeStatr (v : Word) (s : State) : State :=
  { s with
    pgerr    := s.pgerr && !v.getLsbD 2
    wrprterr := s.wrprterr && !v.getLsbD 4
    eop      := s.eop && !v.getLsbD 5
    ovr      := s.ovr && !v.getLsbD 8
    illcmd   := s.illcmd && !v.getLsbD 9 }

/-- ClearBody, the body of CLEAR_FLAGS (R117, R189): EOP, PGERR and WRPRTERR, not BSY
(90_conflicts.md C6). -/
def clearBody (s : State) : State :=
  { s with eop := false, pgerr := false, wrprterr := false }

/-- FlagResult, the completion-flag monitor (R106). -/
def flagResult (s : State) : OpResult :=
  if s.pgerr then .programError
  else if s.wrprterr then .writeProtectError
  else .complete

/-- The code of an Operation Result (R28). -/
def OpResult.code : OpResult → Word
  | .complete          => 0
  | .busy              => 1
  | .programError      => 2
  | .writeProtectError => 3
  | .timedOut          => 4

/-- The code of a phase (R30). -/
def Phase.code : Phase → Word
  | .idle        => 0
  | .unlocking   => 1
  | .erasing     => 2
  | .programming => 3
  | .verifying   => 4
  | .locking     => 5
  | .done        => 6
  | .diagnostic  => 7

/-- LOCKR as it reads (R27). -/
def State.lockr (s : State) : Word := bitAt s.lockStd 0 ||| bitAt s.lockFast 1

/-- ORCH as it reads: PHASE in [3:0], KIND in bit 8 (R30). -/
def State.orch (s : State) : Word := s.orchPhase.code ||| bitAt (s.orchKind == .fast) 8

/-- VERIFY as it reads (R33). -/
def State.verify (s : State) : Word := bitAt s.verifyPassed 0 ||| bitAt s.verifyFlag 1

/-- DIAG as it reads (R35). -/
def State.diag (s : State) : Word :=
  s.diagPage.code ||| (s.diagStd.code <<< 3) ||| (s.diagBlock.code <<< 6) ||| bitAt s.diagRan 9

end Sys2Proof.Machine
end

