-- ==== Sys2Proof/Machine/Memory.lean ====
section
/-!
DEFINITION. The flash array as a canonical list of cells (R40 of 10_state.md): the form, one read
and one write of a run of cells. Every change of the array goes through `Memory.write`.
-/

namespace Sys2Proof.Machine

/-- The canonical form: addresses strictly rising, and no entry equal to what an address that is
not listed holds. -/
abbrev Memory.wf (m : Memory) : Prop :=
  m.Pairwise (fun x y => x.1 < y.1) ∧ ∀ e ∈ m, e.2 ≠ Memory.unlisted

/-- cell[a] (R40). -/
def Memory.cell (m : Memory) (a : Nat) : FlashCell :=
  match m.find? (fun e => e.1 == a) with
  | some e => e.2
  | none   => Memory.unlisted

/-- The cells cs at a, a+1, …, as entries of the canonical form. -/
def Memory.listed : Nat → List FlashCell → Memory
  | _, []      => []
  | a, c :: cs =>
    if c = Memory.unlisted then Memory.listed (a + 1) cs else (a, c) :: Memory.listed (a + 1) cs

/-- The array with the cells cs at a, a+1, …. -/
def Memory.write (m : Memory) (a : Nat) (cs : List FlashCell) : Memory :=
  m.filter (fun e => decide (e.1 < a)) ++ Memory.listed a cs
    ++ m.filter (fun e => decide (a + cs.length ≤ e.1))

/-- Every cell of the n bytes at a is Erased (R112). -/
def Memory.allErased (m : Memory) (a n : Nat) : Bool :=
  (List.range n).all fun i => m.cell (a + i) == .erased

end Sys2Proof.Machine
end

