-- ==== Sys2Proof/Machine/Operands.lean ====
section
/-!
DEFINITION. The operand forms of R81 of 30_encoding.md, read from the operand registers, the byte
order of R65 of 20_memory.md, and the words of the page and source buffers (R38, R43).
-/

namespace Sys2Proof.Machine

/-- Byte k of a word: v[8k+7:8k] (R65). -/
def wordByte (v : Word) (k : Nat) : Byte := v.extractLsb' (8 * k) 8

/-- The bytes a half-word is stored as, lowest address first (R65). -/
def halfBytes (v : Half) : List Byte := [v.extractLsb' 0 8, v.extractLsb' 8 8]

/-- The bytes a word is stored as, lowest address first (R65). -/
def wordBytes (v : Word) : List Byte := [wordByte v 0, wordByte v 1, wordByte v 2, wordByte v 3]

/-- The half-word operand DATA0[15:0]; "the upper bits of DATA0 are ignored" (R81, R120). -/
def State.data0Half (s : State) : Half := s.data0.extractLsb' 0 16

/-- The fast page p = ADDR with bits [7:0] cleared (R81, R144). -/
def State.fastPage (s : State) : Nat := s.addr.toNat / 256 * 256

/-- The buffer index j0 = ADDR[7:2] (R81, R143). -/
def State.bufIndex (s : State) : Nat := (s.addr.extractLsb' 2 6).toNat

/-- The 64 words f 0, …, f 63. -/
def wordsOf (f : Nat → Word) : Vector Word 64 := ⟨((List.range 64).map f).toArray, by simp⟩

/-- Word j of a buffer of 64 words. -/
def bufWord (w : Vector Word 64) (j : Nat) : Word := w[j]?.getD 0

/-- The 256 bytes of a page of 64 words: B[4j + k] = W[j][8k+7:8k] (R112). -/
def pageBytes (w : Vector Word 64) : List Byte :=
  (List.range 256).map fun i => wordByte (bufWord w (i / 4)) (i % 4)

/-- PBUF[j0+k] <- DATAk for k in 0..3 (R143). -/
def loadWords (s : State) (j0 : Nat) : Vector Word 64 :=
  (((s.pbuf.setIfInBounds j0 s.data0).setIfInBounds (j0 + 1) s.data1).setIfInBounds (j0 + 2)
    s.data2).setIfInBounds (j0 + 3) s.data3

/-- loaded[j0+k] <- 1 for k in 0..3 (R143). -/
def loadMask (j0 : Nat) : BitVec 64 := 0xF#64 <<< j0

/-- Every loaded bit set. -/
def allLoaded : BitVec 64 := BitVec.allOnes 64

/-- A word made of four draws, the k-th and the three after it (R13). -/
def drawWord (k : Nat) : Word :=
  Config.draw (k + 3) ++ Config.draw (k + 2) ++ Config.draw (k + 1) ++ Config.draw k

/-- SRCBUF[j] where k values have been drawn: what was written, else a draw (R38, R241). The draws
of different words are different ones. Log entry 8. -/
def srcWord (s : State) (k j : Nat) : Word :=
  if s.srcWritten.getLsbD j then bufWord s.srcbuf j else drawWord (k + 4 * j)

/-- How many draws `srcWord` sets aside for one look at all of SRCBUF. -/
def srcDraws : Nat := 256

/-- The target range of an operation begins here (R42). -/
def Op.base : Op → Nat
  | .eraseRange base _ _ => base
  | .program a _         => a
  | .pageProgram p _     => p

/-- The target range of an operation has this many bytes (R42). -/
def Op.size : Op → Nat
  | .eraseRange _ size _ => size
  | .program _ bytes     => bytes.length
  | .pageProgram _ _     => 256

/-- The kind FAIL is asked about (R111, R112). -/
def Op.kind : Op → OpKind
  | .eraseRange _ _ .page4K   => .page4K
  | .eraseRange _ _ .fastPage => .fastPage
  | .eraseRange _ _ .block32K => .block32K
  | .program _ _              => .prog
  | .pageProgram _ _          => .pageProg

/-- The address a lies in the target range of the operation (R67). -/
def Op.targets (op : Op) (a : Nat) : Bool := decide (op.base ≤ a) && decide (a < op.base + op.size)

/-- n bytes at a lie in the flash window; the sum is unbounded (R104). -/
def Params.inFlash (p : Params) (a n : Nat) : Bool :=
  decide (p.flashBase ≤ a) && decide (a + n ≤ p.flashEnd)

/-- Some standard page k with WP(k) overlaps the n bytes at a (R111, R112). -/
def Params.protects (p : Params) (a n : Nat) : Bool :=
  p.wp.any fun k =>
    decide (max a (p.flashBase + Config.pageSize * k)
      < min (a + n) (p.flashBase + Config.pageSize * (k + 1)))

/-- FAIL(kind, address) (R9). -/
def Params.failing (p : Params) (k : OpKind) (a : Nat) : Bool := p.fails.contains (k, a)

/-- ERASED_READ(a) (R9). -/
def Params.erasedRead (p : Params) (a : Nat) : Byte := (p.erasedAt.lookup a).getD p.erasedByte

/-- The host must halve a clock of frequency `hclk` before flash operations: it is above CLK_THRESHOLD
(R9, R245). The block sees only that the host has done so, as CLK_SAFE (R44). -/
def Params.mustHalveClock (p : Params) (hclk : Nat) : Bool := decide (p.clkThreshold < hclk)

end Sys2Proof.Machine
end

