-- ==== Sys2Proof/Machine/Ops.lean ====
section
/-!
DEFINITION. The shared procedures of the commands: taking a protocol fault (R215 of
60_exceptions.md) and the reset that alone leaves it (R240 to R243 of 70_reset_and_hazards.md), the
lock domains (R41, R115), the checks (R104, R105, R122), the busy-wait (R107), and the common body of
every erase and program command (R109 of 40_controller.md).
-/

namespace Sys2Proof.Machine

/-! ## Protocol faults, reset, finish -/

/-- `raise Fault(reason)` (R215): the reason is recorded, PROTERR is set, both domains lock, the
sequencer is Faulted and the command abandoned. RESULT, ORCH and an operation in flight stay. -/
def raiseFault (r : FaultReason) (s : State) : State :=
  { s with
    faults   := s.faults ++ [r]
    proterr  := true
    lockStd  := true
    lockFast := true
    seq      := .faulted }

/-- The cells of an operation's target all Indet. -/
def Op.indetCells (op : Op) : List FlashCell := List.replicate op.size .indet

/-- What a reset leaves in the array: the cells are kept (R242), but those under an operation in
flight become Indet (R243). -/
def flashAfterReset (s : State) : Memory :=
  match s.engine with
  | .idle          => s.flash
  | .inFlight op _ => s.flash.write op.base op.indetCells

/-- The system reset (R240): every register and internal element takes its value of R241, the array
and the fault record are kept, CLK_SAFE is the host's. "Reset is the only way out of the Faulted
state." The model's own fields are kept too, log entry 17. -/
def systemReset (s : State) : State :=
  { State.reset with
    flash   := flashAfterReset s
    faults  := s.faults
    clkSafe := s.clkSafe
    cfg     := s.cfg
    agenda  := s.agenda
    draws   := s.draws
    busData := s.busData }

/-- `finish(r)` (R103). -/
def finish (r : OpResult) (s : State) : State := { s with result := r, seq := .idle }

/-- Stop at a `poll` of command i: the next sequencer step goes on from p (R102). -/
def suspend (i : Instr) (p : Point) (s : State) : State := { s with seq := .exec i p }

/-- The position of the current command. -/
def State.pos (s : State) : Point :=
  match s.seq with
  | .exec _ p => p
  | .idle     => .start
  | .faulted  => .start

/-! ## Lock domains -/

/-- lock[d] (R41). -/
def State.lock (s : State) : Domain → Bool
  | .std  => s.lockStd
  | .fast => s.lockFast

/-- lock[d] <- b. -/
def setLock (d : Domain) (b : Bool) (s : State) : State :=
  { s with
    lockStd  := if d = .std then b else s.lockStd
    lockFast := if d = .fast then b else s.lockFast }

/-- lock[d] <- false, and LASTPROG <- 0 where that opens the Standard domain; a domain already open
is left as it is (R115). -/
def openDomain (d : Domain) (s : State) : State :=
  { s with
    lockStd  := if d = .std then false else s.lockStd
    lockFast := if d = .fast then false else s.lockFast
    lastProg := if d = .std ∧ s.lockStd = true then 0 else s.lastProg }

/-- UnlockBody(d), then k (R115, R189): a fault while the other domain is open. -/
def unlockThen (d : Domain) (k : State → State) (s : State) : State :=
  if s.lock d.other = false then raiseFault .unlockOther s else k (openDomain d s)

/-! ## The common body of erase and program commands -/

/-- What DoFlashOp is called with (R109): the domain it needs, the operation, whose target is
[a, a + n), and the alignment of its address. -/
structure FlashCall where
  dom   : Domain
  op    : Op
  align : Nat
  deriving DecidableEq, Repr

/-- How one atomic step inside a procedure that polls ends: it returns a result, it stands at a poll
of one of the two busy-waits, or a fault has been raised (R102). -/
inductive Call
  | ret (r : OpResult) (s : State)
  | poll (w : WaitKind) (s : State)
  | stopped (s : State)
  deriving DecidableEq, Repr

/-- CheckAddr(a, n, align) passes (R104). -/
def addrOk (s : State) (a n align : Nat) : Bool := a % align == 0 && s.cfg.inFlash a n

/-- polls <- n (R46). -/
def setPolls (n : Word) (s : State) : State := { s with polls := n }

/-- The domain is locked: STATR.WRPRTERR <- 1 (R109, R141, R145). -/
def flagLocked (s : State) : State := { s with wrprterr := true }

/-- The loop body of WaitForLastOperation up to its return or its `poll` (R107); `none` is the poll.
The counter has 32 bits (R46): with TIMEOUT = 0 it may wrap, DEDUCED, log entry 13. -/
def pollOnce (s : State) : Option OpResult × State :=
  match s.engine with
  | .idle         => (some (flagResult s), s)
  | .inFlight _ _ =>
    if s.timeout ≠ 0 ∧ s.polls = s.timeout then (some .timedOut, s)
    else (none, setPolls (s.polls + 1) s)

/-- WaitForLastOperation from its beginning (R107). -/
def beginWait (s : State) : Option OpResult × State := pollOnce (setPolls 0 s)

/-- The final wait of DoFlashOp (R109). -/
def finalWait : Option OpResult × State → Call
  | (some r, s) => .ret r s
  | (none, s)   => .poll .final s

/-- A standard program below LASTPROG (R122). -/
def outOfOrder (c : FlashCall) (s : State) : Bool :=
  match c.op with
  | .eraseRange _ _ _ => false
  | .program a _      => c.dom == .std && decide (a < s.lastProg.toNat)
  | .pageProgram _ _  => false

/-- LASTPROG in the issuing step (R109, R122): one past a standard program, 0 for an erase, as it was
for a page commit. -/
def lastProgAfter (c : FlashCall) (s : State) : Word :=
  match c.op with
  | .eraseRange _ _ _ => 0
  | .program a bytes  =>
    match c.dom with
    | .std  => BitVec.ofNat 32 (a + bytes.length)
    | .fast => s.lastProg
  | .pageProgram _ _  => s.lastProg

/-- The loaded bits in the issuing step: a page commit clears them (R144, R145). -/
def loadedAfter (c : FlashCall) (s : State) : BitVec 64 :=
  match c.op with
  | .eraseRange _ _ _ => s.loaded
  | .program _ _      => s.loaded
  | .pageProgram _ _  => 0

/-- issue(op), with what the issuing step writes beside the engine (R108, R109, R122, R144). -/
def issue (c : FlashCall) (s : State) : State :=
  { s with
    engine   := .inFlight c.op false
    lastProg := lastProgAfter c s
    loaded   := loadedAfter c s }

/-- DoFlashOp after a pre-wait that returned Complete, in the order of R217: F_CLK, F_BOTH, the
locked domain, F_ORDER, issue, the final wait (R105, R109). -/
def issueOp (c : FlashCall) (s : State) : Call :=
  if s.clkSafe = false then .stopped (raiseFault .clk s)
  else if s.lockStd = false ∧ s.lockFast = false then .stopped (raiseFault .both s)
  else if s.lock c.dom = true then .ret .writeProtectError (flagLocked s)
  else if outOfOrder c s = true then .stopped (raiseFault .order s)
  else finalWait (beginWait (issue c s))

/-- The pre-wait of DoFlashOp: "TimedOut, or a stale ProgramError / WriteProtectError" is returned,
Complete goes on (R109). -/
def preWait (c : FlashCall) : Option OpResult × State → Call
  | (none, s)   => .poll .pre s
  | (some r, s) => if r = .complete then issueOp c s else .ret r s

/-- DoFlashOp from its beginning (R109). -/
def startFlashOp (c : FlashCall) (s : State) : Call :=
  if addrOk s c.op.base c.op.size c.align then preWait c (beginWait s)
  else .stopped (raiseFault .addr s)

/-- DoFlashOp from a poll of one of its waits (R102, R109). -/
def resumeFlashOp (c : FlashCall) (w : WaitKind) (s : State) : Call :=
  match w with
  | .pre   => preWait c (pollOnce s)
  | .final => finalWait (pollOnce s)

/-- What command i does with the end of a step of a procedure that polls: go on with its result, or
stand at the poll at position p. -/
def Call.andThen (i : Instr) (p : WaitKind → Point) (k : OpResult → State → State) : Call → State
  | .ret r s   => k r s
  | .poll w s  => suspend i (p w) s
  | .stopped s => s

/-- A primitive erase or program command i: one DoFlashOp, then finish with its result (R119). -/
def flashCommand (i : Instr) (c : FlashCall) (s : State) : State :=
  match s.pos with
  | .wait w => (resumeFlashOp c w s).andThen i .wait finish
  | _       => (startFlashOp c s).andThen i .wait finish

/-! ## The page buffer -/

/-- PBUF[j] <- 0xFFFFFFFF and loaded[j] <- 0 for all j (R142). -/
def resetBuffer (s : State) : State :=
  { s with pbuf := wordsOf fun _ => 0xFFFFFFFF, loaded := 0 }

/-- Reset and sixteen loads from SRCBUF (R145): PBUF is SRCBUF, every word is loaded. -/
def fillFromSource (s : State) : State :=
  { s with
    pbuf   := wordsOf (srcWord s s.draws)
    loaded := allLoaded
    draws  := s.draws + srcDraws }

/-- BufGate, then k (R141). -/
def bufGate (k : State → State) (s : State) : State :=
  if s.lockFast = true then finish .writeProtectError (flagLocked s) else k s

/-- The commit of the page buffer to page p. The snapshot is of the buffer at the issuing step, which
nothing changes before it (R144); DEDUCED, log entry 18. -/
def pageCall (p : Nat) (s : State) : FlashCall := ⟨.fast, .pageProgram p s.pbuf, 256⟩

/-- The pseudocode of PROGRAM_PAGE_FAST up to its finish, from its beginning (R145, R189). -/
def programPageStart (p : Nat) (s : State) : Call :=
  if addrOk s p 256 256 then
    if s.lockFast = true then .ret .writeProtectError (flagLocked s)
    else startFlashOp (pageCall p (fillFromSource s)) (fillFromSource s)
  else .stopped (raiseFault .addr s)

end Sys2Proof.Machine
end

