-- ==== Sys2Proof/Machine/Controller.lean ====
section
/-!
DEFINITION. The controller commands (R115 to R121 of 40_controller.md). A meaning is one atomic step of
its command, from the position the state holds (R102).
-/

namespace Sys2Proof.Machine

/-- UNLOCK (R115). -/
def execUnlock (d : Domain) (s : State) : Host.Outcome State Fault Refusal :=
  .next (unlockThen d (finish .complete) s)

/-- LOCK (R116). -/
def execLock (d : Domain) (s : State) : Host.Outcome State Fault Refusal :=
  .next (finish .complete (setLock d true s))

/-- CLEAR_FLAGS (R117). -/
def execClearFlags (s : State) : Host.Outcome State Fault Refusal :=
  .next (finish .complete (clearBody s))

/-- The step of WAIT: its busy-wait from its beginning, or from a poll (R107, R118). -/
def waitStep (s : State) : Call :=
  match s.pos with
  | .wait _ => finalWait (pollOnce s)
  | _       => finalWait (beginWait s)

/-- WAIT (R118). -/
def execWait (s : State) : Host.Outcome State Fault Refusal :=
  .next ((waitStep s).andThen .wait .wait finish)

/-- The call of ERASE_PAGE: a = ADDR (R119). -/
def erasePageCall (s : State) : FlashCall :=
  ⟨.std, .eraseRange s.addr.toNat Config.pageSize .page4K, Config.pageSize⟩

/-- ERASE_PAGE (R119). -/
def execErasePage (s : State) : Host.Outcome State Fault Refusal :=
  .next (flashCommand .erasePage (erasePageCall s) s)

/-- The call of PROGRAM_HALFWORD: a = ADDR, v = DATA0[15:0] (R120). -/
def programHalfwordCall (s : State) : FlashCall :=
  ⟨.std, .program s.addr.toNat (halfBytes s.data0Half), 2⟩

/-- PROGRAM_HALFWORD (R120). -/
def execProgramHalfword (s : State) : Host.Outcome State Fault Refusal :=
  .next (flashCommand .programHalfword (programHalfwordCall s) s)

/-- The call of PROGRAM_WORD: a = ADDR, v = DATA0 (R121). -/
def programWordCall (s : State) : FlashCall :=
  ⟨.std, .program s.addr.toNat (wordBytes s.data0), 4⟩

/-- PROGRAM_WORD (R121). -/
def execProgramWord (s : State) : Host.Outcome State Fault Refusal :=
  .next (flashCommand .programWord (programWordCall s) s)

end Sys2Proof.Machine
end

