-- ==== Sys2Proof/Machine/FastPath.lean ====
section
/-!
DEFINITION. The fast-mode path commands (R140 to R147 of 41_fast_path.md).
-/

namespace Sys2Proof.Machine

/-- RESET_BUFFER (R142). -/
def execResetBuffer (s : State) : Host.Outcome State Fault Refusal :=
  .next (bufGate (fun t => finish .complete (resetBuffer t)) s)

/-- Four words and their loaded bits (R143). -/
def loadBuffer (s : State) : State :=
  { s with pbuf := loadWords s s.bufIndex, loaded := s.loaded ||| loadMask s.bufIndex }

/-- LOAD_BUFFER (R143). -/
def execLoadBuffer (s : State) : Host.Outcome State Fault Refusal :=
  .next (if addrOk s s.addr.toNat 16 16 then
      bufGate (fun t => finish .complete (loadBuffer t)) s
    else raiseFault .addr s)

/-- COMMIT_PAGE_FAST from its beginning: F_ADDR, then F_BUF, then DoFlashOp (R144, R217). -/
def commitStart (s : State) : Call :=
  if addrOk s s.fastPage 256 256 then
    if s.loaded = allLoaded then startFlashOp (pageCall s.fastPage s) s
    else .stopped (raiseFault .buf s)
  else .stopped (raiseFault .addr s)

/-- The step of COMMIT_PAGE_FAST (R144). -/
def commitStep (s : State) : Call :=
  match s.pos with
  | .wait w => resumeFlashOp (pageCall s.fastPage s) w s
  | _       => commitStart s

/-- COMMIT_PAGE_FAST (R144). -/
def execCommitPageFast (s : State) : Host.Outcome State Fault Refusal :=
  .next ((commitStep s).andThen .commitPageFast .wait finish)

/-- The step of PROGRAM_PAGE_FAST (R145). -/
def programPageStep (s : State) : Call :=
  match s.pos with
  | .wait w => resumeFlashOp (pageCall s.fastPage s) w s
  | _       => programPageStart s.fastPage s

/-- PROGRAM_PAGE_FAST (R145). -/
def execProgramPageFast (s : State) : Host.Outcome State Fault Refusal :=
  .next ((programPageStep s).andThen .programPageFast .wait finish)

/-- The call of ERASE_PAGE_FAST: a = ADDR (R146). -/
def erasePageFastCall (s : State) : FlashCall :=
  ⟨.fast, .eraseRange s.addr.toNat Config.fastPageSize .fastPage, Config.fastPageSize⟩

/-- ERASE_PAGE_FAST (R146). -/
def execErasePageFast (s : State) : Host.Outcome State Fault Refusal :=
  .next (flashCommand .erasePageFast (erasePageFastCall s) s)

/-- The call of ERASE_BLOCK_32K_FAST: a = ADDR (R147). -/
def eraseBlock32kFastCall (s : State) : FlashCall :=
  ⟨.fast, .eraseRange s.addr.toNat Config.blockSize .block32K, Config.blockSize⟩

/-- ERASE_BLOCK_32K_FAST (R147). -/
def execEraseBlock32kFast (s : State) : Host.Outcome State Fault Refusal :=
  .next (flashCommand .eraseBlock32kFast (eraseBlock32kFastCall s) s)

end Sys2Proof.Machine
end

