-- ==== Sys2Proof/WellFormed.lean ====
section
/-!
DEFINITION. What R80 to R84 ask of the fields of a command word, one check each. An `Instr` carries
only the fields its row of R82 leaves free, so every `Instr` is well-formed: that is a lemma
(Sys2Proof/Laws/Encoding.lean), not a check.
-/

namespace Sys2Proof

/-- RSV "must be 0" (R80). -/
def Cmd32.rsvOk (f : Cmd32) : Bool := f.rsv == 0

/-- OPC is one of R82's opcodes; OPC 0x00, 0x08–0x0F, 0x16–0x1F and 0x22–0xFF are illegal (R84). -/
def Cmd32.opcOk (f : Cmd32) : Bool :=
  decide (0x01 ≤ f.opc.toNat ∧ f.opc.toNat ≤ 0x07)
    || decide (0x10 ≤ f.opc.toNat ∧ f.opc.toNat ≤ 0x15)
    || decide (0x20 ≤ f.opc.toNat ∧ f.opc.toNat ≤ 0x21)

/-- DOM "must be 0 in every other command" than UNLOCK and LOCK (R80). -/
def Cmd32.domOk (f : Cmd32) : Bool := !f.dom || f.opc == 0x01 || f.opc == 0x02

/-- NODIAG "must be 0 in every other command" than RUN_FAST (R80). -/
def Cmd32.nodiagOk (f : Cmd32) : Bool := !f.nodiag || f.opc == 0x21

/-- The fields of a legal command word (R82, R84). -/
def Cmd32.wf (f : Cmd32) : Bool := f.rsvOk && f.opcOk && f.domOk && f.nodiagOk

end Sys2Proof
end

