-- ==== Sys2Proof/Decode.lean ====
section
/-!
DEFINITION. The decoder of a command word (R83 of 30_encoding.md), total on every 32-bit word, which
rejects an illegal word by name, and after it the encoder, from the opcode map of R82.
-/

namespace Sys2Proof

/-- Why a word is illegal (R84). The block does not tell the reasons apart: every one has the
effect of R100. Where several hold, the name given is the first in R83's order. DESIGN CHOICE:
log entry 20. -/
inductive Reject
  | reservedBits | reservedOpcode | domNotAllowed | nodiagNotAllowed
  deriving DecidableEq, Repr

/-- The decoder's answer: a command, or the word is Illegal (R83). -/
inductive Decoded
  | command (i : Instr)
  | illegal (r : Reject)
  deriving DecidableEq, Repr

/-- The fields of a word (R80). -/
def fieldsOfWord (w : Word) : Cmd32 where
  opc    := w.extractLsb' 0 8
  dom    := w.getLsbD 8
  nodiag := w.getLsbD 9
  rsv    := w.extractLsb' 10 22

/-- DOM: 0 = Std, 1 = Fast (R80). -/
def domainOfBit (b : Bool) : Domain := if b then .fast else .std

/-- A command with neither a domain nor a diagnostic switch: DOM = 0 and NODIAG = 0 (R83). -/
def decodePlain (f : Cmd32) (i : Instr) : Decoded :=
  if f.dom then .illegal .domNotAllowed
  else if f.nodiag then .illegal .nodiagNotAllowed
  else .command i

/-- UNLOCK and LOCK: NODIAG = 0, DOM names the domain (R83). -/
def decodeDomain (f : Cmd32) (i : Domain → Instr) : Decoded :=
  if f.nodiag then .illegal .nodiagNotAllowed else .command (i (domainOfBit f.dom))

/-- RUN_FAST: DOM = 0, NODIAG is the diagnostic switch (R83). -/
def decodeRunFast (f : Cmd32) : Decoded :=
  if f.dom then .illegal .domNotAllowed else .command (.runFast f.nodiag)

/-- `decode` of R83 on the fields of a word. -/
def decodeFields (f : Cmd32) : Decoded :=
  if f.rsv ≠ 0 then .illegal .reservedBits
  else match f.opc.toNat with
    | 0x01 => decodeDomain f .unlock
    | 0x02 => decodeDomain f .lock
    | 0x03 => decodePlain f .clearFlags
    | 0x04 => decodePlain f .wait
    | 0x05 => decodePlain f .erasePage
    | 0x06 => decodePlain f .programHalfword
    | 0x07 => decodePlain f .programWord
    | 0x10 => decodePlain f .resetBuffer
    | 0x11 => decodePlain f .loadBuffer
    | 0x12 => decodePlain f .commitPageFast
    | 0x13 => decodePlain f .programPageFast
    | 0x14 => decodePlain f .erasePageFast
    | 0x15 => decodePlain f .eraseBlock32kFast
    | 0x20 => decodePlain f .runStandard
    | 0x21 => decodeRunFast f
    | _    => .illegal .reservedOpcode

/-- `decode(w)` of R83: "A decoder reads the whole word at once" (R80). -/
def decode (w : Word) : Decoded := decodeFields (fieldsOfWord w)

/-- The word the opcode table numbers: `nbits` bits of value `w`, all bits above them 0. -/
def tableWord (nbits w : Nat) : Option Word :=
  if nbits ≤ 32 ∧ w < 2 ^ nbits then some (BitVec.ofNat 32 w) else none

/-- The command the decoder reads from the table's word; none where it refuses. -/
def decodeTableWord (nbits w : Nat) : Option Instr :=
  match tableWord nbits w with
  | none   => none
  | some v =>
    match decode v with
    | .command i => some i
    | .illegal _ => none

/-! ## The encoder -/

/-- The DOM bit of a domain (R80). -/
def bitOfDomain : Domain → Bool
  | .std  => false
  | .fast => true

/-- The opcode map (R82). -/
def Instr.opc : Instr → BitVec 8
  | .unlock _          => 0x01
  | .lock _            => 0x02
  | .clearFlags        => 0x03
  | .wait              => 0x04
  | .erasePage         => 0x05
  | .programHalfword   => 0x06
  | .programWord       => 0x07
  | .resetBuffer       => 0x10
  | .loadBuffer        => 0x11
  | .commitPageFast    => 0x12
  | .programPageFast   => 0x13
  | .erasePageFast     => 0x14
  | .eraseBlock32kFast => 0x15
  | .runStandard       => 0x20
  | .runFast _         => 0x21

/-- The DOM bit a command is written with (R80, R82). -/
def Instr.domBit : Instr → Bool
  | .unlock d          => bitOfDomain d
  | .lock d            => bitOfDomain d
  | .clearFlags        => false
  | .wait              => false
  | .erasePage         => false
  | .programHalfword   => false
  | .programWord       => false
  | .resetBuffer       => false
  | .loadBuffer        => false
  | .commitPageFast    => false
  | .programPageFast   => false
  | .erasePageFast     => false
  | .eraseBlock32kFast => false
  | .runStandard       => false
  | .runFast _         => false

/-- The NODIAG bit a command is written with (R80, R82). -/
def Instr.nodiagBit : Instr → Bool
  | .unlock _          => false
  | .lock _            => false
  | .clearFlags        => false
  | .wait              => false
  | .erasePage         => false
  | .programHalfword   => false
  | .programWord       => false
  | .resetBuffer       => false
  | .loadBuffer        => false
  | .commitPageFast    => false
  | .programPageFast   => false
  | .erasePageFast     => false
  | .eraseBlock32kFast => false
  | .runStandard       => false
  | .runFast n         => n

/-- The fields of a command's word (R80, R82). -/
def Instr.fields (i : Instr) : Cmd32 := ⟨i.opc, i.domBit, i.nodiagBit, 0⟩

/-- The word of the fields (R80): RSV, NODIAG, DOM, OPC from the top. -/
def Cmd32.word (f : Cmd32) : Word :=
  f.rsv.setWidth 32 <<< 10 ||| (BitVec.ofBool f.nodiag).setWidth 32 <<< 9
    ||| (BitVec.ofBool f.dom).setWidth 32 <<< 8 ||| f.opc.setWidth 32

/-- The command word of a command (R82). -/
def encode (i : Instr) : Word := i.fields.word

end Sys2Proof
end

