-- ==== Sys2Proof/Machine/Bus.lean ====
section
/-!
DEFINITION. The host agent: reads of the array (R66, R67 of 20_memory.md), the register window (R22 to
R39 of 10_state.md), bus reads and writes (R63, R64), acceptance of a command (R100, R101 of
40_controller.md) and the clock window (R44, R113).
-/

namespace Sys2Proof.Machine

/-! ## Reads of the array -/

/-- The address a lies under an operation in flight (R67). -/
def State.underOp (s : State) (a : Nat) : Bool :=
  match s.engine with
  | .idle          => false
  | .inFlight op _ => op.targets a

/-- ByteRead(a) after k draws, and the draws after it (R66). -/
def byteRead (s : State) (k a : Nat) : Byte × Nat :=
  if s.underOp a then (Config.draw k, k + 1)
  else match s.flash.cell a with
    | .erased => (s.cfg.erasedRead a, k)
    | .val b  => (b, k)
    | .indet  => (Config.draw k, k + 1)

/-- ArrRead(a, n), n at most 4, little-endian, zero-extended (R66). -/
def arrRead (s : State) : Nat → Nat → Nat → Word × Nat
  | k, _, 0     => (0, k)
  | k, a, n + 1 =>
    let b  := byteRead s k a
    let hi := arrRead s b.2 (a + 1) n
    (hi.1 <<< 8 ||| b.1.zeroExtend 32, hi.2)

/-! ## Registers -/

/-- SRCBUF[j] is at 0x100 + 4·j (R22). -/
def srcIndex (off : Nat) : Nat := (off - 0x100) / 4

/-- The value a host reads at a word-aligned offset of the window (R22, R23). Reserved offsets and
CMD read 0 (R24, R39). A SRCBUF word that nothing has written reads a draw (R38). -/
def regRead (s : State) (off : Nat) : Word :=
  match off with
  | 0x000 => 0
  | 0x004 => s.addr
  | 0x008 => s.data0
  | 0x00C => s.data1
  | 0x010 => s.data2
  | 0x014 => s.data3
  | 0x018 => s.statr
  | 0x01C => s.lockr
  | 0x020 => s.result.code
  | 0x024 => s.timeout
  | 0x028 => s.orch
  | 0x02C => s.startAddr
  | 0x030 => s.endAddr
  | 0x034 => s.pattern.zeroExtend 32
  | 0x038 => s.nbrPage
  | 0x03C => s.eraseCnt
  | 0x040 => s.cursor
  | 0x044 => s.flashStatus.code
  | 0x048 => s.verify
  | 0x04C => s.pageIdx
  | 0x050 => s.diag
  | 0x054 => s.lastProg
  | 0x058 => s.loaded.extractLsb' 0 32
  | 0x05C => s.loaded.extractLsb' 32 32
  | _     => if 0x100 ≤ off then srcWord s s.draws (srcIndex off) else 0

/-- How many draws a read of the register at an offset sets aside: only SRCBUF holds any (R38). -/
def regDraws (off : Nat) : Nat := if 0x100 ≤ off then srcDraws else 0

/-- AcceptCmd(w) where seq_state ≠ Exec (R100, R101 covers Exec). -/
def acceptCmd (w : Word) (s : State) : State :=
  match s.seq with
  | .faulted  => { s with ovr := true }
  | .exec _ _ => { s with ovr := true }
  | .idle     =>
    match decode w with
    | .illegal _ => { s with illcmd := true }
    | .command i => { s with seq := .exec i .start, result := .busy, polls := 0 }

/-- SRCBUF[j] <- v (R38). -/
def writeSource (j : Nat) (v : Word) (s : State) : State :=
  { s with srcbuf := s.srcbuf.setIfInBounds j v, srcWritten := s.srcWritten ||| (1#64 <<< j) }

/-- A host write of v to the register at a word-aligned offset, per its access type (R22, R23):
read-only and reserved offsets ignore it. -/
def regWrite (off : Nat) (v : Word) (s : State) : State :=
  match off with
  | 0x000 => acceptCmd v s
  | 0x004 => { s with addr := v }
  | 0x008 => { s with data0 := v }
  | 0x00C => { s with data1 := v }
  | 0x010 => { s with data2 := v }
  | 0x014 => { s with data3 := v }
  | 0x018 => writeStatr v s
  | 0x024 => { s with timeout := v }
  | 0x02C => { s with startAddr := v }
  | 0x030 => { s with endAddr := v }
  | 0x034 => { s with pattern := v.extractLsb' 0 16 }
  | _     => if 0x100 ≤ off then writeSource (srcIndex off) v s else s

/-! ## Host accesses -/

/-- addr lies in the register window (R60). -/
def Params.inWindow (p : Params) (addr : Nat) : Bool :=
  decide (p.seqBase ≤ addr) && decide (addr < p.seqBase + Config.windowSize)

/-- addr lies in the flash window (R60). -/
def Params.inFlashWindow (p : Params) (addr : Nat) : Bool :=
  decide (p.flashBase ≤ addr) && decide (addr < p.flashEnd)

/-- A host flash read of n bytes at addr is legal (R63, R69). -/
def flashReadOk (s : State) (addr n : Nat) : Bool :=
  (n == 1 || n == 2 || n == 4) && addr % n == 0 && decide (addr + n ≤ s.cfg.flashEnd)

/-- The host latches the data of a read; k draws have been made. -/
def latch (v : Word) (k : Nat) (s : State) : State := { s with busData := v, draws := k }

/-- MemRead(addr, n) (R63). A read that faults returns nothing: `busData` stays, log entry 11. -/
def memRead (addr n : Nat) (s : State) : Host.Outcome State Fault Refusal :=
  if s.cfg.inWindow addr then
    if n = 4 ∧ addr % 4 = 0 then
      .next (latch (regRead s (addr - s.cfg.seqBase))
        (s.draws + regDraws (addr - s.cfg.seqBase)) s)
    else .next (raiseFault .bus s)
  else if s.cfg.inFlashWindow addr then
    if flashReadOk s addr n then
      .next (latch (arrRead s s.draws addr n).1 (arrRead s s.draws addr n).2 s)
    else .next (raiseFault .bus s)
  else .fault (.outsideBlock addr)

/-- MemWrite(addr, n, v) (R64, R101). -/
def memWrite (addr n : Nat) (v : Word) (s : State) : Host.Outcome State Fault Refusal :=
  if s.cfg.inWindow addr then
    if n = 4 ∧ addr % 4 = 0 then
      if s.seqbsy then .next { s with ovr := true }
      else .next (regWrite (addr - s.cfg.seqBase) v s)
    else .next (raiseFault .bus s)
  else if s.cfg.inFlashWindow addr then .next (raiseFault .flashWrite s)
  else .fault (.outsideBlock addr)

/-- The operation in flight will complete with Indet cells (R113). -/
def spoil : Engine → Engine
  | .idle          => .idle
  | .inFlight op _ => .inFlight op true

/-- The host drives CLK_SAFE to b (R44). Driving it to 0 in a step where engine ≠ Idle raises F_CLK
(R113), also where it was 0 already: DEDUCED, log entry 12. -/
def driveClk (b : Bool) (s : State) : State :=
  if b = false ∧ s.bsy = true then
    raiseFault .clk { s with clkSafe := false, engine := spoil s.engine }
  else { s with clkSafe := b }

/-- A move of the host agent (R14). -/
def hostAct (a : HostAct) (s : State) : Host.Outcome State Fault Refusal :=
  match a with
  | .read addr n    => memRead addr.toNat n s
  | .write addr n v => memWrite addr.toNat n v s
  | .clk b          => .next (driveClk b s)

end Sys2Proof.Machine
end

