-- ==== Sys2Proof/Machine/Orchestrators.lean ====
section
/-!
DEFINITION. The program-and-verify orchestrators (R170 to R185, R189 of 42_orchestrators.md). A loop
of the pseudocode is a function over its remaining iterations; a step leaves it at a poll of
DoFlashOp, and the next step goes on from the registers ERASE_CNT, CURSOR and PAGE_IDX.
-/

namespace Sys2Proof.Machine

/-- ORCH.PHASE <- p. -/
def setPhase (p : Phase) (s : State) : State := { s with orchPhase := p }

/-! ## RUN_STANDARD -/

/-- N = ceil((E − S) / PAGE_SIZE) (R173). -/
def pageCount (s e : Nat) : Nat := (e - s + Config.pageSize - 1) / Config.pageSize

/-- EntryCheckStd(S, E) passes (R171). -/
def stdEntryOk (s : State) : Bool :=
  decide (s.startAddr.toNat ≤ s.endAddr.toNat) && s.startAddr.toNat % Config.pageSize == 0
    && s.cfg.inFlash s.startAddr.toNat
        (Config.pageSize * pageCount s.startAddr.toNat s.endAddr.toNat)

/-- Locking and Done, then finish(FLASH_STATUS) (R177). -/
def stdLock (s : State) : State :=
  let s := setLock .std true (setPhase .locking s)
  finish s.flashStatus (setPhase .done s)

/-- The verify loop over n more half-words from cursor c after k draws, while they read V: the
verdict, CURSOR and the draws at its end (R176). -/
def stdVerifyLoop (s : State) : Nat → Nat → Nat → Bool × Nat × Nat
  | 0, c, k     => (true, c, k)
  | n + 1, c, k =>
    let r := arrRead s k c 2
    if r.1 = s.pattern.zeroExtend 32 then stdVerifyLoop s n (c + 2) r.2 else (false, c + 2, r.2)

/-- The half-words of [c, e) read or programmed two bytes at a time. -/
def halfCount (c e : Nat) : Nat := (e - c + 1) / 2

/-- Verifying, then the locking phase (R176, R177). -/
def stdVerify (s : State) : State :=
  let s := setPhase .verifying s
  let r := stdVerifyLoop s (halfCount s.startAddr.toNat s.endAddr.toNat) s.startAddr.toNat s.draws
  stdLock { s with verifyPassed := r.1, cursor := BitVec.ofNat 32 r.2.1, draws := r.2.2 }

/-- The call at CURSOR of the programming loop (R175). -/
def stdProgramCall (s : State) : FlashCall :=
  ⟨.std, .program s.cursor.toNat (halfBytes s.pattern), 2⟩

/-- After a program of the loop: FLASH_STATUS <- r, CURSOR <- CURSOR + 2 (R175). -/
def stdProgrammed (r : OpResult) (s : State) : State :=
  { s with flashStatus := r, cursor := s.cursor + 2 }

/-- The programming loop with n iterations left, "while CURSOR < E and FLASH_STATUS = Complete"
(R175). -/
def stdProgramLoop : Nat → State → State
  | 0, s     => stdVerify s
  | n + 1, s =>
    if s.flashStatus = .complete then
      (startFlashOp (stdProgramCall s) s).andThen .runStandard .stdProgram fun r t =>
        stdProgramLoop n (stdProgrammed r t)
    else stdVerify s

/-- The programming loop from CURSOR (R175). -/
def stdProgramFrom (s : State) : State :=
  stdProgramLoop (halfCount s.cursor.toNat s.endAddr.toNat) s

/-- Programming: "The phase is always entered" (R175). -/
def stdProgram (s : State) : State :=
  stdProgramFrom { setPhase .programming s with cursor := s.startAddr }

/-- The call for page ERASE_CNT of the erasing loop (R174). -/
def stdEraseCall (s : State) : FlashCall :=
  ⟨.std, .eraseRange (s.startAddr.toNat + Config.pageSize * s.eraseCnt.toNat) Config.pageSize
    .page4K, Config.pageSize⟩

/-- After an erase of the loop: FLASH_STATUS <- r, ERASE_CNT <- ERASE_CNT + 1 (R174). -/
def stdErased (r : OpResult) (s : State) : State :=
  { s with flashStatus := r, eraseCnt := s.eraseCnt + 1 }

/-- The erasing loop with n iterations left, "while ERASE_CNT < N and FLASH_STATUS = Complete"
(R174). -/
def stdEraseLoop : Nat → State → State
  | 0, s     => stdProgram s
  | n + 1, s =>
    if s.flashStatus = .complete then
      (startFlashOp (stdEraseCall s) s).andThen .runStandard .stdErase fun r t =>
        stdEraseLoop n (stdErased r t)
    else stdProgram s

/-- The erasing loop from ERASE_CNT (R174). -/
def stdEraseFrom (s : State) : State := stdEraseLoop (s.nbrPage.toNat - s.eraseCnt.toNat) s

/-- After the unlock: clear the flags, count the pages, enter the erasing phase (R172 to R174). -/
def stdErase (s : State) : State :=
  stdEraseFrom { setPhase .erasing (clearBody s) with
    nbrPage     := BitVec.ofNat 32 (pageCount s.startAddr.toNat s.endAddr.toNat)
    eraseCnt    := 0
    flashStatus := .complete }

/-- RUN_STANDARD from its beginning: KIND, the entry check, the unlocking phase (R170 to R172). -/
def stdStart (s : State) : State :=
  let s := { s with orchKind := .standard }
  if stdEntryOk s then unlockThen .std stdErase (setPhase .unlocking s) else raiseFault .range s

/-- The step of RUN_STANDARD from the position the state holds (R102, R170). -/
def stdStep (s : State) : State :=
  match s.pos with
  | .stdErase w =>
    (resumeFlashOp (stdEraseCall s) w s).andThen .runStandard .stdErase fun r t =>
      stdEraseFrom (stdErased r t)
  | .stdProgram w =>
    (resumeFlashOp (stdProgramCall s) w s).andThen .runStandard .stdProgram fun r t =>
      stdProgramFrom (stdProgrammed r t)
  | _ => stdStart s

/-- RUN_STANDARD (R170). -/
def execRunStandard (s : State) : Host.Outcome State Fault Refusal := .next (stdStep s)

/-! ## RUN_FAST -/

/-- EntryCheckFast(S) passes (R179). -/
def fastEntryOk (s : State) : Bool :=
  s.startAddr.toNat % Config.blockSize == 0 && s.cfg.inFlash s.startAddr.toNat Config.blockSize

/-- Locking and Done, then finish(FLASH_STATUS) (R185). -/
def fastLock (s : State) : State :=
  let s := setLock .fast true (setPhase .locking s)
  finish s.flashStatus (setPhase .done s)

/-- The call of a diagnostic erase at S (R184). -/
def diagPageCall (s : State) : FlashCall :=
  ⟨.fast, .eraseRange s.startAddr.toNat Config.fastPageSize .fastPage, Config.fastPageSize⟩

/-- The second diagnostic erase, in the Standard domain (R184). -/
def diagStdCall (s : State) : FlashCall :=
  ⟨.std, .eraseRange s.startAddr.toNat Config.pageSize .page4K, Config.pageSize⟩

/-- The block erase at S, of the erasing phase and of the third diagnostic erase (R181, R184). -/
def blockCall (s : State) : FlashCall :=
  ⟨.fast, .eraseRange s.startAddr.toNat Config.blockSize .block32K, Config.blockSize⟩

/-- DIAG[8:6] <- r, DIAG[9] <- 1, then the locking phase (R184, R185). -/
def diagBlockDone (r : OpResult) (s : State) : State :=
  fastLock { s with diagBlock := r, diagRan := true }

/-- DIAG[5:3] <- r; lock Std, unlock Fast; the third diagnostic erase (R184). -/
def diagStdDone (nodiag : Bool) (r : OpResult) (s : State) : State :=
  unlockThen .fast (fun t =>
      (startFlashOp (blockCall t) t).andThen (.runFast nodiag) .diagBlock diagBlockDone)
    (setLock .std true { s with diagStd := r })

/-- DIAG[2:0] <- r; lock Fast, unlock Std; the second diagnostic erase (R184). -/
def diagPageDone (nodiag : Bool) (r : OpResult) (s : State) : State :=
  unlockThen .std (fun t =>
      (startFlashOp (diagStdCall t) t).andThen (.runFast nodiag) .diagStd (diagStdDone nodiag))
    (setLock .fast true { s with diagPage := r })

/-- The diagnostic phase, skipped with NODIAG (R184). -/
def fastDiag (nodiag : Bool) (s : State) : State :=
  if nodiag then fastLock s
  else
    (startFlashOp (diagPageCall s) (setPhase .diagnostic s)).andThen (.runFast nodiag) .diagPage
      (diagPageDone nodiag)

/-- The words of the page at p from j on, n of them, compared with their index after k draws: all
equal, the last CURSOR (c where n is 0), the draws (R183). -/
def fastVerifyPage (s : State) (p : Nat) : Nat → Nat → Nat → Nat → Bool × Nat × Nat
  | 0, _, c, k     => (true, c, k)
  | n + 1, j, _, k =>
    let r := arrRead s k (p + 4 * j) 4
    if r.1 = BitVec.ofNat 32 j then fastVerifyPage s p n (j + 1) (p + 4 * j) r.2
    else (false, p + 4 * j, r.2)

/-- The pages from i on, n of them: "Each page overwrites FLAG" (R183). -/
def fastVerifyLoop (s : State) : Nat → Nat → Bool × Nat × Nat → Bool × Nat × Nat
  | 0, _, v     => v
  | n + 1, i, v =>
    fastVerifyLoop s n (i + 1)
      (fastVerifyPage s (s.startAddr.toNat + Config.fastPageSize * i) Config.bufWords 0 v.2.1 v.2.2)

/-- Verifying: always runs; PAGE_IDX ends at the last page (R183). -/
def fastVerify (nodiag : Bool) (s : State) : State :=
  let s := setPhase .verifying s
  let r := fastVerifyLoop s Config.fastRunPages 0 (s.verifyFlag, s.cursor.toNat, s.draws)
  fastDiag nodiag { s with
    pageIdx    := BitVec.ofNat 32 (Config.fastRunPages - 1)
    verifyFlag := r.1
    cursor     := BitVec.ofNat 32 r.2.1
    draws      := r.2.2 }

/-- The page PAGE_IDX of the run (R182). -/
def fastRunPage (s : State) : Nat := s.startAddr.toNat + Config.fastPageSize * s.pageIdx.toNat

/-- After a page of the loop: FLASH_STATUS <- r, PAGE_IDX <- PAGE_IDX + 1 (R182). -/
def fastProgrammed (r : OpResult) (s : State) : State :=
  { s with flashStatus := r, pageIdx := s.pageIdx + 1 }

/-- The programming loop with n iterations left, "while FLASH_STATUS = Complete" (R182). -/
def fastProgramLoop (nodiag : Bool) : Nat → State → State
  | 0, s     => fastVerify nodiag s
  | n + 1, s =>
    if s.flashStatus = .complete then
      (programPageStart (fastRunPage s) s).andThen (.runFast nodiag) .fastProgram fun r t =>
        fastProgramLoop nodiag n (fastProgrammed r t)
    else fastVerify nodiag s

/-- The programming loop from PAGE_IDX (R182). -/
def fastProgramFrom (nodiag : Bool) (s : State) : State :=
  fastProgramLoop nodiag (Config.fastRunPages - s.pageIdx.toNat) s

/-- After the block erase: FLASH_STATUS <- r, the programming phase (R181, R182). -/
def fastErased (nodiag : Bool) (r : OpResult) (s : State) : State :=
  fastProgramFrom nodiag { setPhase .programming s with flashStatus := r, pageIdx := 0 }

/-- SRCBUF[j] <- j for j in 0..63 (R180). -/
def writePattern (s : State) : State :=
  { s with srcbuf := wordsOf (BitVec.ofNat 32), srcWritten := BitVec.allOnes 64 }

/-- After the unlock: clear the flags, write the pattern, erase the block (R180, R181). -/
def fastErase (nodiag : Bool) (s : State) : State :=
  let s := setPhase .erasing (writePattern (clearBody s))
  (startFlashOp (blockCall s) s).andThen (.runFast nodiag) .fastErase (fastErased nodiag)

/-- KIND <- 1 and DIAG <- 0 (R178, R35). -/
def fastEnter (s : State) : State :=
  { s with
    orchKind  := .fast
    diagPage  := .complete
    diagStd   := .complete
    diagBlock := .complete
    diagRan   := false }

/-- RUN_FAST from its beginning: KIND, DIAG, the entry check, the unlocking phase (R178 to R180). -/
def fastStart (nodiag : Bool) (s : State) : State :=
  let s := fastEnter s
  if fastEntryOk s then unlockThen .fast (fastErase nodiag) (setPhase .unlocking s)
  else raiseFault .range s

/-- The step of RUN_FAST from the position the state holds (R102, R178). -/
def fastStep (nodiag : Bool) (s : State) : State :=
  match s.pos with
  | .fastErase w =>
    (resumeFlashOp (blockCall s) w s).andThen (.runFast nodiag) .fastErase (fastErased nodiag)
  | .fastProgram w =>
    (resumeFlashOp (pageCall (fastRunPage s) s) w s).andThen (.runFast nodiag) .fastProgram
      fun r t => fastProgramFrom nodiag (fastProgrammed r t)
  | .diagPage w =>
    (resumeFlashOp (diagPageCall s) w s).andThen (.runFast nodiag) .diagPage (diagPageDone nodiag)
  | .diagStd w =>
    (resumeFlashOp (diagStdCall s) w s).andThen (.runFast nodiag) .diagStd (diagStdDone nodiag)
  | .diagBlock w =>
    (resumeFlashOp (blockCall s) w s).andThen (.runFast nodiag) .diagBlock diagBlockDone
  | _ => fastStart nodiag s

/-- RUN_FAST (R178). -/
def execRunFast (nodiag : Bool) (s : State) : Host.Outcome State Fault Refusal :=
  .next (fastStep nodiag s)

end Sys2Proof.Machine
end

