-- ==== Sys2Proof/Machine/Dispatch.lean ====
section
/-!
DEFINITION. One arm per command: the step of command i from the position the state holds (R102).
-/

namespace Sys2Proof.Machine

def exec (i : Instr) (s : State) : Host.Outcome State Fault Refusal :=
  match i with
  | .unlock d => Sys2Proof.Machine.execUnlock d s
  | .lock d => Sys2Proof.Machine.execLock d s
  | .clearFlags => Sys2Proof.Machine.execClearFlags s
  | .wait => Sys2Proof.Machine.execWait s
  | .erasePage => Sys2Proof.Machine.execErasePage s
  | .programHalfword => Sys2Proof.Machine.execProgramHalfword s
  | .programWord => Sys2Proof.Machine.execProgramWord s
  | .resetBuffer => Sys2Proof.Machine.execResetBuffer s
  | .loadBuffer => Sys2Proof.Machine.execLoadBuffer s
  | .commitPageFast => Sys2Proof.Machine.execCommitPageFast s
  | .programPageFast => Sys2Proof.Machine.execProgramPageFast s
  | .erasePageFast => Sys2Proof.Machine.execErasePageFast s
  | .eraseBlock32kFast => Sys2Proof.Machine.execEraseBlock32kFast s
  | .runStandard => Sys2Proof.Machine.execRunStandard s
  | .runFast nodiag => Sys2Proof.Machine.execRunFast nodiag s

end Sys2Proof.Machine
end

