-- ==== Sys2Proof/Machine/Engine.lean ====
section
/-!
DEFINITION. The completion step of the flash engine (R110 to R113 of 40_controller.md).
-/

namespace Sys2Proof.Machine

/-- The cells a successful operation leaves in its target (R111, R112, R65). -/
def Op.cells : Op → List FlashCell
  | .eraseRange _ size _ => List.replicate size .erased
  | .program _ bytes     => bytes.map .val
  | .pageProgram _ words => (pageBytes words).map .val

/-- A program whose target holds a cell that is not Erased (R112). -/
def Op.overwrites (op : Op) (m : Memory) : Bool :=
  match op with
  | .eraseRange _ _ _ => false
  | .program a bytes  => !m.allErased a bytes.length
  | .pageProgram p _  => !m.allErased p 256

/-- The operation fails: PGERR, and its target is Indet (R111, R112, R113). -/
def failOp (op : Op) (s : State) : State :=
  { s with pgerr := true, flash := s.flash.write op.base op.indetCells, engine := .idle }

/-- The operation is refused for a protected page: WRPRTERR, "no cell changes" (R111, R112). -/
def refuseOp (s : State) : State := { s with wrprterr := true, engine := .idle }

/-- The operation succeeds: its cells, and EOP (R111, R112). -/
def succeedOp (op : Op) (s : State) : State :=
  { s with eop := true, flash := s.flash.write op.base op.cells, engine := .idle }

/-- The completion of an operation, in the order of R111 to R113: an operation during which CLK_SAFE
fell, a protected page, a cell that is not Erased, FAIL, success. -/
def completeOp (op : Op) (spoiled : Bool) (s : State) : State :=
  if spoiled then failOp op s
  else if s.cfg.protects op.base op.size then refuseOp s
  else if op.overwrites s.flash then failOp op s
  else if s.cfg.failing op.kind op.base then failOp op s
  else succeedOp op s

/-- The engine's turn: its completion step where one is enabled (R110); else nothing changes. -/
def engineStep (s : State) : State :=
  match s.engine with
  | .idle                => s
  | .inFlight op spoiled => completeOp op spoiled s

end Sys2Proof.Machine
end

