-- ==== Sys2Proof/Machine/Step.lean ====
section
/-!
DEFINITION. One step of the machine: one atomic step of one agent (R14, R71 of 20_memory.md, R102 of
40_controller.md), chosen by the agenda, or by a free value where the agenda is silent.
-/

namespace Sys2Proof.Machine

/-- The sequencer's turn: one step of the current command (R102). With none running it has no
enabled step and nothing changes, log entry 5. -/
def sequencerTurn (s : State) : Host.Outcome State Fault Refusal :=
  match s.seq with
  | .idle     => .next s
  | .exec i _ => exec i s
  | .faulted  => .next s

/-- A turn of the agenda. -/
def takeTurn (t : Turn) (s : State) : Host.Outcome State Fault Refusal :=
  match t with
  | .host a    => hostAct a s
  | .sequencer => sequencerTurn s
  | .engine    => .next (engineStep s)
  | .reset     => .next (systemReset s)

/-- The agenda is silent, the host with it: the one agent with an enabled step moves, or, where the
sequencer and the engine both have one, the one a free value names (R14: "Any agent with an enabled
step may be scheduled at any step"). Where neither has one, the block waits (R244). Log entry 5. -/
def silentTurn (s : State) : Host.Outcome State Fault Refusal :=
  if s.seqbsy && s.bsy then
    if Config.engineFirst s.draws then takeTurn .engine { s with draws := s.draws + 1 }
    else takeTurn .sequencer { s with draws := s.draws + 1 }
  else if s.seqbsy then takeTurn .sequencer s
  else takeTurn .engine s

/-- One step of the machine. -/
def step (s : State) : Host.Outcome State Fault Refusal :=
  match s.agenda with
  | []        => silentTurn s
  | t :: rest => takeTurn t { s with agenda := rest }

/-- s with the command word of the table accepted (R100) and the sequencer's turn next, so that the
next step runs it. A word the decoder refuses is a pending host write to CMD, which the next step
rejects with ILLCMD. Log entry 16. -/
def State.withFetchWord (s : State) (nbits w : Nat) : State :=
  match decodeTableWord nbits w with
  | some i =>
    { s with
      seq    := .exec i .start
      result := .busy
      polls  := 0
      agenda := .sequencer :: s.agenda }
  | none =>
    { s with
      seq    := .idle
      agenda := .host (.write (BitVec.ofNat 32 s.cfg.seqBase) 4 (BitVec.ofNat 32 w)) :: s.agenda }

end Sys2Proof.Machine
end

