-- ==== Sys2Proof/Safety.lean ====
section
/-!
DEFINITION. What counts as a safe run (R215 of 60_exceptions.md) and the invariant every step keeps.
-/

namespace Sys2Proof.Machine

/-- No protocol fault is recorded: "every claim takes 'faults is empty' as a premise" (R215). -/
abbrev State.Clean (s : State) : Prop := s.faults = []

/-- k steps of the machine. -/
def steps : Nat → State → Host.Outcome State Fault Refusal
  | 0, s     => .next s
  | k + 1, s =>
    match step s with
    | .next t    => steps k t
    | .fault r   => .fault r
    | .refused r => .refused r

/-- The address of the register at an offset of the window (R22). -/
def Params.reg (p : Params) (off : Nat) : Word := BitVec.ofNat 32 (p.seqBase + off)

/-- The host's write of v to the register at an offset (`wr` of R85). -/
def State.wr (s : State) (off : Nat) (v : Word) : Turn := .host (.write (s.cfg.reg off) 4 v)

/-- The host's read of the register at an offset (`rd` of R85). -/
def State.rd (s : State) (off : Nat) : Turn := .host (.read (s.cfg.reg off) 4)

/-- The byte every read of address a returns, where it is no draw (R66, R67). -/
def State.settledByte (s : State) (a : Nat) : Option Byte :=
  if s.underOp a then none
  else match s.flash.cell a with
    | .erased => some (s.cfg.erasedRead a)
    | .val b  => some b
    | .indet  => none

/-- The cells of the n bytes at a in m are those f gives, and every other cell is as in m₀. -/
abbrev Memory.ChangedTo (m m₀ : Memory) (a n : Nat) (f : Nat → FlashCell) : Prop :=
  (∀ i < n, m.cell (a + i) = f i) ∧ ∀ x, ¬(a ≤ x ∧ x < a + n) → m.cell x = m₀.cell x

/-- The positions at which a step of command i can stand (R102). -/
def Point.belongsTo (p : Point) (i : Instr) : Bool :=
  match i with
  | .unlock _          => p == .start
  | .lock _            => p == .start
  | .clearFlags        => p == .start
  | .resetBuffer       => p == .start
  | .loadBuffer        => p == .start
  | .wait              => p == .start || p == .wait .final
  | .erasePage         => p == .start || p == .wait .pre || p == .wait .final
  | .programHalfword   => p == .start || p == .wait .pre || p == .wait .final
  | .programWord       => p == .start || p == .wait .pre || p == .wait .final
  | .commitPageFast    => p == .start || p == .wait .pre || p == .wait .final
  | .programPageFast   => p == .start || p == .wait .pre || p == .wait .final
  | .erasePageFast     => p == .start || p == .wait .pre || p == .wait .final
  | .eraseBlock32kFast => p == .start || p == .wait .pre || p == .wait .final
  | .runStandard       =>
    p == .start || p == .stdErase .pre || p == .stdErase .final || p == .stdProgram .pre
      || p == .stdProgram .final
  | .runFast _         =>
    p == .start || p == .fastErase .pre || p == .fastErase .final || p == .fastProgram .pre
      || p == .fastProgram .final || p == .diagPage .pre || p == .diagPage .final
      || p == .diagStd .pre || p == .diagStd .final || p == .diagBlock .pre || p == .diagBlock .final

/-- The domain an orchestrator has open while it stands at p; none for the other positions (R170,
R178). -/
def Point.openDomain : Point → Option Domain
  | .start         => none
  | .wait _        => none
  | .stdErase _    => some .std
  | .stdProgram _  => some .std
  | .fastErase _   => some .fast
  | .fastProgram _ => some .fast
  | .diagPage _    => some .fast
  | .diagStd _     => some .std
  | .diagBlock _   => some .fast

/-- The call of DoFlashOp whose busy-wait command i stands in at position p (R102, R109). -/
def callAt (i : Instr) (p : Point) (s : State) : Option FlashCall :=
  match p with
  | .start         => none
  | .wait _        =>
    match i with
    | .unlock _          => none
    | .lock _            => none
    | .clearFlags        => none
    | .wait              => none
    | .erasePage         => some (erasePageCall s)
    | .programHalfword   => some (programHalfwordCall s)
    | .programWord       => some (programWordCall s)
    | .resetBuffer       => none
    | .loadBuffer        => none
    | .commitPageFast    => some (pageCall s.fastPage s)
    | .programPageFast   => some (pageCall s.fastPage s)
    | .erasePageFast     => some (erasePageFastCall s)
    | .eraseBlock32kFast => some (eraseBlock32kFastCall s)
    | .runStandard       => none
    | .runFast _         => none
  | .stdErase _    => some (stdEraseCall s)
  | .stdProgram _  => some (stdProgramCall s)
  | .fastErase _   => some (blockCall s)
  | .fastProgram _ => some (pageCall (fastRunPage s) s)
  | .diagPage _    => some (diagPageCall s)
  | .diagStd _     => some (diagStdCall s)
  | .diagBlock _   => some (blockCall s)

/-- The domain an operation is issued in: each kind has one (R119 to R121, R144 to R147, R184). -/
def Op.dom : Op → Domain
  | .eraseRange _ _ .page4K   => .std
  | .eraseRange _ _ .fastPage => .fast
  | .eraseRange _ _ .block32K => .fast
  | .program _ _              => .std
  | .pageProgram _ _          => .fast

/-- "at most one of the two is false at any step" (R41). -/
abbrev State.DomainsExclusive (s : State) : Prop := s.lockStd = true ∨ s.lockFast = true

/-- The block can issue an operation of domain d at once: the engine idle, no stale error, the clock
window established, d open and the other domain locked (R105 to R109). -/
structure State.Ready (s : State) (d : Domain) : Prop where
  engine_idle  : s.engine = .idle
  no_pgerr     : s.pgerr = false
  no_wrprterr  : s.wrprterr = false
  clk_safe     : s.clkSafe = true
  domain_open  : s.lock d = false
  other_locked : s.lock d.other = true

/-- The invariant every step keeps, from any state that meets it. -/
structure State.Inv (s : State) : Prop where
  /-- The parameters are as R9 and R61 ask. -/
  cfg_wf          : s.cfg.wf = true
  /-- The flash array is in its canonical form. -/
  flash_wf        : s.flash.wf
  /-- Only cells of the flash window are listed (R40). -/
  flash_inside    : ∀ e ∈ s.flash, s.cfg.inFlash e.1 1 = true
  /-- At most one domain is open (R41). -/
  domains         : s.DomainsExclusive
  /-- The target of an operation in flight lies in the flash window (R104, R109). -/
  target_inside   : ∀ op b, s.engine = .inFlight op b → s.cfg.inFlash op.base op.size = true
  /-- PROTERR is set exactly in the Faulted state (R215, R240). -/
  proterr_faulted : s.proterr = true ↔ s.seq = .faulted
  /-- A Faulted block has both domains locked and a fault on record (R215). -/
  faulted_locked  : s.seq = .faulted → s.lockStd = true ∧ s.lockFast = true ∧ s.faults ≠ []
  /-- RESULT reads Busy while a command runs (R48). -/
  busy_exec       : ∀ i p, s.seq = .exec i p → s.result = .busy
  /-- No command finishes with Busy (R28, D18). -/
  idle_not_busy   : s.seq = .idle → s.result ≠ .busy
  /-- FLASH_STATUS is never Busy. -/
  status_not_busy : s.flashStatus ≠ .busy
  /-- An operation whose clock window was broken is in flight only in the Faulted state (R113). -/
  spoiled_faulted : ∀ op, s.engine = .inFlight op true → s.seq = .faulted
  /-- The position is one of the current command's (R102). -/
  position        : ∀ i p, s.seq = .exec i p → p.belongsTo i = true
  /-- A running orchestrator has its phase's domain open and the other locked (R170, R178). -/
  run_domain      : ∀ i p d, s.seq = .exec i p → p.openDomain = some d →
                      s.lock d = false ∧ s.lock d.other = true
  /-- The address of a call that stands at a poll has passed CheckAddr (R104, R109). -/
  pending_checked : ∀ i p c, s.seq = .exec i p → callAt i p s = some c →
                      addrOk s c.op.base c.op.size c.align = true
  /-- LASTPROG is at most one past the flash window (R36). -/
  last_program    : s.lastProg.toNat ≤ s.cfg.flashEnd

end Sys2Proof.Machine
end

