-- ==== Sys2Proof/Certificates/Slice0/Obligations.lean ====
section
/-!
DEFINITION. The statements for the provers. A state "at the start of" a command is one whose seq is
.exec i .start: the command has been accepted (R100) and has not made its first step (R102). The turns
of a run are read from the model's own `agenda` (log entry 4) and the data of a host read is found in
the model's own `busData` (log entry 11); free values are counted by `draws` (log entry 7). No
statement assumes a value of these fields except the turns it names.
-/

open Sys2Proof Sys2Proof.Machine

/-! ## Encoding -/

/-- R82: the legal set is exactly the eighteen words of the opcode map, each with its command. -/
def Obligations.LegalWordsAreExactlyTheOpcodeMap : Prop :=
  ∀ (w : Word) (i : Instr), decode w = .command i ↔
    (w, i) ∈ ([(0x00000001, .unlock .std), (0x00000101, .unlock .fast), (0x00000002, .lock .std),
      (0x00000102, .lock .fast), (0x00000003, .clearFlags), (0x00000004, .wait),
      (0x00000005, .erasePage), (0x00000006, .programHalfword), (0x00000007, .programWord),
      (0x00000010, .resetBuffer), (0x00000011, .loadBuffer), (0x00000012, .commitPageFast),
      (0x00000013, .programPageFast), (0x00000014, .erasePageFast),
      (0x00000015, .eraseBlock32kFast), (0x00000020, .runStandard),
      (0x00000021, .runFast false), (0x00000221, .runFast true)] : List (Word × Instr))

/-- Every word decodes to a command exactly when it is that command's encoding: no bit of a word is
dropped, and no command has two words. -/
def Obligations.DecodeInvertsEncode : Prop :=
  ∀ (w : Word) (i : Instr), decode w = .command i ↔ encode i = w

/-- R84: which words are illegal, by their fields, and what writing one to CMD does. -/
def Obligations.IllegalWordsOnlySetIllcmd : Prop :=
  (∀ w : Word, (∃ r, decode w = .illegal r) ↔
    (w.toNat / 1024 ≠ 0 ∨ w.toNat % 256 = 0x00 ∨ (0x08 ≤ w.toNat % 256 ∧ w.toNat % 256 ≤ 0x0F) ∨
      (0x16 ≤ w.toNat % 256 ∧ w.toNat % 256 ≤ 0x1F) ∨ 0x22 ≤ w.toNat % 256 ∨
      (w.getLsbD 8 = true ∧ w.toNat % 256 ≠ 0x01 ∧ w.toNat % 256 ≠ 0x02) ∨
      (w.getLsbD 9 = true ∧ w.toNat % 256 ≠ 0x21))) ∧
  ∀ (s : State) (w : Word) (r : Reject) (rest : List Turn), s.cfg.wf = true → s.seq = .idle →
    decode w = .illegal r → s.agenda = s.wr 0x000 w :: rest →
    step s = .next { s with agenda := rest, illcmd := true }

/-- Words written out from R80 and R82, and vectors of section 2 of 95_test_vectors.md. -/
def Obligations.WrittenOutWordsDecode : Prop :=
  decode 0b00000000000000000000000100000001#32 = .command (.unlock .fast) ∧
  decode 0b00000000000000000000000000000010#32 = .command (.lock .std) ∧
  decode 0b00000000000000000000000000000111#32 = .command .programWord ∧
  decode 0b00000000000000000000000000010010#32 = .command .commitPageFast ∧
  decode 0b00000000000000000000000000100000#32 = .command .runStandard ∧
  decode 0b00000000000000000000001000100001#32 = .command (.runFast true) ∧
  decode 0x00000301#32 = .illegal .nodiagNotAllowed ∧
  decode 0x00000103#32 = .illegal .domNotAllowed ∧
  decode 0x80000005#32 = .illegal .reservedBits ∧
  decode 0x00000016#32 = .illegal .reservedOpcode

/-! ## Steps, acceptance and the register window -/

/-- With command i running and the sequencer's turn next, a step is `exec i` on the state with that
turn taken from the agenda: the step adds nothing else. -/
def Obligations.StepRunsTheCurrentCommand : Prop :=
  ∀ (s : State) (i : Instr) (p : Point) (rest : List Turn), s.seq = .exec i p →
    s.agenda = .sequencer :: rest → step s = exec i { s with agenda := rest }

/-- R100: what a host write of w to CMD does where seq_state ≠ Exec, in the host's turn, and that the
sequencer's next step executes the accepted command. -/
def Obligations.CmdWriteAcceptsOrRejects : Prop :=
  ∀ (s : State) (w : Word) (rest : List Turn), s.cfg.wf = true → s.agenda = s.wr 0x000 w :: rest →
    (s.seq = .faulted → step s = .next { s with agenda := rest, ovr := true }) ∧
    (∀ r, s.seq = .idle → decode w = .illegal r →
      step s = .next { s with agenda := rest, illcmd := true }) ∧
    (∀ i, s.seq = .idle → decode w = .command i →
      step s = .next { s with agenda := rest, seq := .exec i .start, result := .busy, polls := 0 } ∧
      ∀ more, rest = .sequencer :: more → ∀ t, exec i
          { s with agenda := more, seq := .exec i .start, result := .busy, polls := 0 } = .next t →
        steps 2 s = .next t)

/-- R101: while a command runs, a host write to any register sets OVR and changes nothing else. -/
def Obligations.WritesDuringACommandAreDropped : Prop :=
  ∀ (s : State) (i : Instr) (p : Point) (off : Nat) (v : Word) (rest : List Turn),
    s.cfg.wf = true → s.seq = .exec i p → off < 0x200 → off % 4 = 0 → s.agenda = s.wr off v :: rest →
    step s = .next { s with agenda := rest, ovr := true }

/-- R23, R25, R31, R38: outside a command, an RW register reads back what the host wrote; PATTERN
keeps [15:0] and reads 0 above. The value read is in `busData`, log entry 11. -/
def Obligations.OperandRegistersReadBack : Prop :=
  ∀ (s : State) (off : Nat) (v : Word) (rest : List Turn), s.cfg.wf = true → s.seqbsy = false →
    (off ∈ [0x004, 0x008, 0x00C, 0x010, 0x014, 0x024, 0x02C, 0x030, 0x034] ∨
      (0x100 ≤ off ∧ off < 0x200 ∧ off % 4 = 0)) →
    s.agenda = s.wr off v :: s.rd off :: rest →
    ∃ t, steps 2 s = .next t ∧ t.agenda = rest ∧ t.flash = s.flash ∧ t.seq = s.seq ∧
      t.busData = if off = 0x034 then v &&& 0x0000FFFF else v

/-- R23, R39: outside a command, a host write to a read-only or reserved offset changes nothing. -/
def Obligations.ReadOnlyRegistersIgnoreWrites : Prop :=
  ∀ (s : State) (off : Nat) (v : Word) (rest : List Turn), s.cfg.wf = true → s.seqbsy = false →
    (off ∈ [0x01C, 0x020, 0x028, 0x038, 0x03C, 0x040, 0x044, 0x048, 0x04C, 0x050, 0x054, 0x058, 0x05C] ∨
      (0x060 ≤ off ∧ off < 0x100 ∧ off % 4 = 0)) →
    s.agenda = s.wr off v :: rest → step s = .next { s with agenda := rest }

/-- R26 to R28, R30, R32 to R37, R39, R48: what every read-only register, STATR, CMD and the reserved
offsets read as. The value read is in `busData`, log entry 11. -/
def Obligations.StatusRegistersReadTheirBits : Prop :=
  ∀ (s t : State) (off : Nat) (rest : List Turn), s.cfg.wf = true →
    s.agenda = s.rd off :: rest → step s = .next t →
    let code (r : OpResult) : Nat := match r with
      | .complete => 0 | .busy => 1 | .programError => 2 | .writeProtectError => 3 | .timedOut => 4
    (off = 0x018 → ∀ k < 32, t.busData.getLsbD k =
      ((k == 0 && s.engine != .idle) || (k == 1 && s.seqbsy) || (k == 2 && s.pgerr) ||
       (k == 4 && s.wrprterr) || (k == 5 && s.eop) || (k == 8 && s.ovr) || (k == 9 && s.illcmd) ||
       (k == 10 && s.proterr))) ∧
    (off = 0x01C → ∀ k < 32, t.busData.getLsbD k =
      ((k == 0 && s.lockStd) || (k == 1 && s.lockFast))) ∧
    (off = 0x020 → t.busData.toNat = code s.result) ∧
    (off = 0x028 → t.busData.toNat = (match s.orchPhase with
      | .idle => 0 | .unlocking => 1 | .erasing => 2 | .programming => 3 | .verifying => 4
      | .locking => 5 | .done => 6 | .diagnostic => 7) + if s.orchKind = .fast then 256 else 0) ∧
    (off = 0x048 → ∀ k < 32, t.busData.getLsbD k =
      ((k == 0 && s.verifyPassed) || (k == 1 && s.verifyFlag))) ∧
    (off = 0x038 → t.busData = s.nbrPage) ∧ (off = 0x03C → t.busData = s.eraseCnt) ∧
    (off = 0x040 → t.busData = s.cursor) ∧ (off = 0x04C → t.busData = s.pageIdx) ∧
    (off = 0x054 → t.busData = s.lastProg) ∧
    (off = 0x044 → t.busData.toNat = code s.flashStatus) ∧
    (off = 0x050 → t.busData.toNat = code s.diagPage + 8 * code s.diagStd + 64 * code s.diagBlock +
      if s.diagRan then 512 else 0) ∧
    (off = 0x058 → ∀ k < 32, t.busData.getLsbD k = s.loaded.getLsbD k) ∧
    (off = 0x05C → ∀ k < 32, t.busData.getLsbD k = s.loaded.getLsbD (32 + k)) ∧
    (off = 0x000 ∨ (0x060 ≤ off ∧ off < 0x100 ∧ off % 4 = 0) → t.busData = 0)

/-- R63: a host read changes no state of the block, or raises F_BUS. (`busData` and `draws` are the
model's own fields, log entries 7 and 11.) -/
def Obligations.HostReadsHaveNoSideEffects : Prop :=
  ∀ (s t : State) (a : Word) (n : Nat) (rest : List Turn), s.agenda = .host (.read a n) :: rest →
    step s = .next t →
    t = { s with agenda := rest, busData := t.busData, draws := t.draws } ∨
    t = raiseFault .bus { s with agenda := rest }

/-- R114: a host write of v to STATR outside a command clears the W1C bits that are 1 in v; during one
it is dropped, with OVR (R101). -/
def Obligations.StatrWriteClearsOnes : Prop :=
  ∀ (s : State) (v : Word) (rest : List Turn), s.cfg.wf = true → s.agenda = s.wr 0x018 v :: rest →
    (s.seqbsy = false → step s = .next { s with
      agenda   := rest
      pgerr    := if v.getLsbD 2 then false else s.pgerr
      wrprterr := if v.getLsbD 4 then false else s.wrprterr
      eop      := if v.getLsbD 5 then false else s.eop
      ovr      := if v.getLsbD 8 then false else s.ovr
      illcmd   := if v.getLsbD 9 then false else s.illcmd }) ∧
    (s.seqbsy = true → step s = .next { s with agenda := rest, ovr := true })

/-! ## Reads of the array -/

/-- R63, R65, R66: a legal host read of n bytes, none of them a draw, is little-endian. -/
def Obligations.FlashReadsAreLittleEndian : Prop :=
  ∀ (s : State) (a : Word) (n : Nat) (b : Nat → Byte) (rest : List Turn),
    s.agenda = .host (.read a n) :: rest → n ∈ [1, 2, 4] → a.toNat % n = 0 →
    s.cfg.inWindow a.toNat = false → s.cfg.flashBase ≤ a.toNat → a.toNat + n ≤ s.cfg.flashEnd →
    (∀ i < n, s.settledByte (a.toNat + i) = some (b i)) →
    ∃ v : Word, step s = .next { s with agenda := rest, busData := v } ∧
      v.toNat < 256 ^ n ∧ ∀ i < n, wordByte v i = b i

/-- R66, R67: a byte of an erased cell reads ERASED_READ, a programmed one its value, and a byte of an
Indet cell or of the target of an operation in flight reads a fresh draw. The draw is a free value:
the statement says which one is taken and that it is used up, not what it is. -/
def Obligations.ByteReadsFollowTheCell : Prop :=
  ∀ (s : State) (a : Word) (rest : List Turn), s.agenda = .host (.read a 1) :: rest →
    s.cfg.inWindow a.toNat = false → s.cfg.flashBase ≤ a.toNat → a.toNat < s.cfg.flashEnd →
    let under := ∃ op b, s.engine = .inFlight op b ∧ op.base ≤ a.toNat ∧ a.toNat < op.base + op.size
    (¬under → s.flash.cell a.toNat = .erased → step s =
      .next { s with agenda := rest, busData := (s.cfg.erasedRead a.toNat).zeroExtend 32 }) ∧
    (∀ v, ¬under → s.flash.cell a.toNat = .val v → step s =
      .next { s with agenda := rest, busData := v.zeroExtend 32 }) ∧
    (under ∨ s.flash.cell a.toNat = .indet → step s = .next { s with
      agenda := rest, busData := (Config.draw s.draws).zeroExtend 32, draws := s.draws + 1 })

/-! ## Protocol faults and reset -/

/-- R64, R215, R216: a host write into the flash window raises F_FLASHWR, and fault entry is exactly
this next state. -/
def Obligations.HostFlashWriteTakesTheFault : Prop :=
  ∀ (s : State) (a : Word) (n : Nat) (v : Word) (rest : List Turn),
    s.agenda = .host (.write a n v) :: rest → s.cfg.inWindow a.toNat = false →
    s.cfg.flashBase ≤ a.toNat → a.toNat < s.cfg.flashEnd →
    step s = .next { s with
      agenda := rest, faults := s.faults ++ [.flashWrite], proterr := true, lockStd := true,
      lockFast := true, seq := .faulted }

/-- R63, R64, R69: a register access that is not 32-bit aligned, and a flash read of a bad width,
misaligned or past the window, raise F_BUS. -/
def Obligations.BadHostAccessesRaiseBusFault : Prop :=
  ∀ (s : State) (a : Word) (n : Nat) (rest : List Turn),
    (s.cfg.seqBase ≤ a.toNat → a.toNat < s.cfg.seqBase + 0x200 → n ≠ 4 ∨ a.toNat % 4 ≠ 0 →
      (s.agenda = .host (.read a n) :: rest →
        step s = .next (raiseFault .bus { s with agenda := rest })) ∧
      ∀ v, s.agenda = .host (.write a n v) :: rest →
        step s = .next (raiseFault .bus { s with agenda := rest })) ∧
    (s.cfg.inWindow a.toNat = false → s.cfg.flashBase ≤ a.toNat → a.toNat < s.cfg.flashEnd →
      n ∉ [1, 2, 4] ∨ a.toNat % n ≠ 0 ∨ s.cfg.flashEnd < a.toNat + n →
      s.agenda = .host (.read a n) :: rest →
      step s = .next (raiseFault .bus { s with agenda := rest }))

/-- R220, R240: the Faulted state is left by no step but the system reset. -/
def Obligations.OnlyResetLeavesFaulted : Prop :=
  ∀ s t : State, s.seq = .faulted → step s = .next t →
    t.seq = .faulted ∨ ∃ rest, s.agenda = .reset :: rest

/-- R45: every step keeps the fault record, reset included, and only appends to it; and no step
changes the parameters (R20: they "are parameters, not state"). -/
def Obligations.FaultRecordOnlyGrows : Prop :=
  ∀ s t : State, step s = .next t → s.faults <+: t.faults ∧ t.cfg = s.cfg

/-- R240, R241: the reset event leaves every register and internal element at its value of R241, keeps
the fault record and leaves CLK_SAFE to the host. SRCBUF is unspecified: no word counts as written. -/
def Obligations.ResetGivesTheResetValues : Prop :=
  ∀ (s : State) (rest : List Turn), s.agenda = .reset :: rest → ∃ t, step s = .next t ∧
    t.seq = .idle ∧ t.lockStd = true ∧ t.lockFast = true ∧ t.engine = .idle ∧ t.statr = 0 ∧
    t.result = .complete ∧ t.addr = 0 ∧ t.data0 = 0 ∧ t.data1 = 0 ∧ t.data2 = 0 ∧ t.data3 = 0 ∧
    t.timeout = 0 ∧ t.startAddr = 0 ∧ t.endAddr = 0 ∧ t.pattern = 0 ∧ t.orch = 0 ∧ t.nbrPage = 0 ∧
    t.eraseCnt = 0 ∧ t.cursor = 0 ∧ t.flashStatus = .complete ∧ t.pageIdx = 0 ∧ t.verify = 0 ∧
    t.diag = 0 ∧ t.lastProg = 0 ∧ (∀ j < 64, bufWord t.pbuf j = 0xFFFFFFFF) ∧ t.loaded = 0 ∧
    t.srcWritten = 0 ∧ t.polls = 0 ∧ t.faults = s.faults ∧ t.clkSafe = s.clkSafe ∧
    regRead t 0x000 = 0 ∧ (s.engine = .idle → t.flash = s.flash) ∧ t.cfg = s.cfg ∧ t.agenda = rest

/-- R242, R243: reset changes no cell, except that the target of an operation in flight becomes
Indet; the engine is then idle. -/
def Obligations.ResetKeepsTheArray : Prop :=
  ∀ (s : State) (rest : List Turn), s.agenda = .reset :: rest → ∃ t, step s = .next t ∧
    t.engine = .idle ∧ (s.engine = .idle → t.flash = s.flash) ∧
    ∀ op b, s.engine = .inFlight op b →
      t.flash.ChangedTo s.flash op.base op.size fun _ => .indet

/-! ## The engine -/

/-- R111: the completion of an erase, and what the erased bytes read as then. A standard page index is
(x − FLASH_BASE) / PAGE_SIZE (R10). -/
def Obligations.EraseCompletesByItsOutcome : Prop :=
  ∀ (s : State) (base size : Nat) (kind : EraseKind) (rest : List Turn),
    s.engine = .inFlight (.eraseRange base size kind) false → s.agenda = .engine :: rest →
    s.cfg.flashBase ≤ base →
    let protectedPage := ∃ x, base ≤ x ∧ x < base + size ∧ (x - s.cfg.flashBase) / 4096 ∈ s.cfg.wp
    let fails := (Op.eraseRange base size kind).kind
    (protectedPage → step s = .next { s with agenda := rest, engine := .idle, wrprterr := true }) ∧
    (¬protectedPage → (fails, base) ∈ s.cfg.fails → ∃ m, step s =
        .next { s with agenda := rest, engine := .idle, pgerr := true, flash := m } ∧
      m.ChangedTo s.flash base size fun _ => .indet) ∧
    (¬protectedPage → (fails, base) ∉ s.cfg.fails → ∃ m, step s =
        .next { s with agenda := rest, engine := .idle, eop := true, flash := m } ∧
      (m.ChangedTo s.flash base size fun _ => .erased) ∧
      ∀ k, ∀ x, base ≤ x → x < base + size →
        byteRead { s with agenda := rest, engine := .idle, eop := true, flash := m } k x =
          (s.cfg.erasedRead x, k))

/-- R112: the completion of a program of bytes B at a, and of a page program, whose bytes are
B[4j + k] = W[j][8k+7:8k]. -/
def Obligations.ProgramCompletesByItsOutcome : Prop :=
  ∀ (s : State) (op : Op) (a : Nat) (B : List Byte) (kind : OpKind) (rest : List Turn),
    s.engine = .inFlight op false → s.agenda = .engine :: rest → s.cfg.flashBase ≤ a →
    ((op = .program a B ∧ kind = .prog) ∨
      (∃ W : Vector Word 64, op = .pageProgram a W ∧ kind = .pageProg ∧ B.length = 256 ∧
        ∀ j < 64, ∀ k < 4, B[4 * j + k]? = some ((bufWord W j).extractLsb' (8 * k) 8))) →
    let protectedPage := ∃ x, a ≤ x ∧ x < a + B.length ∧ (x - s.cfg.flashBase) / 4096 ∈ s.cfg.wp
    let allErased := ∀ i < B.length, s.flash.cell (a + i) = .erased
    (protectedPage → step s = .next { s with agenda := rest, engine := .idle, wrprterr := true }) ∧
    (¬protectedPage → ¬allErased ∨ (kind, a) ∈ s.cfg.fails → ∃ m, step s =
        .next { s with agenda := rest, engine := .idle, pgerr := true, flash := m } ∧
      m.ChangedTo s.flash a B.length fun _ => .indet) ∧
    (¬protectedPage → allErased → (kind, a) ∉ s.cfg.fails → ∃ m, step s =
        .next { s with agenda := rest, engine := .idle, eop := true, flash := m } ∧
      m.ChangedTo s.flash a B.length fun i => .val (B[i]?.getD 0))

/-- R44, R113: driving CLK_SAFE to 0 while an operation is in flight raises F_CLK in that step, and
the operation then completes with PGERR and an Indet target, whatever its parameters. Any other move of
CLK_SAFE, to 1 or with the engine idle, sets the input and changes nothing else. -/
def Obligations.ClockFallSpoilsTheOperation : Prop :=
  (∀ (s : State) (v : Bool) (rest : List Turn), s.agenda = .host (.clk v) :: rest →
    v = true ∨ s.engine = .idle → step s = .next { s with agenda := rest, clkSafe := v }) ∧
  ∀ (s : State) (op : Op) (b : Bool) (rest : List Turn), s.engine = .inFlight op b →
    s.agenda = .host (.clk false) :: .engine :: rest →
    step s = .next { s with
      agenda := .engine :: rest, clkSafe := false, engine := .inFlight op true,
      faults := s.faults ++ [.clk], proterr := true, lockStd := true, lockFast := true,
      seq := .faulted } ∧
    ∃ t, steps 2 s = .next t ∧ t.engine = .idle ∧ t.pgerr = true ∧ t.eop = s.eop ∧
      t.wrprterr = s.wrprterr ∧ t.flash.ChangedTo s.flash op.base op.size fun _ => .indet

/-- R123: from every state with an operation in flight, a step leaves that operation in flight or the
engine idle: no operation is issued while BSY = 1. And the conditions of an issue (R105, R109, R140,
R217): a step of any agent and any command that takes the engine from idle to an operation leaves
CLK_SAFE 1, PGERR and WRPRTERR clear, the operation's domain open and the other one locked. -/
def Obligations.NoOperationIssuedWhileBusy : Prop :=
  (∀ (s t : State) (op : Op) (b : Bool), s.engine = .inFlight op b → step s = .next t →
    t.engine = .idle ∨ ∃ b', t.engine = .inFlight op b') ∧
  ∀ (s t : State) (op : Op) (b : Bool), s.engine = .idle → step s = .next t →
    t.engine = .inFlight op b →
    b = false ∧ t.clkSafe = true ∧ t.pgerr = false ∧ t.wrprterr = false ∧
      t.lock op.dom = false ∧ t.lock op.dom.other = true

/-! ## Controller commands -/

/-- R115: UNLOCK, for both domains and in every state. -/
def Obligations.UnlockOpensItsDomain : Prop :=
  encode (.unlock .std) = 0x00000001 ∧ encode (.unlock .fast) = 0x00000101 ∧
  ∀ s : State,
    (s.lockFast = false → exec (.unlock .std) s = .next (raiseFault .unlockOther s)) ∧
    (s.lockFast = true → exec (.unlock .std) s = .next { s with
      lockStd := false, lastProg := if s.lockStd then 0 else s.lastProg,
      result := .complete, seq := .idle }) ∧
    (s.lockStd = false → exec (.unlock .fast) s = .next (raiseFault .unlockOther s)) ∧
    (s.lockStd = true → exec (.unlock .fast) s = .next { s with
      lockFast := false, result := .complete, seq := .idle })

/-- R116: LOCK, for both domains and in every state. -/
def Obligations.LockClosesItsDomain : Prop :=
  encode (.lock .std) = 0x00000002 ∧ encode (.lock .fast) = 0x00000102 ∧
  ∀ s : State,
    exec (.lock .std) s = .next { s with lockStd := true, result := .complete, seq := .idle } ∧
    exec (.lock .fast) s = .next { s with lockFast := true, result := .complete, seq := .idle }

/-- R117: CLEAR_FLAGS, in every state. -/
def Obligations.ClearFlagsClearsThree : Prop :=
  encode .clearFlags = 0x00000003 ∧ ∀ s : State, exec .clearFlags s = .next { s with
    eop := false, pgerr := false, wrprterr := false, result := .complete, seq := .idle }

/-- R106, R107, R118: WAIT from its start and from a poll: the monitor's result where the engine is
idle, TimedOut at the bound, else one more poll. -/
def Obligations.WaitPollsUntilIdleOrBound : Prop :=
  encode .wait = 0x00000004 ∧ ∀ s : State,
    let flags := if s.pgerr then OpResult.programError
      else if s.wrprterr then .writeProtectError else .complete
    (s.seq = .exec .wait .start → s.engine = .idle →
      exec .wait s = .next { s with polls := 0, result := flags, seq := .idle }) ∧
    (s.seq = .exec .wait .start → s.engine ≠ .idle →
      exec .wait s = .next { s with polls := 1, seq := .exec .wait (.wait .final) }) ∧
    (s.seq = .exec .wait (.wait .final) → s.engine = .idle →
      exec .wait s = .next { s with result := flags, seq := .idle }) ∧
    (s.seq = .exec .wait (.wait .final) → s.engine ≠ .idle → s.timeout ≠ 0 → s.polls = s.timeout →
      exec .wait s = .next { s with result := .timedOut, seq := .idle }) ∧
    (s.seq = .exec .wait (.wait .final) → s.engine ≠ .idle → ¬(s.timeout ≠ 0 ∧ s.polls = s.timeout) →
      exec .wait s = .next { s with polls := s.polls + 1 })

/-- R119: at its start, on a block ready in the Standard domain, ERASE_PAGE of an aligned page in the
window issues the erase, resets LASTPROG and stands at its first poll. -/
def Obligations.ErasePageIssuesItsErase : Prop :=
  ∀ s : State, s.seq = .exec .erasePage .start → s.Ready .std → s.addr.toNat % 4096 = 0 →
    s.cfg.flashBase ≤ s.addr.toNat → s.addr.toNat + 4096 ≤ s.cfg.flashEnd →
    exec .erasePage s = .next { s with
      engine   := .inFlight (.eraseRange s.addr.toNat 4096 .page4K) false
      lastProg := 0
      polls    := 1
      seq      := .exec .erasePage (.wait .final) }

/-- R120, R122: PROGRAM_HALFWORD issues DATA0[15:0], low byte first, at an even address not below
LASTPROG, and LASTPROG becomes one past it. -/
def Obligations.ProgramHalfwordIssuesItsBytes : Prop :=
  ∀ s : State, s.seq = .exec .programHalfword .start → s.Ready .std → s.addr.toNat % 2 = 0 →
    s.cfg.flashBase ≤ s.addr.toNat → s.addr.toNat + 2 ≤ s.cfg.flashEnd →
    s.lastProg.toNat ≤ s.addr.toNat →
    exec .programHalfword s = .next { s with
      engine   := .inFlight (.program s.addr.toNat
        [s.data0.extractLsb' 0 8, s.data0.extractLsb' 8 8]) false
      lastProg := BitVec.ofNat 32 (s.addr.toNat + 2)
      polls    := 1
      seq      := .exec .programHalfword (.wait .final) }

/-- R121, R122: PROGRAM_WORD issues DATA0, lowest byte first, as one operation. -/
def Obligations.ProgramWordIssuesItsBytes : Prop :=
  ∀ s : State, s.seq = .exec .programWord .start → s.Ready .std → s.addr.toNat % 4 = 0 →
    s.cfg.flashBase ≤ s.addr.toNat → s.addr.toNat + 4 ≤ s.cfg.flashEnd →
    s.lastProg.toNat ≤ s.addr.toNat →
    exec .programWord s = .next { s with
      engine   := .inFlight (.program s.addr.toNat [s.data0.extractLsb' 0 8,
        s.data0.extractLsb' 8 8, s.data0.extractLsb' 16 8, s.data0.extractLsb' 24 8]) false
      lastProg := BitVec.ofNat 32 (s.addr.toNat + 4)
      polls    := 1
      seq      := .exec .programWord (.wait .final) }

/-- R104 to R109, R217: the five commands that are one DoFlashOp, from their start in every state: the
checks in their order, and what each leaves. `c` is the call of the command (R119 to R121, R146,
R147). -/
def Obligations.FlashCommandChecksInOrder : Prop :=
  ∀ (s : State) (i : Instr) (c : FlashCall),
    i ∈ [.erasePage, .programHalfword, .programWord, .erasePageFast, .eraseBlock32kFast] →
    s.seq = .exec i .start → callAt i (.wait .pre) s = some c →
    exec i s = .next (
      if ¬(c.op.base % c.align = 0 ∧ s.cfg.flashBase ≤ c.op.base ∧
          c.op.base + c.op.size ≤ s.cfg.flashEnd) then raiseFault .addr s
      else if s.engine ≠ .idle then { s with polls := 1, seq := .exec i (.wait .pre) }
      else if s.pgerr then { s with polls := 0, result := .programError, seq := .idle }
      else if s.wrprterr then { s with polls := 0, result := .writeProtectError, seq := .idle }
      else if s.clkSafe = false then raiseFault .clk { s with polls := 0 }
      else if s.lockStd = false ∧ s.lockFast = false then raiseFault .both { s with polls := 0 }
      else if s.lock c.dom then
        { s with polls := 0, wrprterr := true, result := .writeProtectError, seq := .idle }
      else if outOfOrder c s then raiseFault .order { s with polls := 0 }
      else { issue c s with polls := 1, seq := .exec i (.wait .final) })

/-- R105, R107, R109, R122, R217: every erase and program command at a poll of its pre-wait or its final
wait, in every state: TimedOut at the bound, one more poll while the engine is busy, the monitor's
result after the final wait, a stale error returned after the pre-wait, and after a clean pre-wait the
remaining checks in their order and the issue. -/
def Obligations.FlashCommandsGoOnFromTheirPolls : Prop :=
  ∀ (s : State) (i : Instr) (w : WaitKind) (c : FlashCall),
    i ∈ [.erasePage, .programHalfword, .programWord, .commitPageFast, .programPageFast,
      .erasePageFast, .eraseBlock32kFast] →
    s.seq = .exec i (.wait w) → callAt i (.wait w) s = some c →
    let flags := if s.pgerr then OpResult.programError
      else if s.wrprterr then .writeProtectError else .complete
    (s.engine ≠ .idle → s.timeout ≠ 0 → s.polls = s.timeout →
      exec i s = .next { s with result := .timedOut, seq := .idle }) ∧
    (s.engine ≠ .idle → ¬(s.timeout ≠ 0 ∧ s.polls = s.timeout) →
      exec i s = .next { s with polls := s.polls + 1 }) ∧
    (s.engine = .idle → w = .final ∨ flags ≠ .complete →
      exec i s = .next { s with result := flags, seq := .idle }) ∧
    (w = .pre → s.engine = .idle → flags = .complete → exec i s = .next (
      if s.clkSafe = false then raiseFault .clk s
      else if s.lockStd = false ∧ s.lockFast = false then raiseFault .both s
      else if s.lock c.dom then
        { s with wrprterr := true, result := .writeProtectError, seq := .idle }
      else if outOfOrder c s then raiseFault .order s
      else { issue c s with polls := 1, seq := .exec i (.wait .final) }))

/-- R110, R111, R119, R146, R147: the three erase commands, run by the sequencer, the engine and the
sequencer again: exactly their target is Erased, EOP is set, RESULT is Complete. -/
def Obligations.EraseCommandsEraseTheirTarget : Prop :=
  ∀ (s : State) (i : Instr) (d : Domain) (n : Nat) (kind : EraseKind) (rest : List Turn),
    (i, d, n, kind) ∈ [(Instr.erasePage, Domain.std, 4096, EraseKind.page4K),
      (.erasePageFast, .fast, 256, .fastPage), (.eraseBlock32kFast, .fast, 32768, .block32K)] →
    s.seq = .exec i .start → s.Ready d → s.addr.toNat % n = 0 →
    s.cfg.flashBase ≤ s.addr.toNat → s.addr.toNat + n ≤ s.cfg.flashEnd →
    s.cfg.protects s.addr.toNat n = false →
    s.cfg.failing (Op.eraseRange s.addr.toNat n kind).kind s.addr.toNat = false →
    s.agenda = .sequencer :: .engine :: .sequencer :: rest →
    ∃ m, steps 3 s = .next { s with
        agenda := rest, seq := .idle, result := .complete, eop := true, lastProg := 0, polls := 1,
        flash := m } ∧
      m.ChangedTo s.flash s.addr.toNat n fun _ => .erased

/-- R110, R112, R120, R121: the two standard program commands on erased cells, run the same way. -/
def Obligations.ProgramCommandsWriteTheirBytes : Prop :=
  ∀ (s : State) (i : Instr) (n : Nat) (rest : List Turn),
    (i, n) ∈ [(Instr.programHalfword, 2), (.programWord, 4)] →
    s.seq = .exec i .start → s.Ready .std → s.addr.toNat % n = 0 →
    s.cfg.flashBase ≤ s.addr.toNat → s.addr.toNat + n ≤ s.cfg.flashEnd → s.cfg.flashEnd < 2 ^ 32 →
    s.lastProg.toNat ≤ s.addr.toNat → (∀ k < n, s.flash.cell (s.addr.toNat + k) = .erased) →
    s.cfg.protects s.addr.toNat n = false → s.cfg.failing .prog s.addr.toNat = false →
    s.agenda = .sequencer :: .engine :: .sequencer :: rest →
    ∃ m, steps 3 s = .next { s with
        agenda := rest, seq := .idle, result := .complete, eop := true,
        lastProg := BitVec.ofNat 32 (s.addr.toNat + n), polls := 1, flash := m } ∧
      m.ChangedTo s.flash s.addr.toNat n fun k => .val (s.data0.extractLsb' (8 * k) 8)

/-- R107, R251: with TIMEOUT = 1, an erase whose engine is slower than the first poll returns TimedOut
with the engine busy, and the page is erased all the same when the engine completes. -/
def Obligations.TimedOutDoesNotCancelTheErase : Prop :=
  ∀ (s : State) (rest : List Turn), s.seq = .exec .erasePage .start → s.Ready .std →
    s.timeout = 1 → s.addr.toNat % 4096 = 0 → s.cfg.flashBase ≤ s.addr.toNat →
    s.addr.toNat + 4096 ≤ s.cfg.flashEnd → s.cfg.protects s.addr.toNat 4096 = false →
    s.cfg.failing .page4K s.addr.toNat = false →
    s.agenda = .sequencer :: .sequencer :: .engine :: rest →
    (∃ t, steps 2 s = .next t ∧ t.seq = .idle ∧ t.result = .timedOut ∧ t.bsy = true ∧
      t.flash = s.flash) ∧
    ∃ t, steps 3 s = .next t ∧ t.seq = .idle ∧ t.result = .timedOut ∧ t.bsy = false ∧
      t.eop = true ∧ t.flash.ChangedTo s.flash s.addr.toNat 4096 fun _ => .erased

/-- R124(d): UNLOCK.STD; ERASE_PAGE A; PROGRAM_HALFWORD A, V; LOCK.STD, with the host reading only
after SEQBSY = 0 and BSY = 0, leaves A reading V and both domains locked. -/
def Obligations.EraseThenProgramReadsBack : Prop :=
  ∀ (s : State) (a v : Word) (rest : List Turn), s.cfg.wf = true → s.seq = .idle →
    s.engine = .idle → s.pgerr = false → s.wrprterr = false → s.clkSafe = true →
    s.lockStd = true → s.lockFast = true → s.cfg.inWindow a.toNat = false → a.toNat % 4096 = 0 →
    s.cfg.flashBase ≤ a.toNat → a.toNat + 4096 ≤ s.cfg.flashEnd →
    s.cfg.protects a.toNat 4096 = false → s.cfg.failing .page4K a.toNat = false →
    s.cfg.failing .prog a.toNat = false →
    s.agenda = s.wr 0x000 0x00000001 :: .sequencer :: s.wr 0x004 a :: s.wr 0x000 0x00000005 ::
      .sequencer :: .engine :: .sequencer :: s.wr 0x008 v :: s.wr 0x000 0x00000006 ::
      .sequencer :: .engine :: .sequencer :: s.wr 0x000 0x00000002 :: .sequencer ::
      .host (.read a 2) :: rest →
    ∃ t, steps 15 s = .next t ∧ t.busData = v &&& 0x0000FFFF ∧ t.result = .complete ∧
      t.lockStd = true ∧ t.lockFast = true ∧ t.faults = s.faults ∧ t.agenda = rest

/-! ## Fast-mode path -/

/-- R140, R141, R142: RESET_BUFFER, in every state. -/
def Obligations.ResetBufferUnloadsEveryWord : Prop :=
  encode .resetBuffer = 0x00000010 ∧ ∀ s : State,
    (s.lockFast = true → exec .resetBuffer s = .next { s with
      wrprterr := true, result := .writeProtectError, seq := .idle }) ∧
    (s.lockFast = false → ∃ b, exec .resetBuffer s = .next { s with
        pbuf := b, loaded := 0, result := .complete, seq := .idle } ∧
      ∀ j < 64, bufWord b j = 0xFFFFFFFF)

/-- R141, R143: LOAD_BUFFER, in every state: F_ADDR first, then the gate, then four words and their
loaded bits, and no other word or bit. -/
def Obligations.LoadBufferLoadsFourWords : Prop :=
  encode .loadBuffer = 0x00000011 ∧ ∀ s : State,
    let ok := s.addr.toNat % 16 = 0 ∧ s.cfg.flashBase ≤ s.addr.toNat ∧
      s.addr.toNat + 16 ≤ s.cfg.flashEnd
    let j0 := s.addr.toNat / 4 % 64
    (¬ok → exec .loadBuffer s = .next (raiseFault .addr s)) ∧
    (ok → s.lockFast = true → exec .loadBuffer s = .next { s with
      wrprterr := true, result := .writeProtectError, seq := .idle }) ∧
    (ok → s.lockFast = false → ∃ b l, exec .loadBuffer s = .next { s with
        pbuf := b, loaded := l, result := .complete, seq := .idle } ∧
      bufWord b j0 = s.data0 ∧ bufWord b (j0 + 1) = s.data1 ∧ bufWord b (j0 + 2) = s.data2 ∧
      bufWord b (j0 + 3) = s.data3 ∧
      (∀ j, ¬(j0 ≤ j ∧ j < j0 + 4) → bufWord b j = bufWord s.pbuf j) ∧
      ∀ j < 64, l.getLsbD j = (s.loaded.getLsbD j || decide (j0 ≤ j ∧ j < j0 + 4)))

/-- R140, R144, R217: COMMIT_PAGE_FAST from its start, in every state: the checks in their order, and
what each leaves. The page is the one that contains ADDR. Only the issue clears the loaded bits. -/
def Obligations.CommitIssuesTheLoadedBuffer : Prop :=
  ∀ s : State, s.seq = .exec .commitPageFast .start →
    let p := s.addr.toNat - s.addr.toNat % 256
    exec .commitPageFast s = .next (
      if ¬(s.cfg.flashBase ≤ p ∧ p + 256 ≤ s.cfg.flashEnd) then raiseFault .addr s
      else if s.loaded ≠ BitVec.allOnes 64 then raiseFault .buf s
      else if s.engine ≠ .idle then { s with polls := 1, seq := .exec .commitPageFast (.wait .pre) }
      else if s.pgerr then { s with polls := 0, result := .programError, seq := .idle }
      else if s.wrprterr then { s with polls := 0, result := .writeProtectError, seq := .idle }
      else if s.clkSafe = false then raiseFault .clk { s with polls := 0 }
      else if s.lockStd = false ∧ s.lockFast = false then raiseFault .both { s with polls := 0 }
      else if s.lockFast then
        { s with polls := 0, wrprterr := true, result := .writeProtectError, seq := .idle }
      else { s with
        engine := .inFlight (.pageProgram p s.pbuf) false
        loaded := 0
        polls  := 1
        seq    := .exec .commitPageFast (.wait .final) })

/-- R140, R145, R217: PROGRAM_PAGE_FAST from its start, in every state: F_ADDR, then the locked domain,
which leaves the buffer alone, then PBUF becomes SRCBUF with every word loaded, then the checks of the
commit. The page is the one that contains ADDR. A SRCBUF word nothing has written holds a draw, about
which nothing is said (log entry 8). -/
def Obligations.ProgramPageFastIssuesTheSource : Prop :=
  ∀ s : State, s.seq = .exec .programPageFast .start →
    let p := s.addr.toNat - s.addr.toNat % 256
    ∃ (b : Vector Word 64) (k : Nat),
      (∀ j < 64, s.srcWritten.getLsbD j = true → bufWord b j = bufWord s.srcbuf j) ∧
      let f : State := { s with pbuf := b, loaded := BitVec.allOnes 64, draws := k, polls := 0 }
      exec .programPageFast s = .next (
        if ¬(s.cfg.flashBase ≤ p ∧ p + 256 ≤ s.cfg.flashEnd) then raiseFault .addr s
        else if s.lockFast then
          { s with wrprterr := true, result := .writeProtectError, seq := .idle }
        else if s.engine ≠ .idle then { f with polls := 1, seq := .exec .programPageFast (.wait .pre) }
        else if s.pgerr then { f with result := .programError, seq := .idle }
        else if s.wrprterr then { f with result := .writeProtectError, seq := .idle }
        else if s.clkSafe = false then raiseFault .clk f
        else if s.lockStd = false then raiseFault .both f
        else { f with
          engine := .inFlight (.pageProgram p b) false
          loaded := 0
          polls  := 1
          seq    := .exec .programPageFast (.wait .final) })

/-- R146, R147: the two fast erases issue their range on a block ready in the Fast domain. -/
def Obligations.FastErasesIssueTheirRange : Prop :=
  ∀ (s : State) (i : Instr) (n : Nat) (kind : EraseKind),
    (i, n, kind) ∈ [(Instr.erasePageFast, 256, EraseKind.fastPage),
      (.eraseBlock32kFast, 32768, .block32K)] →
    s.seq = .exec i .start → s.Ready .fast → s.addr.toNat % n = 0 →
    s.cfg.flashBase ≤ s.addr.toNat → s.addr.toNat + n ≤ s.cfg.flashEnd →
    exec i s = .next { s with
      engine   := .inFlight (.eraseRange s.addr.toNat n kind) false
      lastProg := 0
      polls    := 1
      seq      := .exec i (.wait .final) }

/-- R144, R145, R148: the two page commits on an erased fast page, run by the sequencer, the engine and
the sequencer again: a word read of p + 4·j returns word j. -/
def Obligations.PageCommitsWriteSixtyFourWords : Prop :=
  ∀ (s : State) (i : Instr) (W : Vector Word 64) (p : Nat) (rest : List Turn),
    s.seq = .exec i .start → s.Ready .fast → p = s.addr.toNat - s.addr.toNat % 256 →
    ((i = .commitPageFast ∧ s.loaded = BitVec.allOnes 64 ∧ W = s.pbuf) ∨
      (i = .programPageFast ∧ s.srcWritten = BitVec.allOnes 64 ∧ W = s.srcbuf)) →
    s.cfg.flashBase ≤ p → p + 256 ≤ s.cfg.flashEnd → (∀ k < 256, s.flash.cell (p + k) = .erased) →
    s.cfg.protects p 256 = false → s.cfg.failing .pageProg p = false →
    s.agenda = .sequencer :: .engine :: .sequencer :: rest →
    ∃ t, steps 3 s = .next t ∧ t.seq = .idle ∧ t.result = .complete ∧ t.eop = true ∧
      t.loaded = 0 ∧ t.lastProg = s.lastProg ∧
      t.flash.ChangedTo s.flash p 256 (fun k => .val (wordByte (bufWord W (k / 4)) (k % 4))) ∧
      ∀ j < 64, ∀ k, (arrRead t k (p + 4 * j) 4).1 = bufWord W j

/-! ## Frames -/

/-- R25 and the frame of every command: no step of a command writes an operand register, a cell, the
clock input, OVR or ILLCMD; and every byte that is under no operation reads as before. Over steps (R64,
R70, R110, R242): a host or sequencer turn changes no cell, and any step that changes one is the reset
or the completion of the operation in flight. -/
def Obligations.CommandsKeepOperandsAndCells : Prop :=
  (∀ (s t : State) (x : Turn) (rest : List Turn), s.agenda = x :: rest →
    x = .sequencer ∨ (∃ a, x = .host a) → step s = .next t → t.flash = s.flash) ∧
  (∀ s t : State, step s = .next t → t.flash ≠ s.flash →
    (∃ rest, s.agenda = .reset :: rest) ∨ (s.engine ≠ .idle ∧ t.engine = .idle)) ∧
  ∀ (i : Instr) (s t : State), exec i s = .next t →
    t.addr = s.addr ∧ t.data0 = s.data0 ∧ t.data1 = s.data1 ∧ t.data2 = s.data2 ∧
    t.data3 = s.data3 ∧ t.timeout = s.timeout ∧ t.startAddr = s.startAddr ∧
    t.endAddr = s.endAddr ∧ t.pattern = s.pattern ∧ t.ovr = s.ovr ∧ t.illcmd = s.illcmd ∧
    t.clkSafe = s.clkSafe ∧ t.cfg = s.cfg ∧ t.agenda = s.agenda ∧ t.busData = s.busData ∧
    t.flash = s.flash ∧
    ∀ x k, s.underOp x = false → t.underOp x = false → byteRead t k x = byteRead s k x

/-- R30, R32 to R35, R38: a command other than RUN_STANDARD and RUN_FAST changes no orchestrator
register and no SRCBUF word. -/
def Obligations.PrimitivesKeepOrchestratorRegisters : Prop :=
  ∀ (i : Instr) (s t : State), i ≠ .runStandard → (∀ n, i ≠ .runFast n) → exec i s = .next t →
    t.orchPhase = s.orchPhase ∧ t.orchKind = s.orchKind ∧ t.nbrPage = s.nbrPage ∧
    t.eraseCnt = s.eraseCnt ∧ t.cursor = s.cursor ∧ t.flashStatus = s.flashStatus ∧
    t.verifyPassed = s.verifyPassed ∧ t.verifyFlag = s.verifyFlag ∧ t.pageIdx = s.pageIdx ∧
    t.diagPage = s.diagPage ∧ t.diagStd = s.diagStd ∧ t.diagBlock = s.diagBlock ∧
    t.diagRan = s.diagRan ∧ t.srcbuf = s.srcbuf ∧ t.srcWritten = s.srcWritten

/-- The frame of WAIT and the erase and program commands, in every step that raises no fault: the lock
domains, EOP, PGERR and PROTERR are unchanged, WRPRTERR is at most set, the page buffer changes only
in PROGRAM_PAGE_FAST, the loaded bits only in the two page commits, LASTPROG only in a step that
issues, and the engine only from idle to the command's own operation: that of its call, or for
PROGRAM_PAGE_FAST the program of the buffer as it stands after the step. WAIT keeps the engine. -/
def Obligations.FlashCommandFrame : Prop :=
  ∀ (i : Instr) (s t : State),
    i ∈ [.wait, .erasePage, .programHalfword, .programWord, .commitPageFast, .programPageFast,
      .erasePageFast, .eraseBlock32kFast] →
    exec i s = .next t → t.faults = s.faults →
    t.lockStd = s.lockStd ∧ t.lockFast = s.lockFast ∧ t.eop = s.eop ∧ t.pgerr = s.pgerr ∧
    t.proterr = s.proterr ∧ (t.wrprterr = s.wrprterr ∨ t.wrprterr = true) ∧
    (i ≠ .programPageFast → t.pbuf = s.pbuf ∧ t.draws = s.draws) ∧
    (i ≠ .programPageFast → i ≠ .commitPageFast → t.loaded = s.loaded) ∧
    (t.engine = s.engine → t.lastProg = s.lastProg) ∧
    (i = .wait → t.engine = s.engine) ∧
    (t.engine = s.engine ∨ (s.engine = .idle ∧
      ((i ≠ .programPageFast ∧ ∃ c, callAt i (.wait .pre) s = some c ∧
          t.engine = .inFlight c.op false) ∨
        (i = .programPageFast ∧ t.engine = .inFlight (.pageProgram s.fastPage t.pbuf) false))))

/-! ## Orchestrators -/

/-- R171, R172, R216: the entry of RUN_STANDARD: F_RANGE before everything, then F_UNLOCK_OTHER. -/
def Obligations.RunStandardChecksItsRange : Prop :=
  ∀ s : State, s.seq = .exec .runStandard .start →
    let S := s.startAddr.toNat
    let E := s.endAddr.toNat
    let ok := S ≤ E ∧ S % 4096 = 0 ∧ s.cfg.flashBase ≤ S ∧
      S + (E - S + 4095) / 4096 * 4096 ≤ s.cfg.flashEnd
    (¬ok → exec .runStandard s = .next (raiseFault .range { s with orchKind := .standard })) ∧
    (ok → s.lockFast = false → exec .runStandard s = .next
      (raiseFault .unlockOther { s with orchKind := .standard, orchPhase := .unlocking }))

/-- R173: with END = START there is no erase, no program and an empty verify that passes; the whole
run is one step. -/
def Obligations.RunStandardOfNothingPasses : Prop :=
  ∀ s : State, s.seq = .exec .runStandard .start → s.endAddr = s.startAddr →
    s.startAddr.toNat % 4096 = 0 → s.cfg.flashBase ≤ s.startAddr.toNat →
    s.startAddr.toNat ≤ s.cfg.flashEnd → s.lockFast = true →
    exec .runStandard s = .next { s with
      orchKind := .standard, orchPhase := .done, eop := false, pgerr := false, wrprterr := false,
      nbrPage := 0, eraseCnt := 0, flashStatus := .complete, cursor := s.startAddr,
      verifyPassed := true, lockStd := true, lastProg := if s.lockStd then 0 else s.lastProg,
      result := .complete, seq := .idle }

/-- R170, R172 to R174: with END > START, on an idle engine, the first step of RUN_STANDARD unlocks,
clears the flags, counts the pages and issues the erase of the first one. -/
def Obligations.RunStandardBeginsErasing : Prop :=
  ∀ s : State, s.seq = .exec .runStandard .start → s.engine = .idle → s.clkSafe = true →
    s.lockFast = true →
    let S := s.startAddr.toNat
    let E := s.endAddr.toNat
    S < E → S % 4096 = 0 → s.cfg.flashBase ≤ S →
    S + (E - S + 4095) / 4096 * 4096 ≤ s.cfg.flashEnd →
    exec .runStandard s = .next { s with
      orchKind := .standard, orchPhase := .erasing, eop := false, pgerr := false, wrprterr := false,
      lockStd := false, nbrPage := BitVec.ofNat 32 ((E - S + 4095) / 4096), eraseCnt := 0,
      flashStatus := .complete, lastProg := 0, polls := 1,
      engine := .inFlight (.eraseRange S 4096 .page4K) false,
      seq := .exec .runStandard (.stdErase .final) }

/-- R170 to R177, R187(a): RUN_STANDARD whole, the engine completing each operation before the next
sequencer step, with no protected or failing page: every half-word of the range holds PATTERN, the
rest of the last page is Erased, the verdict is Passed, both domains are locked. -/
def Obligations.RunStandardProgramsAndVerifies : Prop :=
  ∀ (s : State) (rest : List Turn), s.seq = .exec .runStandard .start → s.engine = .idle →
    s.clkSafe = true → s.lockFast = true → s.cfg.flashEnd < 2 ^ 32 →
    let S := s.startAddr.toNat
    let E := s.endAddr.toNat
    let N := (E - S + 4095) / 4096
    let M := (E - S + 1) / 2
    S ≤ E → S % 4096 = 0 → s.cfg.flashBase ≤ S → S + 4096 * N ≤ s.cfg.flashEnd →
    s.cfg.protects S (4096 * N) = false →
    (∀ i < N, s.cfg.failing .page4K (S + 4096 * i) = false) →
    (∀ j < M, s.cfg.failing .prog (S + 2 * j) = false) →
    s.agenda = .sequencer ::
      ((List.replicate (N + M) [Turn.engine, Turn.sequencer]).flatten ++ rest) →
    ∃ t, steps (1 + 2 * (N + M)) s = .next t ∧ t.seq = .idle ∧ t.result = .complete ∧
      t.flashStatus = .complete ∧ t.verifyPassed = true ∧ t.orchPhase = .done ∧
      t.orchKind = .standard ∧ t.lockStd = true ∧ t.lockFast = true ∧ t.engine = .idle ∧
      t.nbrPage = BitVec.ofNat 32 N ∧ t.eraseCnt = BitVec.ofNat 32 N ∧
      t.cursor = BitVec.ofNat 32 (S + 2 * M) ∧ t.pgerr = false ∧ t.wrprterr = false ∧
      t.faults = s.faults ∧ t.agenda = rest ∧
      t.flash.ChangedTo s.flash S (4096 * N) fun k =>
        if k < 2 * M then .val (s.pattern.extractLsb' (8 * (k % 2)) 8) else .erased

/-- R174, R175, 90_conflicts.md C2: the first erase or program of RUN_STANDARD that does not return
Complete ends its loop: a stale or new flag with the engine idle, or TimedOut at the bound with the
engine busy, at either wait. After an erase it is counted and the programming phase is entered with
CURSOR = START and makes no write; after a program CURSOR is one half-word past it. The same step goes
on to the verify phase (`stdVerify`) and ends the run with the failing result, the engine, LASTPROG and
the cells as they were. -/
def Obligations.FailedEraseStartsNoProgramming : Prop :=
  ∀ (s : State) (p : Point) (w : WaitKind) (r : OpResult), s.seq = .exec .runStandard p →
    (s.engine = .idle ∧ ((s.pgerr = true ∧ r = .programError) ∨
        (s.pgerr = false ∧ s.wrprterr = true ∧ r = .writeProtectError))) ∨
      (s.engine ≠ .idle ∧ s.timeout ≠ 0 ∧ s.polls = s.timeout ∧ r = .timedOut) →
    let ended := fun t : State => t.seq = .idle ∧ t.orchPhase = .done ∧ t.result = r ∧
      t.flashStatus = r ∧ t.engine = s.engine ∧ t.flash = s.flash ∧ t.lastProg = s.lastProg ∧
      t.lockStd = true ∧ t.lockFast = s.lockFast ∧ t.faults = s.faults ∧ t.nbrPage = s.nbrPage
    (p = .stdErase w → ∃ t, exec .runStandard s = .next t ∧ ended t ∧ t.eraseCnt = s.eraseCnt + 1 ∧
      t = stdVerify { s with
        flashStatus := r, eraseCnt := s.eraseCnt + 1, orchPhase := .programming,
        cursor := s.startAddr }) ∧
    (p = .stdProgram w → ∃ t, exec .runStandard s = .next t ∧ ended t ∧ t.eraseCnt = s.eraseCnt ∧
      t = stdVerify { s with flashStatus := r, cursor := s.cursor + 2 })

/-- R176: the verdict of RUN_STANDARD is the read-back, and CURSOR stops one half-word past the first
mismatch. Stated of the step that ends the last program, where no byte of the range reads a draw. -/
def Obligations.StandardVerdictIsTheReadback : Prop :=
  ∀ s : State, s.seq = .exec .runStandard (.stdProgram .final) → s.engine = .idle →
    s.cursor.toNat + 2 < 2 ^ 32 → s.endAddr.toNat ≤ s.cursor.toNat + 2 →
    let S := s.startAddr.toNat
    let n := (s.endAddr.toNat - S + 1) / 2
    let reads := fun (i : Nat) => s.settledByte (S + 2 * i) = some (s.pattern.extractLsb' 0 8) ∧
      s.settledByte (S + 2 * i + 1) = some (s.pattern.extractLsb' 8 8)
    (∀ x, S ≤ x → x < S + 2 * n → s.settledByte x ≠ none) →
    ∃ t, exec .runStandard s = .next t ∧ t.seq = .idle ∧ t.orchPhase = .done ∧
      (t.verifyPassed = true ↔ ∀ i < n, reads i) ∧
      ((∀ i < n, reads i) → t.cursor = BitVec.ofNat 32 (S + 2 * n)) ∧
      ∀ i < n, (∀ j < i, reads j) → ¬reads i → t.cursor = BitVec.ofNat 32 (S + 2 * (i + 1))

/-- R178, R179, R216: the entry of RUN_FAST: KIND and DIAG are written, then F_RANGE, then
F_UNLOCK_OTHER. -/
def Obligations.RunFastChecksItsBlock : Prop :=
  ∀ (s : State) (nodiag : Bool), s.seq = .exec (.runFast nodiag) .start →
    let ok := s.startAddr.toNat % 32768 = 0 ∧ s.cfg.flashBase ≤ s.startAddr.toNat ∧
      s.startAddr.toNat + 32768 ≤ s.cfg.flashEnd
    (¬ok → exec (.runFast nodiag) s = .next (raiseFault .range { s with
      orchKind := .fast, diagPage := .complete, diagStd := .complete, diagBlock := .complete,
      diagRan := false })) ∧
    (ok → s.lockStd = false → exec (.runFast nodiag) s = .next (raiseFault .unlockOther { s with
      orchKind := .fast, diagPage := .complete, diagStd := .complete, diagBlock := .complete,
      diagRan := false, orchPhase := .unlocking }))

/-- R178, R180, R181: on an idle engine, the first step of RUN_FAST unlocks, clears the flags, writes
SRCBUF[j] = j and issues the block erase. -/
def Obligations.RunFastBeginsErasing : Prop :=
  ∀ (s : State) (nodiag : Bool), s.seq = .exec (.runFast nodiag) .start → s.engine = .idle →
    s.clkSafe = true → s.lockStd = true → s.startAddr.toNat % 32768 = 0 →
    s.cfg.flashBase ≤ s.startAddr.toNat → s.startAddr.toNat + 32768 ≤ s.cfg.flashEnd →
    ∃ b, exec (.runFast nodiag) s = .next { s with
        orchKind := .fast, diagPage := .complete, diagStd := .complete, diagBlock := .complete,
        diagRan := false, orchPhase := .erasing, eop := false, pgerr := false, wrprterr := false,
        lockFast := false, srcbuf := b, srcWritten := BitVec.allOnes 64, lastProg := 0, polls := 1,
        engine := .inFlight (.eraseRange s.startAddr.toNat 32768 .block32K) false,
        seq := .exec (.runFast nodiag) (.fastErase .final) } ∧
      ∀ j < 64, bufWord b j = BitVec.ofNat 32 j

/-- R178 to R185, R188: RUN_FAST whole, with and without the diagnostic phase, the engine completing
each operation before the next sequencer step, with no protected or failing target. -/
def Obligations.RunFastProgramsAndVerifies : Prop :=
  ∀ (s : State) (nodiag : Bool) (rest : List Turn), s.seq = .exec (.runFast nodiag) .start →
    s.engine = .idle → s.clkSafe = true → s.lockStd = true → s.cfg.flashEnd < 2 ^ 32 →
    let S := s.startAddr.toNat
    let K := if nodiag then 129 else 132
    S % 32768 = 0 → s.cfg.flashBase ≤ S → S + 32768 ≤ s.cfg.flashEnd →
    s.cfg.protects S 32768 = false → s.cfg.failing .block32K S = false →
    s.cfg.failing .fastPage S = false → s.cfg.failing .page4K S = false →
    (∀ i < 128, s.cfg.failing .pageProg (S + 256 * i) = false) →
    s.agenda = .sequencer :: ((List.replicate K [Turn.engine, Turn.sequencer]).flatten ++ rest) →
    ∃ t, steps (1 + 2 * K) s = .next t ∧ t.seq = .idle ∧ t.result = .complete ∧
      t.flashStatus = .complete ∧ t.verifyFlag = true ∧ t.verifyPassed = s.verifyPassed ∧
      t.pageIdx = 127 ∧ t.cursor = BitVec.ofNat 32 (S + 32764) ∧ t.orchPhase = .done ∧
      t.orchKind = .fast ∧ t.diagRan = !nodiag ∧ t.diagPage = .complete ∧ t.diagStd = .complete ∧
      t.diagBlock = .complete ∧ t.lockStd = true ∧ t.lockFast = true ∧ t.engine = .idle ∧
      t.faults = s.faults ∧ t.agenda = rest ∧ t.loaded = 0 ∧
      (∀ j < 64, bufWord t.srcbuf j = BitVec.ofNat 32 j) ∧
      t.flash.ChangedTo s.flash S 32768 fun k =>
        if nodiag then .val (wordByte (BitVec.ofNat 32 (k / 4 % 64)) (k % 4)) else .erased

/-- R182 to R185: the step that ends RUN_FAST's programming: the block erase failed, a page failed, or
page 127 is done. The same step verifies, and FLAG is the last page's read-back alone, PAGE_IDX ends at
127, FLASH_STATUS is the result. Stated where no byte of the block reads a draw. With NODIAG the step
ends the run. Without, it enters the diagnostic phase, on the block of R179 with Fast open: a stale
error is what every diagnostic erase returns, and the run ends; on a clean block the erase of the fast
page at START is put in flight. -/
def Obligations.FastVerdictIsTheLastPage : Prop :=
  ∀ (s : State) (nodiag : Bool) (p : Point) (r : OpResult), s.seq = .exec (.runFast nodiag) p →
    s.engine = .idle →
    r = (if s.pgerr then .programError else if s.wrprterr then .writeProtectError else .complete) →
    (p = .fastErase .final ∧ r ≠ .complete) ∨
      (p = .fastProgram .final ∧ (r ≠ .complete ∨ s.pageIdx = 127)) →
    let S := s.startAddr.toNat
    (∀ x, S ≤ x → x < S + 32768 → s.settledByte x ≠ none) →
    ∃ t, exec (.runFast nodiag) s = .next t ∧ t.flashStatus = r ∧ t.pageIdx = 127 ∧
      t.flash = s.flash ∧
      (t.verifyFlag = true ↔ ∀ j < 64, ∀ k < 4,
        s.settledByte (S + 256 * 127 + 4 * j + k) = some (wordByte (BitVec.ofNat 32 j) k)) ∧
      (t.verifyFlag = true → t.cursor = BitVec.ofNat 32 (S + 32764)) ∧
      (nodiag = true → t.seq = .idle ∧ t.orchPhase = .done ∧ t.result = r ∧ t.engine = .idle ∧
        t.lockFast = true ∧ t.lockStd = s.lockStd ∧ t.diagPage = s.diagPage ∧
        t.diagStd = s.diagStd ∧ t.diagBlock = s.diagBlock ∧ t.diagRan = s.diagRan) ∧
      (nodiag = false → S % 32768 = 0 → s.cfg.flashBase ≤ S → S + 32768 ≤ s.cfg.flashEnd →
        s.lockStd = true → s.lockFast = false →
        (r ≠ .complete → t.seq = .idle ∧ t.orchPhase = .done ∧ t.result = r ∧ t.engine = .idle ∧
          t.diagPage = r ∧ t.diagStd = r ∧ t.diagBlock = r ∧ t.diagRan = true ∧
          t.lockStd = true ∧ t.lockFast = true) ∧
        (r = .complete → s.clkSafe = true →
          t.seq = .exec (.runFast false) (.diagPage .final) ∧ t.orchPhase = .diagnostic ∧
          t.engine = .inFlight (.eraseRange S 256 .fastPage) false ∧ t.diagRan = s.diagRan))

/-- R186: every step of an orchestrator that ends its run, by finish or by a fault, leaves both domains
locked. -/
def Obligations.OrchestratorsLeaveDomainsLocked : Prop :=
  ∀ (s t : State) (i : Instr) (p : Point), s.Inv → s.seq = .exec i p →
    (i = .runStandard ∨ ∃ n, i = .runFast n) → exec i s = .next t →
    t.seq = .idle ∨ t.seq = .faulted → t.lockStd = true ∧ t.lockFast = true

/-! ## Invariants -/

/-- The invariant of Safety.lean is kept by every step, from every state that meets it: the canonical
form of the array, the exclusive lock domains (R41), the legal target of an operation in flight, the
Faulted state's consequences (R215), Busy (R48), the command's position, LASTPROG. -/
def Obligations.StepKeepsTheInvariant : Prop :=
  ∀ s t : State, s.Inv → step s = .next t → t.Inv

/-- The invariant holds after reset. -/
def Obligations.ResetMeetsTheInvariant : Prop := State.reset.Inv

/-- R41: from every state that meets the invariant, at most one domain is open after any number of
steps. -/
def Obligations.AtMostOneDomainIsEverOpen : Prop :=
  ∀ (k : Nat) (s t : State), s.Inv → steps k s = .next t → t.lockStd = true ∨ t.lockFast = true
end

