-- ==== Sys2Proof/Laws/Memory.lean ====
section
/-!
SUPPORT. Laws of the flash array: the canonical form is kept, a write is read back and leaves every
other cell alone, and equal arrays are equal data.
-/

namespace Sys2Proof.Machine

@[simp] theorem Memory.cell_nil (a : Nat) : Memory.cell [] a = Memory.unlisted := rfl

theorem Memory.cell_cons (e : Nat × FlashCell) (m : Memory) (a : Nat) :
    Memory.cell (e :: m) a = if e.1 = a then e.2 else m.cell a := by
  by_cases h : e.1 = a <;> simp [Memory.cell, h]

theorem Memory.cell_append (m n : Memory) (a : Nat) :
    Memory.cell (m ++ n) a = if ∃ e ∈ m, e.1 = a then m.cell a else n.cell a := by
  induction m with
  | nil => simp
  | cons e m ih =>
    rw [List.cons_append, Memory.cell_cons, Memory.cell_cons, ih]
    by_cases h : e.1 = a
    · rw [if_pos h, if_pos ⟨e, by simp, h⟩, if_pos h]
    · rw [if_neg h, if_neg h]
      exact if_congr (by simp [h]) rfl rfl

/-- An address with no entry holds the unlisted cell. -/
theorem Memory.cell_of_absent {m : Memory} {a : Nat} (h : ∀ e ∈ m, e.1 ≠ a) :
    m.cell a = Memory.unlisted := by
  induction m with
  | nil => rfl
  | cons e m ih =>
    rw [Memory.cell_cons, if_neg (h e (by simp)), ih fun x hx => h x (by simp [hx])]

/-- A filter that keeps every entry of an address keeps its cell. -/
theorem Memory.cell_filter_keep {m : Memory} {p : Nat × FlashCell → Bool} {a : Nat}
    (h : ∀ e ∈ m, e.1 = a → p e = true) : Memory.cell (m.filter p) a = m.cell a := by
  induction m with
  | nil => rfl
  | cons e m ih =>
    have ih' := ih fun x hx => h x (by simp [hx])
    by_cases hp : p e = true
    · rw [List.filter_cons_of_pos hp, Memory.cell_cons, Memory.cell_cons, ih']
    · rw [List.filter_cons_of_neg hp, Memory.cell_cons, ih', if_neg]
      exact fun ha => hp (h e (by simp) ha)

theorem Memory.listed_bounds {cs : List FlashCell} {a : Nat} :
    ∀ e ∈ Memory.listed a cs, a ≤ e.1 ∧ e.1 < a + cs.length := by
  induction cs generalizing a with
  | nil => simp [Memory.listed]
  | cons c cs ih =>
    intro e he
    simp only [Memory.listed] at he
    split at he
    · have := ih e he; simp; omega
    · rcases List.mem_cons.1 he with rfl | he
      · simp
      · have := ih e he; simp; omega

theorem Memory.cell_listed (cs : List FlashCell) (a x : Nat) :
    Memory.cell (Memory.listed a cs) x
      = if a ≤ x ∧ x < a + cs.length then cs[x - a]?.getD .indet else .indet := by
  induction cs generalizing a with
  | nil => simp [Memory.listed]
  | cons c cs ih =>
    have key : Memory.cell (Memory.listed a (c :: cs)) x
        = if x = a then c else Memory.cell (Memory.listed (a + 1) cs) x := by
      simp only [Memory.listed]
      by_cases hc : c = Memory.unlisted
      · rw [if_pos hc]
        split
        · next hx =>
          rw [ih, if_neg (by omega), hc]
        · rfl
      · rw [if_neg hc, Memory.cell_cons]
        simp [eq_comm]
    rw [key, ih]
    rcases Nat.lt_trichotomy x a with h | h | h
    · rw [if_neg (by omega), if_neg (by omega), if_neg (by omega)]
    · subst h; simp
    · obtain ⟨d, rfl⟩ : ∃ d, x = a + 1 + d := ⟨x - (a + 1), by omega⟩
      have h1 : a + 1 + d - (a + 1) = d := by omega
      have h2 : a + 1 + d - a = d + 1 := by omega
      rw [if_neg (by omega), h1, h2]
      simp only [List.length_cons, List.getElem?_cons_succ]
      split <;> split <;> first | rfl | omega

/-- A write is read back, and leaves every other cell alone. -/
theorem Memory.cell_write (m : Memory) (a x : Nat) (cs : List FlashCell) :
    (m.write a cs).cell x
      = if a ≤ x ∧ x < a + cs.length then cs[x - a]?.getD .indet else m.cell x := by
  unfold Memory.write
  rw [Memory.cell_append, Memory.cell_append]
  by_cases h : a ≤ x ∧ x < a + cs.length
  · have hl : ¬∃ e ∈ m.filter (fun e => decide (e.1 < a)), e.1 = x := by
      rintro ⟨e, he, rfl⟩; simp at he; omega
    have hr : Memory.cell (m.filter (fun e => decide (a + cs.length ≤ e.1))) x = .indet :=
      Memory.cell_of_absent fun e he hx => by simp at he; omega
    rw [if_neg hl, hr, Memory.cell_listed, if_pos h]
    split
    · rfl
    · next hno =>
      have h1 : Memory.cell (Memory.listed a cs) x = .indet :=
        Memory.cell_of_absent fun e he hx =>
          hno ⟨e, List.mem_append.2 (Or.inr he), hx⟩
      rw [Memory.cell_listed, if_pos h] at h1
      exact h1.symm
  · rw [if_neg h]
    rcases Nat.lt_or_ge x a with hx | hx
    · have hkeep : Memory.cell (m.filter (fun e => decide (e.1 < a))) x = m.cell x :=
        Memory.cell_filter_keep fun e _ he => by simp; omega
      have hm : Memory.cell (Memory.listed a cs) x = .indet := by
        rw [Memory.cell_listed, if_neg h]
      have hr : Memory.cell (m.filter (fun e => decide (a + cs.length ≤ e.1))) x = .indet :=
        Memory.cell_of_absent fun e he hx' => by simp at he; omega
      by_cases hl : ∃ e ∈ m.filter (fun e => decide (e.1 < a)), e.1 = x
      · rw [if_pos hl, if_pos, hkeep]
        obtain ⟨e, he, hx'⟩ := hl
        exact ⟨e, List.mem_append.2 (Or.inl he), hx'⟩
      · rw [if_neg hl, hm, hr, ite_self]
        rw [← hkeep, Memory.cell_of_absent]
        exact fun e he hx' => hl ⟨e, he, hx'⟩
    · rw [if_neg, Memory.cell_filter_keep]
      · intro e _ he; simp; omega
      · rintro ⟨e, he, rfl⟩
        rcases List.mem_append.1 he with he | he
        · simp at he; omega
        · exact h ⟨(Memory.listed_bounds e he).1, (Memory.listed_bounds e he).2⟩

theorem Memory.cell_write_inside {m : Memory} {a x : Nat} {cs : List FlashCell}
    (h : a ≤ x ∧ x < a + cs.length) : (m.write a cs).cell x = cs[x - a]?.getD .indet := by
  rw [Memory.cell_write, if_pos h]

theorem Memory.cell_write_outside {m : Memory} {a x : Nat} {cs : List FlashCell}
    (h : ¬(a ≤ x ∧ x < a + cs.length)) : (m.write a cs).cell x = m.cell x := by
  rw [Memory.cell_write, if_neg h]

/-- Every entry of a written array stood there before or lies in the written run. -/
theorem Memory.mem_write {m : Memory} {a : Nat} {cs : List FlashCell} {e : Nat × FlashCell}
    (h : e ∈ m.write a cs) : e ∈ m ∨ (a ≤ e.1 ∧ e.1 < a + cs.length) := by
  simp only [Memory.write, List.mem_append, List.mem_filter] at h
  rcases h with (⟨h, _⟩ | h) | ⟨h, _⟩
  · exact .inl h
  · exact .inr (Memory.listed_bounds e h)
  · exact .inl h

theorem Memory.listed_wf (a : Nat) (cs : List FlashCell) : (Memory.listed a cs).wf := by
  induction cs generalizing a with
  | nil => exact ⟨.nil, by simp [Memory.listed]⟩
  | cons c cs ih =>
    simp only [Memory.listed]
    split
    · exact ih _
    · next hc =>
      refine ⟨List.pairwise_cons.2 ⟨fun e he => ?_, (ih _).1⟩, fun e he => ?_⟩
      · have := Memory.listed_bounds e he; simp; omega
      · rcases List.mem_cons.1 he with rfl | he
        · exact hc
        · exact (ih _).2 e he

/-- Every write keeps the canonical form. -/
theorem Memory.write_wf {m : Memory} (h : m.wf) (a : Nat) (cs : List FlashCell) :
    (m.write a cs).wf := by
  have hl := Memory.listed_wf a cs
  constructor
  · refine List.pairwise_append.2 ⟨List.pairwise_append.2 ⟨h.1.filter _, hl.1, ?_⟩,
      h.1.filter _, ?_⟩
    · intro x hx y hy
      have := (Memory.listed_bounds y hy).1
      simp at hx; omega
    · intro x hx y hy
      simp at hy
      rcases List.mem_append.1 hx with hx | hx
      · simp at hx; omega
      · have := (Memory.listed_bounds x hx).2; omega
  · intro e he
    simp only [Memory.write, List.mem_append, List.mem_filter] at he
    rcases he with (⟨he, _⟩ | he) | ⟨he, _⟩
    · exact h.2 e he
    · exact hl.2 e he
    · exact h.2 e he

theorem Memory.cell_of_mem {m : Memory} (h : m.wf) {e : Nat × FlashCell} (he : e ∈ m) :
    m.cell e.1 = e.2 := by
  induction m with
  | nil => simp at he
  | cons d m ih =>
    rw [Memory.cell_cons]
    have hp := List.pairwise_cons.1 h.1
    rcases List.mem_cons.1 he with rfl | he
    · simp
    · rw [if_neg (by have := hp.1 e he; omega)]
      exact ih ⟨hp.2, fun x hx => h.2 x (by simp [hx])⟩ he

/-- Two canonical arrays with the same cells are the same data. -/
theorem Memory.ext_of_wf {m n : Memory} (hm : m.wf) (hn : n.wf) (h : ∀ a, m.cell a = n.cell a) :
    m = n := by
  induction m generalizing n with
  | nil =>
    cases n with
    | nil => rfl
    | cons e n =>
      have := h e.1
      rw [Memory.cell_of_mem hn (by simp), Memory.cell_nil] at this
      exact absurd this.symm (hn.2 e (by simp))
  | cons d m ih =>
    have hd := h d.1
    rw [Memory.cell_of_mem hm (by simp)] at hd
    cases n with
    | nil => exact absurd hd (hm.2 d (by simp))
    | cons e n =>
      have pm := List.pairwise_cons.1 hm.1
      have pn := List.pairwise_cons.1 hn.1
      have he := h e.1
      rw [Memory.cell_of_mem hn (by simp)] at he
      have absent : ∀ {k : Memory} {x : Nat}, (∀ y ∈ k, x < y.1) → k.cell x = .indet :=
        fun hk => Memory.cell_of_absent fun y hy => by have := hk y hy; omega
      have hfst : d.1 = e.1 := by
        rcases Nat.lt_trichotomy d.1 e.1 with hlt | heq | hlt
        · rw [absent (k := e :: n) (fun y hy => by
            rcases List.mem_cons.1 hy with rfl | hy
            · exact hlt
            · have := pn.1 y hy; omega)] at hd
          exact absurd hd (hm.2 d (by simp))
        · exact heq
        · rw [absent (k := d :: m) (fun y hy => by
            rcases List.mem_cons.1 hy with rfl | hy
            · exact hlt
            · have := pm.1 y hy; omega)] at he
          exact absurd he.symm (hn.2 e (by simp))
      have hsnd : d.2 = e.2 := by
        rw [hd, hfst, Memory.cell_of_mem hn (by simp)]
      have hde : d = e := Prod.ext hfst hsnd
      subst hde
      congr 1
      refine ih ⟨pm.2, fun x hx => hm.2 x (by simp [hx])⟩
        ⟨pn.2, fun x hx => hn.2 x (by simp [hx])⟩ fun a => ?_
      by_cases ha : d.1 = a
      · subst ha
        rw [absent pm.1, absent pn.1]
      · have := h a
        rwa [Memory.cell_cons, Memory.cell_cons, if_neg ha, if_neg ha] at this

/-- What the check of R112 says. -/
theorem Memory.allErased_iff (m : Memory) (a n : Nat) :
    m.allErased a n = true ↔ ∀ i < n, m.cell (a + i) = .erased := by
  simp [Memory.allErased]

end Sys2Proof.Machine
end

