-- ==== Sys2Proof/Laws/State.lean ====
section
/-!
SUPPORT. What each update of State leaves in each field: one lemma per field and update, true by rfl.
-/

namespace Sys2Proof.Machine

variable (s : State)


@[simp] theorem raiseFault_addr (r : FaultReason) : (raiseFault r s).addr = s.addr := rfl
@[simp] theorem raiseFault_data0 (r : FaultReason) : (raiseFault r s).data0 = s.data0 := rfl
@[simp] theorem raiseFault_data1 (r : FaultReason) : (raiseFault r s).data1 = s.data1 := rfl
@[simp] theorem raiseFault_data2 (r : FaultReason) : (raiseFault r s).data2 = s.data2 := rfl
@[simp] theorem raiseFault_data3 (r : FaultReason) : (raiseFault r s).data3 = s.data3 := rfl
@[simp] theorem raiseFault_timeout (r : FaultReason) : (raiseFault r s).timeout = s.timeout := rfl
@[simp] theorem raiseFault_startAddr (r : FaultReason) : (raiseFault r s).startAddr = s.startAddr := rfl
@[simp] theorem raiseFault_endAddr (r : FaultReason) : (raiseFault r s).endAddr = s.endAddr := rfl
@[simp] theorem raiseFault_pattern (r : FaultReason) : (raiseFault r s).pattern = s.pattern := rfl
@[simp] theorem raiseFault_pgerr (r : FaultReason) : (raiseFault r s).pgerr = s.pgerr := rfl
@[simp] theorem raiseFault_wrprterr (r : FaultReason) : (raiseFault r s).wrprterr = s.wrprterr := rfl
@[simp] theorem raiseFault_eop (r : FaultReason) : (raiseFault r s).eop = s.eop := rfl
@[simp] theorem raiseFault_ovr (r : FaultReason) : (raiseFault r s).ovr = s.ovr := rfl
@[simp] theorem raiseFault_illcmd (r : FaultReason) : (raiseFault r s).illcmd = s.illcmd := rfl
@[simp] theorem raiseFault_proterr (r : FaultReason) : (raiseFault r s).proterr = true := rfl
@[simp] theorem raiseFault_lockStd (r : FaultReason) : (raiseFault r s).lockStd = true := rfl
@[simp] theorem raiseFault_lockFast (r : FaultReason) : (raiseFault r s).lockFast = true := rfl
@[simp] theorem raiseFault_result (r : FaultReason) : (raiseFault r s).result = s.result := rfl
@[simp] theorem raiseFault_orchPhase (r : FaultReason) : (raiseFault r s).orchPhase = s.orchPhase := rfl
@[simp] theorem raiseFault_orchKind (r : FaultReason) : (raiseFault r s).orchKind = s.orchKind := rfl
@[simp] theorem raiseFault_nbrPage (r : FaultReason) : (raiseFault r s).nbrPage = s.nbrPage := rfl
@[simp] theorem raiseFault_eraseCnt (r : FaultReason) : (raiseFault r s).eraseCnt = s.eraseCnt := rfl
@[simp] theorem raiseFault_cursor (r : FaultReason) : (raiseFault r s).cursor = s.cursor := rfl
@[simp] theorem raiseFault_flashStatus (r : FaultReason) : (raiseFault r s).flashStatus = s.flashStatus := rfl
@[simp] theorem raiseFault_verifyPassed (r : FaultReason) : (raiseFault r s).verifyPassed = s.verifyPassed := rfl
@[simp] theorem raiseFault_verifyFlag (r : FaultReason) : (raiseFault r s).verifyFlag = s.verifyFlag := rfl
@[simp] theorem raiseFault_pageIdx (r : FaultReason) : (raiseFault r s).pageIdx = s.pageIdx := rfl
@[simp] theorem raiseFault_diagPage (r : FaultReason) : (raiseFault r s).diagPage = s.diagPage := rfl
@[simp] theorem raiseFault_diagStd (r : FaultReason) : (raiseFault r s).diagStd = s.diagStd := rfl
@[simp] theorem raiseFault_diagBlock (r : FaultReason) : (raiseFault r s).diagBlock = s.diagBlock := rfl
@[simp] theorem raiseFault_diagRan (r : FaultReason) : (raiseFault r s).diagRan = s.diagRan := rfl
@[simp] theorem raiseFault_lastProg (r : FaultReason) : (raiseFault r s).lastProg = s.lastProg := rfl
@[simp] theorem raiseFault_srcbuf (r : FaultReason) : (raiseFault r s).srcbuf = s.srcbuf := rfl
@[simp] theorem raiseFault_srcWritten (r : FaultReason) : (raiseFault r s).srcWritten = s.srcWritten := rfl
@[simp] theorem raiseFault_pbuf (r : FaultReason) : (raiseFault r s).pbuf = s.pbuf := rfl
@[simp] theorem raiseFault_loaded (r : FaultReason) : (raiseFault r s).loaded = s.loaded := rfl
@[simp] theorem raiseFault_seq (r : FaultReason) : (raiseFault r s).seq = .faulted := rfl
@[simp] theorem raiseFault_polls (r : FaultReason) : (raiseFault r s).polls = s.polls := rfl
@[simp] theorem raiseFault_engine (r : FaultReason) : (raiseFault r s).engine = s.engine := rfl
@[simp] theorem raiseFault_flash (r : FaultReason) : (raiseFault r s).flash = s.flash := rfl
@[simp] theorem raiseFault_clkSafe (r : FaultReason) : (raiseFault r s).clkSafe = s.clkSafe := rfl
@[simp] theorem raiseFault_faults (r : FaultReason) : (raiseFault r s).faults = s.faults ++ [r] := rfl
@[simp] theorem raiseFault_cfg (r : FaultReason) : (raiseFault r s).cfg = s.cfg := rfl
@[simp] theorem raiseFault_agenda (r : FaultReason) : (raiseFault r s).agenda = s.agenda := rfl
@[simp] theorem raiseFault_draws (r : FaultReason) : (raiseFault r s).draws = s.draws := rfl
@[simp] theorem raiseFault_busData (r : FaultReason) : (raiseFault r s).busData = s.busData := rfl

@[simp] theorem finish_addr (r : OpResult) : (finish r s).addr = s.addr := rfl
@[simp] theorem finish_data0 (r : OpResult) : (finish r s).data0 = s.data0 := rfl
@[simp] theorem finish_data1 (r : OpResult) : (finish r s).data1 = s.data1 := rfl
@[simp] theorem finish_data2 (r : OpResult) : (finish r s).data2 = s.data2 := rfl
@[simp] theorem finish_data3 (r : OpResult) : (finish r s).data3 = s.data3 := rfl
@[simp] theorem finish_timeout (r : OpResult) : (finish r s).timeout = s.timeout := rfl
@[simp] theorem finish_startAddr (r : OpResult) : (finish r s).startAddr = s.startAddr := rfl
@[simp] theorem finish_endAddr (r : OpResult) : (finish r s).endAddr = s.endAddr := rfl
@[simp] theorem finish_pattern (r : OpResult) : (finish r s).pattern = s.pattern := rfl
@[simp] theorem finish_pgerr (r : OpResult) : (finish r s).pgerr = s.pgerr := rfl
@[simp] theorem finish_wrprterr (r : OpResult) : (finish r s).wrprterr = s.wrprterr := rfl
@[simp] theorem finish_eop (r : OpResult) : (finish r s).eop = s.eop := rfl
@[simp] theorem finish_ovr (r : OpResult) : (finish r s).ovr = s.ovr := rfl
@[simp] theorem finish_illcmd (r : OpResult) : (finish r s).illcmd = s.illcmd := rfl
@[simp] theorem finish_proterr (r : OpResult) : (finish r s).proterr = s.proterr := rfl
@[simp] theorem finish_lockStd (r : OpResult) : (finish r s).lockStd = s.lockStd := rfl
@[simp] theorem finish_lockFast (r : OpResult) : (finish r s).lockFast = s.lockFast := rfl
@[simp] theorem finish_result (r : OpResult) : (finish r s).result = r := rfl
@[simp] theorem finish_orchPhase (r : OpResult) : (finish r s).orchPhase = s.orchPhase := rfl
@[simp] theorem finish_orchKind (r : OpResult) : (finish r s).orchKind = s.orchKind := rfl
@[simp] theorem finish_nbrPage (r : OpResult) : (finish r s).nbrPage = s.nbrPage := rfl
@[simp] theorem finish_eraseCnt (r : OpResult) : (finish r s).eraseCnt = s.eraseCnt := rfl
@[simp] theorem finish_cursor (r : OpResult) : (finish r s).cursor = s.cursor := rfl
@[simp] theorem finish_flashStatus (r : OpResult) : (finish r s).flashStatus = s.flashStatus := rfl
@[simp] theorem finish_verifyPassed (r : OpResult) : (finish r s).verifyPassed = s.verifyPassed := rfl
@[simp] theorem finish_verifyFlag (r : OpResult) : (finish r s).verifyFlag = s.verifyFlag := rfl
@[simp] theorem finish_pageIdx (r : OpResult) : (finish r s).pageIdx = s.pageIdx := rfl
@[simp] theorem finish_diagPage (r : OpResult) : (finish r s).diagPage = s.diagPage := rfl
@[simp] theorem finish_diagStd (r : OpResult) : (finish r s).diagStd = s.diagStd := rfl
@[simp] theorem finish_diagBlock (r : OpResult) : (finish r s).diagBlock = s.diagBlock := rfl
@[simp] theorem finish_diagRan (r : OpResult) : (finish r s).diagRan = s.diagRan := rfl
@[simp] theorem finish_lastProg (r : OpResult) : (finish r s).lastProg = s.lastProg := rfl
@[simp] theorem finish_srcbuf (r : OpResult) : (finish r s).srcbuf = s.srcbuf := rfl
@[simp] theorem finish_srcWritten (r : OpResult) : (finish r s).srcWritten = s.srcWritten := rfl
@[simp] theorem finish_pbuf (r : OpResult) : (finish r s).pbuf = s.pbuf := rfl
@[simp] theorem finish_loaded (r : OpResult) : (finish r s).loaded = s.loaded := rfl
@[simp] theorem finish_seq (r : OpResult) : (finish r s).seq = .idle := rfl
@[simp] theorem finish_polls (r : OpResult) : (finish r s).polls = s.polls := rfl
@[simp] theorem finish_engine (r : OpResult) : (finish r s).engine = s.engine := rfl
@[simp] theorem finish_flash (r : OpResult) : (finish r s).flash = s.flash := rfl
@[simp] theorem finish_clkSafe (r : OpResult) : (finish r s).clkSafe = s.clkSafe := rfl
@[simp] theorem finish_faults (r : OpResult) : (finish r s).faults = s.faults := rfl
@[simp] theorem finish_cfg (r : OpResult) : (finish r s).cfg = s.cfg := rfl
@[simp] theorem finish_agenda (r : OpResult) : (finish r s).agenda = s.agenda := rfl
@[simp] theorem finish_draws (r : OpResult) : (finish r s).draws = s.draws := rfl
@[simp] theorem finish_busData (r : OpResult) : (finish r s).busData = s.busData := rfl

@[simp] theorem suspend_addr (i : Instr) (p : Point) : (suspend i p s).addr = s.addr := rfl
@[simp] theorem suspend_data0 (i : Instr) (p : Point) : (suspend i p s).data0 = s.data0 := rfl
@[simp] theorem suspend_data1 (i : Instr) (p : Point) : (suspend i p s).data1 = s.data1 := rfl
@[simp] theorem suspend_data2 (i : Instr) (p : Point) : (suspend i p s).data2 = s.data2 := rfl
@[simp] theorem suspend_data3 (i : Instr) (p : Point) : (suspend i p s).data3 = s.data3 := rfl
@[simp] theorem suspend_timeout (i : Instr) (p : Point) : (suspend i p s).timeout = s.timeout := rfl
@[simp] theorem suspend_startAddr (i : Instr) (p : Point) : (suspend i p s).startAddr = s.startAddr := rfl
@[simp] theorem suspend_endAddr (i : Instr) (p : Point) : (suspend i p s).endAddr = s.endAddr := rfl
@[simp] theorem suspend_pattern (i : Instr) (p : Point) : (suspend i p s).pattern = s.pattern := rfl
@[simp] theorem suspend_pgerr (i : Instr) (p : Point) : (suspend i p s).pgerr = s.pgerr := rfl
@[simp] theorem suspend_wrprterr (i : Instr) (p : Point) : (suspend i p s).wrprterr = s.wrprterr := rfl
@[simp] theorem suspend_eop (i : Instr) (p : Point) : (suspend i p s).eop = s.eop := rfl
@[simp] theorem suspend_ovr (i : Instr) (p : Point) : (suspend i p s).ovr = s.ovr := rfl
@[simp] theorem suspend_illcmd (i : Instr) (p : Point) : (suspend i p s).illcmd = s.illcmd := rfl
@[simp] theorem suspend_proterr (i : Instr) (p : Point) : (suspend i p s).proterr = s.proterr := rfl
@[simp] theorem suspend_lockStd (i : Instr) (p : Point) : (suspend i p s).lockStd = s.lockStd := rfl
@[simp] theorem suspend_lockFast (i : Instr) (p : Point) : (suspend i p s).lockFast = s.lockFast := rfl
@[simp] theorem suspend_result (i : Instr) (p : Point) : (suspend i p s).result = s.result := rfl
@[simp] theorem suspend_orchPhase (i : Instr) (p : Point) : (suspend i p s).orchPhase = s.orchPhase := rfl
@[simp] theorem suspend_orchKind (i : Instr) (p : Point) : (suspend i p s).orchKind = s.orchKind := rfl
@[simp] theorem suspend_nbrPage (i : Instr) (p : Point) : (suspend i p s).nbrPage = s.nbrPage := rfl
@[simp] theorem suspend_eraseCnt (i : Instr) (p : Point) : (suspend i p s).eraseCnt = s.eraseCnt := rfl
@[simp] theorem suspend_cursor (i : Instr) (p : Point) : (suspend i p s).cursor = s.cursor := rfl
@[simp] theorem suspend_flashStatus (i : Instr) (p : Point) : (suspend i p s).flashStatus = s.flashStatus := rfl
@[simp] theorem suspend_verifyPassed (i : Instr) (p : Point) : (suspend i p s).verifyPassed = s.verifyPassed := rfl
@[simp] theorem suspend_verifyFlag (i : Instr) (p : Point) : (suspend i p s).verifyFlag = s.verifyFlag := rfl
@[simp] theorem suspend_pageIdx (i : Instr) (p : Point) : (suspend i p s).pageIdx = s.pageIdx := rfl
@[simp] theorem suspend_diagPage (i : Instr) (p : Point) : (suspend i p s).diagPage = s.diagPage := rfl
@[simp] theorem suspend_diagStd (i : Instr) (p : Point) : (suspend i p s).diagStd = s.diagStd := rfl
@[simp] theorem suspend_diagBlock (i : Instr) (p : Point) : (suspend i p s).diagBlock = s.diagBlock := rfl
@[simp] theorem suspend_diagRan (i : Instr) (p : Point) : (suspend i p s).diagRan = s.diagRan := rfl
@[simp] theorem suspend_lastProg (i : Instr) (p : Point) : (suspend i p s).lastProg = s.lastProg := rfl
@[simp] theorem suspend_srcbuf (i : Instr) (p : Point) : (suspend i p s).srcbuf = s.srcbuf := rfl
@[simp] theorem suspend_srcWritten (i : Instr) (p : Point) : (suspend i p s).srcWritten = s.srcWritten := rfl
@[simp] theorem suspend_pbuf (i : Instr) (p : Point) : (suspend i p s).pbuf = s.pbuf := rfl
@[simp] theorem suspend_loaded (i : Instr) (p : Point) : (suspend i p s).loaded = s.loaded := rfl
@[simp] theorem suspend_seq (i : Instr) (p : Point) : (suspend i p s).seq = .exec i p := rfl
@[simp] theorem suspend_polls (i : Instr) (p : Point) : (suspend i p s).polls = s.polls := rfl
@[simp] theorem suspend_engine (i : Instr) (p : Point) : (suspend i p s).engine = s.engine := rfl
@[simp] theorem suspend_flash (i : Instr) (p : Point) : (suspend i p s).flash = s.flash := rfl
@[simp] theorem suspend_clkSafe (i : Instr) (p : Point) : (suspend i p s).clkSafe = s.clkSafe := rfl
@[simp] theorem suspend_faults (i : Instr) (p : Point) : (suspend i p s).faults = s.faults := rfl
@[simp] theorem suspend_cfg (i : Instr) (p : Point) : (suspend i p s).cfg = s.cfg := rfl
@[simp] theorem suspend_agenda (i : Instr) (p : Point) : (suspend i p s).agenda = s.agenda := rfl
@[simp] theorem suspend_draws (i : Instr) (p : Point) : (suspend i p s).draws = s.draws := rfl
@[simp] theorem suspend_busData (i : Instr) (p : Point) : (suspend i p s).busData = s.busData := rfl

@[simp] theorem setPhase_addr (p : Phase) : (setPhase p s).addr = s.addr := rfl
@[simp] theorem setPhase_data0 (p : Phase) : (setPhase p s).data0 = s.data0 := rfl
@[simp] theorem setPhase_data1 (p : Phase) : (setPhase p s).data1 = s.data1 := rfl
@[simp] theorem setPhase_data2 (p : Phase) : (setPhase p s).data2 = s.data2 := rfl
@[simp] theorem setPhase_data3 (p : Phase) : (setPhase p s).data3 = s.data3 := rfl
@[simp] theorem setPhase_timeout (p : Phase) : (setPhase p s).timeout = s.timeout := rfl
@[simp] theorem setPhase_startAddr (p : Phase) : (setPhase p s).startAddr = s.startAddr := rfl
@[simp] theorem setPhase_endAddr (p : Phase) : (setPhase p s).endAddr = s.endAddr := rfl
@[simp] theorem setPhase_pattern (p : Phase) : (setPhase p s).pattern = s.pattern := rfl
@[simp] theorem setPhase_pgerr (p : Phase) : (setPhase p s).pgerr = s.pgerr := rfl
@[simp] theorem setPhase_wrprterr (p : Phase) : (setPhase p s).wrprterr = s.wrprterr := rfl
@[simp] theorem setPhase_eop (p : Phase) : (setPhase p s).eop = s.eop := rfl
@[simp] theorem setPhase_ovr (p : Phase) : (setPhase p s).ovr = s.ovr := rfl
@[simp] theorem setPhase_illcmd (p : Phase) : (setPhase p s).illcmd = s.illcmd := rfl
@[simp] theorem setPhase_proterr (p : Phase) : (setPhase p s).proterr = s.proterr := rfl
@[simp] theorem setPhase_lockStd (p : Phase) : (setPhase p s).lockStd = s.lockStd := rfl
@[simp] theorem setPhase_lockFast (p : Phase) : (setPhase p s).lockFast = s.lockFast := rfl
@[simp] theorem setPhase_result (p : Phase) : (setPhase p s).result = s.result := rfl
@[simp] theorem setPhase_orchPhase (p : Phase) : (setPhase p s).orchPhase = p := rfl
@[simp] theorem setPhase_orchKind (p : Phase) : (setPhase p s).orchKind = s.orchKind := rfl
@[simp] theorem setPhase_nbrPage (p : Phase) : (setPhase p s).nbrPage = s.nbrPage := rfl
@[simp] theorem setPhase_eraseCnt (p : Phase) : (setPhase p s).eraseCnt = s.eraseCnt := rfl
@[simp] theorem setPhase_cursor (p : Phase) : (setPhase p s).cursor = s.cursor := rfl
@[simp] theorem setPhase_flashStatus (p : Phase) : (setPhase p s).flashStatus = s.flashStatus := rfl
@[simp] theorem setPhase_verifyPassed (p : Phase) : (setPhase p s).verifyPassed = s.verifyPassed := rfl
@[simp] theorem setPhase_verifyFlag (p : Phase) : (setPhase p s).verifyFlag = s.verifyFlag := rfl
@[simp] theorem setPhase_pageIdx (p : Phase) : (setPhase p s).pageIdx = s.pageIdx := rfl
@[simp] theorem setPhase_diagPage (p : Phase) : (setPhase p s).diagPage = s.diagPage := rfl
@[simp] theorem setPhase_diagStd (p : Phase) : (setPhase p s).diagStd = s.diagStd := rfl
@[simp] theorem setPhase_diagBlock (p : Phase) : (setPhase p s).diagBlock = s.diagBlock := rfl
@[simp] theorem setPhase_diagRan (p : Phase) : (setPhase p s).diagRan = s.diagRan := rfl
@[simp] theorem setPhase_lastProg (p : Phase) : (setPhase p s).lastProg = s.lastProg := rfl
@[simp] theorem setPhase_srcbuf (p : Phase) : (setPhase p s).srcbuf = s.srcbuf := rfl
@[simp] theorem setPhase_srcWritten (p : Phase) : (setPhase p s).srcWritten = s.srcWritten := rfl
@[simp] theorem setPhase_pbuf (p : Phase) : (setPhase p s).pbuf = s.pbuf := rfl
@[simp] theorem setPhase_loaded (p : Phase) : (setPhase p s).loaded = s.loaded := rfl
@[simp] theorem setPhase_seq (p : Phase) : (setPhase p s).seq = s.seq := rfl
@[simp] theorem setPhase_polls (p : Phase) : (setPhase p s).polls = s.polls := rfl
@[simp] theorem setPhase_engine (p : Phase) : (setPhase p s).engine = s.engine := rfl
@[simp] theorem setPhase_flash (p : Phase) : (setPhase p s).flash = s.flash := rfl
@[simp] theorem setPhase_clkSafe (p : Phase) : (setPhase p s).clkSafe = s.clkSafe := rfl
@[simp] theorem setPhase_faults (p : Phase) : (setPhase p s).faults = s.faults := rfl
@[simp] theorem setPhase_cfg (p : Phase) : (setPhase p s).cfg = s.cfg := rfl
@[simp] theorem setPhase_agenda (p : Phase) : (setPhase p s).agenda = s.agenda := rfl
@[simp] theorem setPhase_draws (p : Phase) : (setPhase p s).draws = s.draws := rfl
@[simp] theorem setPhase_busData (p : Phase) : (setPhase p s).busData = s.busData := rfl

@[simp] theorem clearBody_addr : (clearBody s).addr = s.addr := rfl
@[simp] theorem clearBody_data0 : (clearBody s).data0 = s.data0 := rfl
@[simp] theorem clearBody_data1 : (clearBody s).data1 = s.data1 := rfl
@[simp] theorem clearBody_data2 : (clearBody s).data2 = s.data2 := rfl
@[simp] theorem clearBody_data3 : (clearBody s).data3 = s.data3 := rfl
@[simp] theorem clearBody_timeout : (clearBody s).timeout = s.timeout := rfl
@[simp] theorem clearBody_startAddr : (clearBody s).startAddr = s.startAddr := rfl
@[simp] theorem clearBody_endAddr : (clearBody s).endAddr = s.endAddr := rfl
@[simp] theorem clearBody_pattern : (clearBody s).pattern = s.pattern := rfl
@[simp] theorem clearBody_pgerr : (clearBody s).pgerr = false := rfl
@[simp] theorem clearBody_wrprterr : (clearBody s).wrprterr = false := rfl
@[simp] theorem clearBody_eop : (clearBody s).eop = false := rfl
@[simp] theorem clearBody_ovr : (clearBody s).ovr = s.ovr := rfl
@[simp] theorem clearBody_illcmd : (clearBody s).illcmd = s.illcmd := rfl
@[simp] theorem clearBody_proterr : (clearBody s).proterr = s.proterr := rfl
@[simp] theorem clearBody_lockStd : (clearBody s).lockStd = s.lockStd := rfl
@[simp] theorem clearBody_lockFast : (clearBody s).lockFast = s.lockFast := rfl
@[simp] theorem clearBody_result : (clearBody s).result = s.result := rfl
@[simp] theorem clearBody_orchPhase : (clearBody s).orchPhase = s.orchPhase := rfl
@[simp] theorem clearBody_orchKind : (clearBody s).orchKind = s.orchKind := rfl
@[simp] theorem clearBody_nbrPage : (clearBody s).nbrPage = s.nbrPage := rfl
@[simp] theorem clearBody_eraseCnt : (clearBody s).eraseCnt = s.eraseCnt := rfl
@[simp] theorem clearBody_cursor : (clearBody s).cursor = s.cursor := rfl
@[simp] theorem clearBody_flashStatus : (clearBody s).flashStatus = s.flashStatus := rfl
@[simp] theorem clearBody_verifyPassed : (clearBody s).verifyPassed = s.verifyPassed := rfl
@[simp] theorem clearBody_verifyFlag : (clearBody s).verifyFlag = s.verifyFlag := rfl
@[simp] theorem clearBody_pageIdx : (clearBody s).pageIdx = s.pageIdx := rfl
@[simp] theorem clearBody_diagPage : (clearBody s).diagPage = s.diagPage := rfl
@[simp] theorem clearBody_diagStd : (clearBody s).diagStd = s.diagStd := rfl
@[simp] theorem clearBody_diagBlock : (clearBody s).diagBlock = s.diagBlock := rfl
@[simp] theorem clearBody_diagRan : (clearBody s).diagRan = s.diagRan := rfl
@[simp] theorem clearBody_lastProg : (clearBody s).lastProg = s.lastProg := rfl
@[simp] theorem clearBody_srcbuf : (clearBody s).srcbuf = s.srcbuf := rfl
@[simp] theorem clearBody_srcWritten : (clearBody s).srcWritten = s.srcWritten := rfl
@[simp] theorem clearBody_pbuf : (clearBody s).pbuf = s.pbuf := rfl
@[simp] theorem clearBody_loaded : (clearBody s).loaded = s.loaded := rfl
@[simp] theorem clearBody_seq : (clearBody s).seq = s.seq := rfl
@[simp] theorem clearBody_polls : (clearBody s).polls = s.polls := rfl
@[simp] theorem clearBody_engine : (clearBody s).engine = s.engine := rfl
@[simp] theorem clearBody_flash : (clearBody s).flash = s.flash := rfl
@[simp] theorem clearBody_clkSafe : (clearBody s).clkSafe = s.clkSafe := rfl
@[simp] theorem clearBody_faults : (clearBody s).faults = s.faults := rfl
@[simp] theorem clearBody_cfg : (clearBody s).cfg = s.cfg := rfl
@[simp] theorem clearBody_agenda : (clearBody s).agenda = s.agenda := rfl
@[simp] theorem clearBody_draws : (clearBody s).draws = s.draws := rfl
@[simp] theorem clearBody_busData : (clearBody s).busData = s.busData := rfl

@[simp] theorem setLock_addr (d : Domain) (b : Bool) : (setLock d b s).addr = s.addr := rfl
@[simp] theorem setLock_data0 (d : Domain) (b : Bool) : (setLock d b s).data0 = s.data0 := rfl
@[simp] theorem setLock_data1 (d : Domain) (b : Bool) : (setLock d b s).data1 = s.data1 := rfl
@[simp] theorem setLock_data2 (d : Domain) (b : Bool) : (setLock d b s).data2 = s.data2 := rfl
@[simp] theorem setLock_data3 (d : Domain) (b : Bool) : (setLock d b s).data3 = s.data3 := rfl
@[simp] theorem setLock_timeout (d : Domain) (b : Bool) : (setLock d b s).timeout = s.timeout := rfl
@[simp] theorem setLock_startAddr (d : Domain) (b : Bool) : (setLock d b s).startAddr = s.startAddr := rfl
@[simp] theorem setLock_endAddr (d : Domain) (b : Bool) : (setLock d b s).endAddr = s.endAddr := rfl
@[simp] theorem setLock_pattern (d : Domain) (b : Bool) : (setLock d b s).pattern = s.pattern := rfl
@[simp] theorem setLock_pgerr (d : Domain) (b : Bool) : (setLock d b s).pgerr = s.pgerr := rfl
@[simp] theorem setLock_wrprterr (d : Domain) (b : Bool) : (setLock d b s).wrprterr = s.wrprterr := rfl
@[simp] theorem setLock_eop (d : Domain) (b : Bool) : (setLock d b s).eop = s.eop := rfl
@[simp] theorem setLock_ovr (d : Domain) (b : Bool) : (setLock d b s).ovr = s.ovr := rfl
@[simp] theorem setLock_illcmd (d : Domain) (b : Bool) : (setLock d b s).illcmd = s.illcmd := rfl
@[simp] theorem setLock_proterr (d : Domain) (b : Bool) : (setLock d b s).proterr = s.proterr := rfl
@[simp] theorem setLock_lockStd (d : Domain) (b : Bool) : (setLock d b s).lockStd = if d = .std then b else s.lockStd := rfl
@[simp] theorem setLock_lockFast (d : Domain) (b : Bool) : (setLock d b s).lockFast = if d = .fast then b else s.lockFast := rfl
@[simp] theorem setLock_result (d : Domain) (b : Bool) : (setLock d b s).result = s.result := rfl
@[simp] theorem setLock_orchPhase (d : Domain) (b : Bool) : (setLock d b s).orchPhase = s.orchPhase := rfl
@[simp] theorem setLock_orchKind (d : Domain) (b : Bool) : (setLock d b s).orchKind = s.orchKind := rfl
@[simp] theorem setLock_nbrPage (d : Domain) (b : Bool) : (setLock d b s).nbrPage = s.nbrPage := rfl
@[simp] theorem setLock_eraseCnt (d : Domain) (b : Bool) : (setLock d b s).eraseCnt = s.eraseCnt := rfl
@[simp] theorem setLock_cursor (d : Domain) (b : Bool) : (setLock d b s).cursor = s.cursor := rfl
@[simp] theorem setLock_flashStatus (d : Domain) (b : Bool) : (setLock d b s).flashStatus = s.flashStatus := rfl
@[simp] theorem setLock_verifyPassed (d : Domain) (b : Bool) : (setLock d b s).verifyPassed = s.verifyPassed := rfl
@[simp] theorem setLock_verifyFlag (d : Domain) (b : Bool) : (setLock d b s).verifyFlag = s.verifyFlag := rfl
@[simp] theorem setLock_pageIdx (d : Domain) (b : Bool) : (setLock d b s).pageIdx = s.pageIdx := rfl
@[simp] theorem setLock_diagPage (d : Domain) (b : Bool) : (setLock d b s).diagPage = s.diagPage := rfl
@[simp] theorem setLock_diagStd (d : Domain) (b : Bool) : (setLock d b s).diagStd = s.diagStd := rfl
@[simp] theorem setLock_diagBlock (d : Domain) (b : Bool) : (setLock d b s).diagBlock = s.diagBlock := rfl
@[simp] theorem setLock_diagRan (d : Domain) (b : Bool) : (setLock d b s).diagRan = s.diagRan := rfl
@[simp] theorem setLock_lastProg (d : Domain) (b : Bool) : (setLock d b s).lastProg = s.lastProg := rfl
@[simp] theorem setLock_srcbuf (d : Domain) (b : Bool) : (setLock d b s).srcbuf = s.srcbuf := rfl
@[simp] theorem setLock_srcWritten (d : Domain) (b : Bool) : (setLock d b s).srcWritten = s.srcWritten := rfl
@[simp] theorem setLock_pbuf (d : Domain) (b : Bool) : (setLock d b s).pbuf = s.pbuf := rfl
@[simp] theorem setLock_loaded (d : Domain) (b : Bool) : (setLock d b s).loaded = s.loaded := rfl
@[simp] theorem setLock_seq (d : Domain) (b : Bool) : (setLock d b s).seq = s.seq := rfl
@[simp] theorem setLock_polls (d : Domain) (b : Bool) : (setLock d b s).polls = s.polls := rfl
@[simp] theorem setLock_engine (d : Domain) (b : Bool) : (setLock d b s).engine = s.engine := rfl
@[simp] theorem setLock_flash (d : Domain) (b : Bool) : (setLock d b s).flash = s.flash := rfl
@[simp] theorem setLock_clkSafe (d : Domain) (b : Bool) : (setLock d b s).clkSafe = s.clkSafe := rfl
@[simp] theorem setLock_faults (d : Domain) (b : Bool) : (setLock d b s).faults = s.faults := rfl
@[simp] theorem setLock_cfg (d : Domain) (b : Bool) : (setLock d b s).cfg = s.cfg := rfl
@[simp] theorem setLock_agenda (d : Domain) (b : Bool) : (setLock d b s).agenda = s.agenda := rfl
@[simp] theorem setLock_draws (d : Domain) (b : Bool) : (setLock d b s).draws = s.draws := rfl
@[simp] theorem setLock_busData (d : Domain) (b : Bool) : (setLock d b s).busData = s.busData := rfl

@[simp] theorem issue_addr (c : FlashCall) : (issue c s).addr = s.addr := rfl
@[simp] theorem issue_data0 (c : FlashCall) : (issue c s).data0 = s.data0 := rfl
@[simp] theorem issue_data1 (c : FlashCall) : (issue c s).data1 = s.data1 := rfl
@[simp] theorem issue_data2 (c : FlashCall) : (issue c s).data2 = s.data2 := rfl
@[simp] theorem issue_data3 (c : FlashCall) : (issue c s).data3 = s.data3 := rfl
@[simp] theorem issue_timeout (c : FlashCall) : (issue c s).timeout = s.timeout := rfl
@[simp] theorem issue_startAddr (c : FlashCall) : (issue c s).startAddr = s.startAddr := rfl
@[simp] theorem issue_endAddr (c : FlashCall) : (issue c s).endAddr = s.endAddr := rfl
@[simp] theorem issue_pattern (c : FlashCall) : (issue c s).pattern = s.pattern := rfl
@[simp] theorem issue_pgerr (c : FlashCall) : (issue c s).pgerr = s.pgerr := rfl
@[simp] theorem issue_wrprterr (c : FlashCall) : (issue c s).wrprterr = s.wrprterr := rfl
@[simp] theorem issue_eop (c : FlashCall) : (issue c s).eop = s.eop := rfl
@[simp] theorem issue_ovr (c : FlashCall) : (issue c s).ovr = s.ovr := rfl
@[simp] theorem issue_illcmd (c : FlashCall) : (issue c s).illcmd = s.illcmd := rfl
@[simp] theorem issue_proterr (c : FlashCall) : (issue c s).proterr = s.proterr := rfl
@[simp] theorem issue_lockStd (c : FlashCall) : (issue c s).lockStd = s.lockStd := rfl
@[simp] theorem issue_lockFast (c : FlashCall) : (issue c s).lockFast = s.lockFast := rfl
@[simp] theorem issue_result (c : FlashCall) : (issue c s).result = s.result := rfl
@[simp] theorem issue_orchPhase (c : FlashCall) : (issue c s).orchPhase = s.orchPhase := rfl
@[simp] theorem issue_orchKind (c : FlashCall) : (issue c s).orchKind = s.orchKind := rfl
@[simp] theorem issue_nbrPage (c : FlashCall) : (issue c s).nbrPage = s.nbrPage := rfl
@[simp] theorem issue_eraseCnt (c : FlashCall) : (issue c s).eraseCnt = s.eraseCnt := rfl
@[simp] theorem issue_cursor (c : FlashCall) : (issue c s).cursor = s.cursor := rfl
@[simp] theorem issue_flashStatus (c : FlashCall) : (issue c s).flashStatus = s.flashStatus := rfl
@[simp] theorem issue_verifyPassed (c : FlashCall) : (issue c s).verifyPassed = s.verifyPassed := rfl
@[simp] theorem issue_verifyFlag (c : FlashCall) : (issue c s).verifyFlag = s.verifyFlag := rfl
@[simp] theorem issue_pageIdx (c : FlashCall) : (issue c s).pageIdx = s.pageIdx := rfl
@[simp] theorem issue_diagPage (c : FlashCall) : (issue c s).diagPage = s.diagPage := rfl
@[simp] theorem issue_diagStd (c : FlashCall) : (issue c s).diagStd = s.diagStd := rfl
@[simp] theorem issue_diagBlock (c : FlashCall) : (issue c s).diagBlock = s.diagBlock := rfl
@[simp] theorem issue_diagRan (c : FlashCall) : (issue c s).diagRan = s.diagRan := rfl
@[simp] theorem issue_lastProg (c : FlashCall) : (issue c s).lastProg = lastProgAfter c s := rfl
@[simp] theorem issue_srcbuf (c : FlashCall) : (issue c s).srcbuf = s.srcbuf := rfl
@[simp] theorem issue_srcWritten (c : FlashCall) : (issue c s).srcWritten = s.srcWritten := rfl
@[simp] theorem issue_pbuf (c : FlashCall) : (issue c s).pbuf = s.pbuf := rfl
@[simp] theorem issue_loaded (c : FlashCall) : (issue c s).loaded = loadedAfter c s := rfl
@[simp] theorem issue_seq (c : FlashCall) : (issue c s).seq = s.seq := rfl
@[simp] theorem issue_polls (c : FlashCall) : (issue c s).polls = s.polls := rfl
@[simp] theorem issue_engine (c : FlashCall) : (issue c s).engine = .inFlight c.op false := rfl
@[simp] theorem issue_flash (c : FlashCall) : (issue c s).flash = s.flash := rfl
@[simp] theorem issue_clkSafe (c : FlashCall) : (issue c s).clkSafe = s.clkSafe := rfl
@[simp] theorem issue_faults (c : FlashCall) : (issue c s).faults = s.faults := rfl
@[simp] theorem issue_cfg (c : FlashCall) : (issue c s).cfg = s.cfg := rfl
@[simp] theorem issue_agenda (c : FlashCall) : (issue c s).agenda = s.agenda := rfl
@[simp] theorem issue_draws (c : FlashCall) : (issue c s).draws = s.draws := rfl
@[simp] theorem issue_busData (c : FlashCall) : (issue c s).busData = s.busData := rfl

@[simp] theorem failOp_addr (op : Op) : (failOp op s).addr = s.addr := rfl
@[simp] theorem failOp_data0 (op : Op) : (failOp op s).data0 = s.data0 := rfl
@[simp] theorem failOp_data1 (op : Op) : (failOp op s).data1 = s.data1 := rfl
@[simp] theorem failOp_data2 (op : Op) : (failOp op s).data2 = s.data2 := rfl
@[simp] theorem failOp_data3 (op : Op) : (failOp op s).data3 = s.data3 := rfl
@[simp] theorem failOp_timeout (op : Op) : (failOp op s).timeout = s.timeout := rfl
@[simp] theorem failOp_startAddr (op : Op) : (failOp op s).startAddr = s.startAddr := rfl
@[simp] theorem failOp_endAddr (op : Op) : (failOp op s).endAddr = s.endAddr := rfl
@[simp] theorem failOp_pattern (op : Op) : (failOp op s).pattern = s.pattern := rfl
@[simp] theorem failOp_pgerr (op : Op) : (failOp op s).pgerr = true := rfl
@[simp] theorem failOp_wrprterr (op : Op) : (failOp op s).wrprterr = s.wrprterr := rfl
@[simp] theorem failOp_eop (op : Op) : (failOp op s).eop = s.eop := rfl
@[simp] theorem failOp_ovr (op : Op) : (failOp op s).ovr = s.ovr := rfl
@[simp] theorem failOp_illcmd (op : Op) : (failOp op s).illcmd = s.illcmd := rfl
@[simp] theorem failOp_proterr (op : Op) : (failOp op s).proterr = s.proterr := rfl
@[simp] theorem failOp_lockStd (op : Op) : (failOp op s).lockStd = s.lockStd := rfl
@[simp] theorem failOp_lockFast (op : Op) : (failOp op s).lockFast = s.lockFast := rfl
@[simp] theorem failOp_result (op : Op) : (failOp op s).result = s.result := rfl
@[simp] theorem failOp_orchPhase (op : Op) : (failOp op s).orchPhase = s.orchPhase := rfl
@[simp] theorem failOp_orchKind (op : Op) : (failOp op s).orchKind = s.orchKind := rfl
@[simp] theorem failOp_nbrPage (op : Op) : (failOp op s).nbrPage = s.nbrPage := rfl
@[simp] theorem failOp_eraseCnt (op : Op) : (failOp op s).eraseCnt = s.eraseCnt := rfl
@[simp] theorem failOp_cursor (op : Op) : (failOp op s).cursor = s.cursor := rfl
@[simp] theorem failOp_flashStatus (op : Op) : (failOp op s).flashStatus = s.flashStatus := rfl
@[simp] theorem failOp_verifyPassed (op : Op) : (failOp op s).verifyPassed = s.verifyPassed := rfl
@[simp] theorem failOp_verifyFlag (op : Op) : (failOp op s).verifyFlag = s.verifyFlag := rfl
@[simp] theorem failOp_pageIdx (op : Op) : (failOp op s).pageIdx = s.pageIdx := rfl
@[simp] theorem failOp_diagPage (op : Op) : (failOp op s).diagPage = s.diagPage := rfl
@[simp] theorem failOp_diagStd (op : Op) : (failOp op s).diagStd = s.diagStd := rfl
@[simp] theorem failOp_diagBlock (op : Op) : (failOp op s).diagBlock = s.diagBlock := rfl
@[simp] theorem failOp_diagRan (op : Op) : (failOp op s).diagRan = s.diagRan := rfl
@[simp] theorem failOp_lastProg (op : Op) : (failOp op s).lastProg = s.lastProg := rfl
@[simp] theorem failOp_srcbuf (op : Op) : (failOp op s).srcbuf = s.srcbuf := rfl
@[simp] theorem failOp_srcWritten (op : Op) : (failOp op s).srcWritten = s.srcWritten := rfl
@[simp] theorem failOp_pbuf (op : Op) : (failOp op s).pbuf = s.pbuf := rfl
@[simp] theorem failOp_loaded (op : Op) : (failOp op s).loaded = s.loaded := rfl
@[simp] theorem failOp_seq (op : Op) : (failOp op s).seq = s.seq := rfl
@[simp] theorem failOp_polls (op : Op) : (failOp op s).polls = s.polls := rfl
@[simp] theorem failOp_engine (op : Op) : (failOp op s).engine = .idle := rfl
@[simp] theorem failOp_flash (op : Op) : (failOp op s).flash = s.flash.write op.base op.indetCells := rfl
@[simp] theorem failOp_clkSafe (op : Op) : (failOp op s).clkSafe = s.clkSafe := rfl
@[simp] theorem failOp_faults (op : Op) : (failOp op s).faults = s.faults := rfl
@[simp] theorem failOp_cfg (op : Op) : (failOp op s).cfg = s.cfg := rfl
@[simp] theorem failOp_agenda (op : Op) : (failOp op s).agenda = s.agenda := rfl
@[simp] theorem failOp_draws (op : Op) : (failOp op s).draws = s.draws := rfl
@[simp] theorem failOp_busData (op : Op) : (failOp op s).busData = s.busData := rfl

@[simp] theorem refuseOp_addr : (refuseOp s).addr = s.addr := rfl
@[simp] theorem refuseOp_data0 : (refuseOp s).data0 = s.data0 := rfl
@[simp] theorem refuseOp_data1 : (refuseOp s).data1 = s.data1 := rfl
@[simp] theorem refuseOp_data2 : (refuseOp s).data2 = s.data2 := rfl
@[simp] theorem refuseOp_data3 : (refuseOp s).data3 = s.data3 := rfl
@[simp] theorem refuseOp_timeout : (refuseOp s).timeout = s.timeout := rfl
@[simp] theorem refuseOp_startAddr : (refuseOp s).startAddr = s.startAddr := rfl
@[simp] theorem refuseOp_endAddr : (refuseOp s).endAddr = s.endAddr := rfl
@[simp] theorem refuseOp_pattern : (refuseOp s).pattern = s.pattern := rfl
@[simp] theorem refuseOp_pgerr : (refuseOp s).pgerr = s.pgerr := rfl
@[simp] theorem refuseOp_wrprterr : (refuseOp s).wrprterr = true := rfl
@[simp] theorem refuseOp_eop : (refuseOp s).eop = s.eop := rfl
@[simp] theorem refuseOp_ovr : (refuseOp s).ovr = s.ovr := rfl
@[simp] theorem refuseOp_illcmd : (refuseOp s).illcmd = s.illcmd := rfl
@[simp] theorem refuseOp_proterr : (refuseOp s).proterr = s.proterr := rfl
@[simp] theorem refuseOp_lockStd : (refuseOp s).lockStd = s.lockStd := rfl
@[simp] theorem refuseOp_lockFast : (refuseOp s).lockFast = s.lockFast := rfl
@[simp] theorem refuseOp_result : (refuseOp s).result = s.result := rfl
@[simp] theorem refuseOp_orchPhase : (refuseOp s).orchPhase = s.orchPhase := rfl
@[simp] theorem refuseOp_orchKind : (refuseOp s).orchKind = s.orchKind := rfl
@[simp] theorem refuseOp_nbrPage : (refuseOp s).nbrPage = s.nbrPage := rfl
@[simp] theorem refuseOp_eraseCnt : (refuseOp s).eraseCnt = s.eraseCnt := rfl
@[simp] theorem refuseOp_cursor : (refuseOp s).cursor = s.cursor := rfl
@[simp] theorem refuseOp_flashStatus : (refuseOp s).flashStatus = s.flashStatus := rfl
@[simp] theorem refuseOp_verifyPassed : (refuseOp s).verifyPassed = s.verifyPassed := rfl
@[simp] theorem refuseOp_verifyFlag : (refuseOp s).verifyFlag = s.verifyFlag := rfl
@[simp] theorem refuseOp_pageIdx : (refuseOp s).pageIdx = s.pageIdx := rfl
@[simp] theorem refuseOp_diagPage : (refuseOp s).diagPage = s.diagPage := rfl
@[simp] theorem refuseOp_diagStd : (refuseOp s).diagStd = s.diagStd := rfl
@[simp] theorem refuseOp_diagBlock : (refuseOp s).diagBlock = s.diagBlock := rfl
@[simp] theorem refuseOp_diagRan : (refuseOp s).diagRan = s.diagRan := rfl
@[simp] theorem refuseOp_lastProg : (refuseOp s).lastProg = s.lastProg := rfl
@[simp] theorem refuseOp_srcbuf : (refuseOp s).srcbuf = s.srcbuf := rfl
@[simp] theorem refuseOp_srcWritten : (refuseOp s).srcWritten = s.srcWritten := rfl
@[simp] theorem refuseOp_pbuf : (refuseOp s).pbuf = s.pbuf := rfl
@[simp] theorem refuseOp_loaded : (refuseOp s).loaded = s.loaded := rfl
@[simp] theorem refuseOp_seq : (refuseOp s).seq = s.seq := rfl
@[simp] theorem refuseOp_polls : (refuseOp s).polls = s.polls := rfl
@[simp] theorem refuseOp_engine : (refuseOp s).engine = .idle := rfl
@[simp] theorem refuseOp_flash : (refuseOp s).flash = s.flash := rfl
@[simp] theorem refuseOp_clkSafe : (refuseOp s).clkSafe = s.clkSafe := rfl
@[simp] theorem refuseOp_faults : (refuseOp s).faults = s.faults := rfl
@[simp] theorem refuseOp_cfg : (refuseOp s).cfg = s.cfg := rfl
@[simp] theorem refuseOp_agenda : (refuseOp s).agenda = s.agenda := rfl
@[simp] theorem refuseOp_draws : (refuseOp s).draws = s.draws := rfl
@[simp] theorem refuseOp_busData : (refuseOp s).busData = s.busData := rfl

@[simp] theorem succeedOp_addr (op : Op) : (succeedOp op s).addr = s.addr := rfl
@[simp] theorem succeedOp_data0 (op : Op) : (succeedOp op s).data0 = s.data0 := rfl
@[simp] theorem succeedOp_data1 (op : Op) : (succeedOp op s).data1 = s.data1 := rfl
@[simp] theorem succeedOp_data2 (op : Op) : (succeedOp op s).data2 = s.data2 := rfl
@[simp] theorem succeedOp_data3 (op : Op) : (succeedOp op s).data3 = s.data3 := rfl
@[simp] theorem succeedOp_timeout (op : Op) : (succeedOp op s).timeout = s.timeout := rfl
@[simp] theorem succeedOp_startAddr (op : Op) : (succeedOp op s).startAddr = s.startAddr := rfl
@[simp] theorem succeedOp_endAddr (op : Op) : (succeedOp op s).endAddr = s.endAddr := rfl
@[simp] theorem succeedOp_pattern (op : Op) : (succeedOp op s).pattern = s.pattern := rfl
@[simp] theorem succeedOp_pgerr (op : Op) : (succeedOp op s).pgerr = s.pgerr := rfl
@[simp] theorem succeedOp_wrprterr (op : Op) : (succeedOp op s).wrprterr = s.wrprterr := rfl
@[simp] theorem succeedOp_eop (op : Op) : (succeedOp op s).eop = true := rfl
@[simp] theorem succeedOp_ovr (op : Op) : (succeedOp op s).ovr = s.ovr := rfl
@[simp] theorem succeedOp_illcmd (op : Op) : (succeedOp op s).illcmd = s.illcmd := rfl
@[simp] theorem succeedOp_proterr (op : Op) : (succeedOp op s).proterr = s.proterr := rfl
@[simp] theorem succeedOp_lockStd (op : Op) : (succeedOp op s).lockStd = s.lockStd := rfl
@[simp] theorem succeedOp_lockFast (op : Op) : (succeedOp op s).lockFast = s.lockFast := rfl
@[simp] theorem succeedOp_result (op : Op) : (succeedOp op s).result = s.result := rfl
@[simp] theorem succeedOp_orchPhase (op : Op) : (succeedOp op s).orchPhase = s.orchPhase := rfl
@[simp] theorem succeedOp_orchKind (op : Op) : (succeedOp op s).orchKind = s.orchKind := rfl
@[simp] theorem succeedOp_nbrPage (op : Op) : (succeedOp op s).nbrPage = s.nbrPage := rfl
@[simp] theorem succeedOp_eraseCnt (op : Op) : (succeedOp op s).eraseCnt = s.eraseCnt := rfl
@[simp] theorem succeedOp_cursor (op : Op) : (succeedOp op s).cursor = s.cursor := rfl
@[simp] theorem succeedOp_flashStatus (op : Op) : (succeedOp op s).flashStatus = s.flashStatus := rfl
@[simp] theorem succeedOp_verifyPassed (op : Op) : (succeedOp op s).verifyPassed = s.verifyPassed := rfl
@[simp] theorem succeedOp_verifyFlag (op : Op) : (succeedOp op s).verifyFlag = s.verifyFlag := rfl
@[simp] theorem succeedOp_pageIdx (op : Op) : (succeedOp op s).pageIdx = s.pageIdx := rfl
@[simp] theorem succeedOp_diagPage (op : Op) : (succeedOp op s).diagPage = s.diagPage := rfl
@[simp] theorem succeedOp_diagStd (op : Op) : (succeedOp op s).diagStd = s.diagStd := rfl
@[simp] theorem succeedOp_diagBlock (op : Op) : (succeedOp op s).diagBlock = s.diagBlock := rfl
@[simp] theorem succeedOp_diagRan (op : Op) : (succeedOp op s).diagRan = s.diagRan := rfl
@[simp] theorem succeedOp_lastProg (op : Op) : (succeedOp op s).lastProg = s.lastProg := rfl
@[simp] theorem succeedOp_srcbuf (op : Op) : (succeedOp op s).srcbuf = s.srcbuf := rfl
@[simp] theorem succeedOp_srcWritten (op : Op) : (succeedOp op s).srcWritten = s.srcWritten := rfl
@[simp] theorem succeedOp_pbuf (op : Op) : (succeedOp op s).pbuf = s.pbuf := rfl
@[simp] theorem succeedOp_loaded (op : Op) : (succeedOp op s).loaded = s.loaded := rfl
@[simp] theorem succeedOp_seq (op : Op) : (succeedOp op s).seq = s.seq := rfl
@[simp] theorem succeedOp_polls (op : Op) : (succeedOp op s).polls = s.polls := rfl
@[simp] theorem succeedOp_engine (op : Op) : (succeedOp op s).engine = .idle := rfl
@[simp] theorem succeedOp_flash (op : Op) : (succeedOp op s).flash = s.flash.write op.base op.cells := rfl
@[simp] theorem succeedOp_clkSafe (op : Op) : (succeedOp op s).clkSafe = s.clkSafe := rfl
@[simp] theorem succeedOp_faults (op : Op) : (succeedOp op s).faults = s.faults := rfl
@[simp] theorem succeedOp_cfg (op : Op) : (succeedOp op s).cfg = s.cfg := rfl
@[simp] theorem succeedOp_agenda (op : Op) : (succeedOp op s).agenda = s.agenda := rfl
@[simp] theorem succeedOp_draws (op : Op) : (succeedOp op s).draws = s.draws := rfl
@[simp] theorem succeedOp_busData (op : Op) : (succeedOp op s).busData = s.busData := rfl

@[simp] theorem fillFromSource_addr : (fillFromSource s).addr = s.addr := rfl
@[simp] theorem fillFromSource_data0 : (fillFromSource s).data0 = s.data0 := rfl
@[simp] theorem fillFromSource_data1 : (fillFromSource s).data1 = s.data1 := rfl
@[simp] theorem fillFromSource_data2 : (fillFromSource s).data2 = s.data2 := rfl
@[simp] theorem fillFromSource_data3 : (fillFromSource s).data3 = s.data3 := rfl
@[simp] theorem fillFromSource_timeout : (fillFromSource s).timeout = s.timeout := rfl
@[simp] theorem fillFromSource_startAddr : (fillFromSource s).startAddr = s.startAddr := rfl
@[simp] theorem fillFromSource_endAddr : (fillFromSource s).endAddr = s.endAddr := rfl
@[simp] theorem fillFromSource_pattern : (fillFromSource s).pattern = s.pattern := rfl
@[simp] theorem fillFromSource_pgerr : (fillFromSource s).pgerr = s.pgerr := rfl
@[simp] theorem fillFromSource_wrprterr : (fillFromSource s).wrprterr = s.wrprterr := rfl
@[simp] theorem fillFromSource_eop : (fillFromSource s).eop = s.eop := rfl
@[simp] theorem fillFromSource_ovr : (fillFromSource s).ovr = s.ovr := rfl
@[simp] theorem fillFromSource_illcmd : (fillFromSource s).illcmd = s.illcmd := rfl
@[simp] theorem fillFromSource_proterr : (fillFromSource s).proterr = s.proterr := rfl
@[simp] theorem fillFromSource_lockStd : (fillFromSource s).lockStd = s.lockStd := rfl
@[simp] theorem fillFromSource_lockFast : (fillFromSource s).lockFast = s.lockFast := rfl
@[simp] theorem fillFromSource_result : (fillFromSource s).result = s.result := rfl
@[simp] theorem fillFromSource_orchPhase : (fillFromSource s).orchPhase = s.orchPhase := rfl
@[simp] theorem fillFromSource_orchKind : (fillFromSource s).orchKind = s.orchKind := rfl
@[simp] theorem fillFromSource_nbrPage : (fillFromSource s).nbrPage = s.nbrPage := rfl
@[simp] theorem fillFromSource_eraseCnt : (fillFromSource s).eraseCnt = s.eraseCnt := rfl
@[simp] theorem fillFromSource_cursor : (fillFromSource s).cursor = s.cursor := rfl
@[simp] theorem fillFromSource_flashStatus : (fillFromSource s).flashStatus = s.flashStatus := rfl
@[simp] theorem fillFromSource_verifyPassed : (fillFromSource s).verifyPassed = s.verifyPassed := rfl
@[simp] theorem fillFromSource_verifyFlag : (fillFromSource s).verifyFlag = s.verifyFlag := rfl
@[simp] theorem fillFromSource_pageIdx : (fillFromSource s).pageIdx = s.pageIdx := rfl
@[simp] theorem fillFromSource_diagPage : (fillFromSource s).diagPage = s.diagPage := rfl
@[simp] theorem fillFromSource_diagStd : (fillFromSource s).diagStd = s.diagStd := rfl
@[simp] theorem fillFromSource_diagBlock : (fillFromSource s).diagBlock = s.diagBlock := rfl
@[simp] theorem fillFromSource_diagRan : (fillFromSource s).diagRan = s.diagRan := rfl
@[simp] theorem fillFromSource_lastProg : (fillFromSource s).lastProg = s.lastProg := rfl
@[simp] theorem fillFromSource_srcbuf : (fillFromSource s).srcbuf = s.srcbuf := rfl
@[simp] theorem fillFromSource_srcWritten : (fillFromSource s).srcWritten = s.srcWritten := rfl
@[simp] theorem fillFromSource_pbuf : (fillFromSource s).pbuf = wordsOf (srcWord s s.draws) := rfl
@[simp] theorem fillFromSource_loaded : (fillFromSource s).loaded = allLoaded := rfl
@[simp] theorem fillFromSource_seq : (fillFromSource s).seq = s.seq := rfl
@[simp] theorem fillFromSource_polls : (fillFromSource s).polls = s.polls := rfl
@[simp] theorem fillFromSource_engine : (fillFromSource s).engine = s.engine := rfl
@[simp] theorem fillFromSource_flash : (fillFromSource s).flash = s.flash := rfl
@[simp] theorem fillFromSource_clkSafe : (fillFromSource s).clkSafe = s.clkSafe := rfl
@[simp] theorem fillFromSource_faults : (fillFromSource s).faults = s.faults := rfl
@[simp] theorem fillFromSource_cfg : (fillFromSource s).cfg = s.cfg := rfl
@[simp] theorem fillFromSource_agenda : (fillFromSource s).agenda = s.agenda := rfl
@[simp] theorem fillFromSource_draws : (fillFromSource s).draws = s.draws + srcDraws := rfl
@[simp] theorem fillFromSource_busData : (fillFromSource s).busData = s.busData := rfl

@[simp] theorem latch_addr (v : Word) (k : Nat) : (latch v k s).addr = s.addr := rfl
@[simp] theorem latch_data0 (v : Word) (k : Nat) : (latch v k s).data0 = s.data0 := rfl
@[simp] theorem latch_data1 (v : Word) (k : Nat) : (latch v k s).data1 = s.data1 := rfl
@[simp] theorem latch_data2 (v : Word) (k : Nat) : (latch v k s).data2 = s.data2 := rfl
@[simp] theorem latch_data3 (v : Word) (k : Nat) : (latch v k s).data3 = s.data3 := rfl
@[simp] theorem latch_timeout (v : Word) (k : Nat) : (latch v k s).timeout = s.timeout := rfl
@[simp] theorem latch_startAddr (v : Word) (k : Nat) : (latch v k s).startAddr = s.startAddr := rfl
@[simp] theorem latch_endAddr (v : Word) (k : Nat) : (latch v k s).endAddr = s.endAddr := rfl
@[simp] theorem latch_pattern (v : Word) (k : Nat) : (latch v k s).pattern = s.pattern := rfl
@[simp] theorem latch_pgerr (v : Word) (k : Nat) : (latch v k s).pgerr = s.pgerr := rfl
@[simp] theorem latch_wrprterr (v : Word) (k : Nat) : (latch v k s).wrprterr = s.wrprterr := rfl
@[simp] theorem latch_eop (v : Word) (k : Nat) : (latch v k s).eop = s.eop := rfl
@[simp] theorem latch_ovr (v : Word) (k : Nat) : (latch v k s).ovr = s.ovr := rfl
@[simp] theorem latch_illcmd (v : Word) (k : Nat) : (latch v k s).illcmd = s.illcmd := rfl
@[simp] theorem latch_proterr (v : Word) (k : Nat) : (latch v k s).proterr = s.proterr := rfl
@[simp] theorem latch_lockStd (v : Word) (k : Nat) : (latch v k s).lockStd = s.lockStd := rfl
@[simp] theorem latch_lockFast (v : Word) (k : Nat) : (latch v k s).lockFast = s.lockFast := rfl
@[simp] theorem latch_result (v : Word) (k : Nat) : (latch v k s).result = s.result := rfl
@[simp] theorem latch_orchPhase (v : Word) (k : Nat) : (latch v k s).orchPhase = s.orchPhase := rfl
@[simp] theorem latch_orchKind (v : Word) (k : Nat) : (latch v k s).orchKind = s.orchKind := rfl
@[simp] theorem latch_nbrPage (v : Word) (k : Nat) : (latch v k s).nbrPage = s.nbrPage := rfl
@[simp] theorem latch_eraseCnt (v : Word) (k : Nat) : (latch v k s).eraseCnt = s.eraseCnt := rfl
@[simp] theorem latch_cursor (v : Word) (k : Nat) : (latch v k s).cursor = s.cursor := rfl
@[simp] theorem latch_flashStatus (v : Word) (k : Nat) : (latch v k s).flashStatus = s.flashStatus := rfl
@[simp] theorem latch_verifyPassed (v : Word) (k : Nat) : (latch v k s).verifyPassed = s.verifyPassed := rfl
@[simp] theorem latch_verifyFlag (v : Word) (k : Nat) : (latch v k s).verifyFlag = s.verifyFlag := rfl
@[simp] theorem latch_pageIdx (v : Word) (k : Nat) : (latch v k s).pageIdx = s.pageIdx := rfl
@[simp] theorem latch_diagPage (v : Word) (k : Nat) : (latch v k s).diagPage = s.diagPage := rfl
@[simp] theorem latch_diagStd (v : Word) (k : Nat) : (latch v k s).diagStd = s.diagStd := rfl
@[simp] theorem latch_diagBlock (v : Word) (k : Nat) : (latch v k s).diagBlock = s.diagBlock := rfl
@[simp] theorem latch_diagRan (v : Word) (k : Nat) : (latch v k s).diagRan = s.diagRan := rfl
@[simp] theorem latch_lastProg (v : Word) (k : Nat) : (latch v k s).lastProg = s.lastProg := rfl
@[simp] theorem latch_srcbuf (v : Word) (k : Nat) : (latch v k s).srcbuf = s.srcbuf := rfl
@[simp] theorem latch_srcWritten (v : Word) (k : Nat) : (latch v k s).srcWritten = s.srcWritten := rfl
@[simp] theorem latch_pbuf (v : Word) (k : Nat) : (latch v k s).pbuf = s.pbuf := rfl
@[simp] theorem latch_loaded (v : Word) (k : Nat) : (latch v k s).loaded = s.loaded := rfl
@[simp] theorem latch_seq (v : Word) (k : Nat) : (latch v k s).seq = s.seq := rfl
@[simp] theorem latch_polls (v : Word) (k : Nat) : (latch v k s).polls = s.polls := rfl
@[simp] theorem latch_engine (v : Word) (k : Nat) : (latch v k s).engine = s.engine := rfl
@[simp] theorem latch_flash (v : Word) (k : Nat) : (latch v k s).flash = s.flash := rfl
@[simp] theorem latch_clkSafe (v : Word) (k : Nat) : (latch v k s).clkSafe = s.clkSafe := rfl
@[simp] theorem latch_faults (v : Word) (k : Nat) : (latch v k s).faults = s.faults := rfl
@[simp] theorem latch_cfg (v : Word) (k : Nat) : (latch v k s).cfg = s.cfg := rfl
@[simp] theorem latch_agenda (v : Word) (k : Nat) : (latch v k s).agenda = s.agenda := rfl
@[simp] theorem latch_draws (v : Word) (k : Nat) : (latch v k s).draws = k := rfl
@[simp] theorem latch_busData (v : Word) (k : Nat) : (latch v k s).busData = v := rfl

@[simp] theorem openDomain_addr (d : Domain) : (openDomain d s).addr = s.addr := rfl
@[simp] theorem openDomain_data0 (d : Domain) : (openDomain d s).data0 = s.data0 := rfl
@[simp] theorem openDomain_data1 (d : Domain) : (openDomain d s).data1 = s.data1 := rfl
@[simp] theorem openDomain_data2 (d : Domain) : (openDomain d s).data2 = s.data2 := rfl
@[simp] theorem openDomain_data3 (d : Domain) : (openDomain d s).data3 = s.data3 := rfl
@[simp] theorem openDomain_timeout (d : Domain) : (openDomain d s).timeout = s.timeout := rfl
@[simp] theorem openDomain_startAddr (d : Domain) : (openDomain d s).startAddr = s.startAddr := rfl
@[simp] theorem openDomain_endAddr (d : Domain) : (openDomain d s).endAddr = s.endAddr := rfl
@[simp] theorem openDomain_pattern (d : Domain) : (openDomain d s).pattern = s.pattern := rfl
@[simp] theorem openDomain_pgerr (d : Domain) : (openDomain d s).pgerr = s.pgerr := rfl
@[simp] theorem openDomain_wrprterr (d : Domain) : (openDomain d s).wrprterr = s.wrprterr := rfl
@[simp] theorem openDomain_eop (d : Domain) : (openDomain d s).eop = s.eop := rfl
@[simp] theorem openDomain_ovr (d : Domain) : (openDomain d s).ovr = s.ovr := rfl
@[simp] theorem openDomain_illcmd (d : Domain) : (openDomain d s).illcmd = s.illcmd := rfl
@[simp] theorem openDomain_proterr (d : Domain) : (openDomain d s).proterr = s.proterr := rfl
@[simp] theorem openDomain_result (d : Domain) : (openDomain d s).result = s.result := rfl
@[simp] theorem openDomain_orchPhase (d : Domain) : (openDomain d s).orchPhase = s.orchPhase := rfl
@[simp] theorem openDomain_orchKind (d : Domain) : (openDomain d s).orchKind = s.orchKind := rfl
@[simp] theorem openDomain_nbrPage (d : Domain) : (openDomain d s).nbrPage = s.nbrPage := rfl
@[simp] theorem openDomain_eraseCnt (d : Domain) : (openDomain d s).eraseCnt = s.eraseCnt := rfl
@[simp] theorem openDomain_cursor (d : Domain) : (openDomain d s).cursor = s.cursor := rfl
@[simp] theorem openDomain_flashStatus (d : Domain) : (openDomain d s).flashStatus = s.flashStatus := rfl
@[simp] theorem openDomain_verifyPassed (d : Domain) : (openDomain d s).verifyPassed = s.verifyPassed := rfl
@[simp] theorem openDomain_verifyFlag (d : Domain) : (openDomain d s).verifyFlag = s.verifyFlag := rfl
@[simp] theorem openDomain_pageIdx (d : Domain) : (openDomain d s).pageIdx = s.pageIdx := rfl
@[simp] theorem openDomain_diagPage (d : Domain) : (openDomain d s).diagPage = s.diagPage := rfl
@[simp] theorem openDomain_diagStd (d : Domain) : (openDomain d s).diagStd = s.diagStd := rfl
@[simp] theorem openDomain_diagBlock (d : Domain) : (openDomain d s).diagBlock = s.diagBlock := rfl
@[simp] theorem openDomain_diagRan (d : Domain) : (openDomain d s).diagRan = s.diagRan := rfl
@[simp] theorem openDomain_srcbuf (d : Domain) : (openDomain d s).srcbuf = s.srcbuf := rfl
@[simp] theorem openDomain_srcWritten (d : Domain) : (openDomain d s).srcWritten = s.srcWritten := rfl
@[simp] theorem openDomain_pbuf (d : Domain) : (openDomain d s).pbuf = s.pbuf := rfl
@[simp] theorem openDomain_loaded (d : Domain) : (openDomain d s).loaded = s.loaded := rfl
@[simp] theorem openDomain_seq (d : Domain) : (openDomain d s).seq = s.seq := rfl
@[simp] theorem openDomain_polls (d : Domain) : (openDomain d s).polls = s.polls := rfl
@[simp] theorem openDomain_engine (d : Domain) : (openDomain d s).engine = s.engine := rfl
@[simp] theorem openDomain_flash (d : Domain) : (openDomain d s).flash = s.flash := rfl
@[simp] theorem openDomain_clkSafe (d : Domain) : (openDomain d s).clkSafe = s.clkSafe := rfl
@[simp] theorem openDomain_faults (d : Domain) : (openDomain d s).faults = s.faults := rfl
@[simp] theorem openDomain_cfg (d : Domain) : (openDomain d s).cfg = s.cfg := rfl
@[simp] theorem openDomain_agenda (d : Domain) : (openDomain d s).agenda = s.agenda := rfl
@[simp] theorem openDomain_draws (d : Domain) : (openDomain d s).draws = s.draws := rfl
@[simp] theorem openDomain_busData (d : Domain) : (openDomain d s).busData = s.busData := rfl

@[simp] theorem openDomain_lockStd (d : Domain) : (openDomain d s).lockStd = if d = .std then false else s.lockStd := rfl
@[simp] theorem openDomain_lockFast (d : Domain) : (openDomain d s).lockFast = if d = .fast then false else s.lockFast := rfl
@[simp] theorem openDomain_lastProg (d : Domain) : (openDomain d s).lastProg = if d = .std ∧ s.lockStd = true then 0 else s.lastProg := rfl

@[simp] theorem setPolls_addr (n : Word) : (setPolls n s).addr = s.addr := rfl
@[simp] theorem setPolls_data0 (n : Word) : (setPolls n s).data0 = s.data0 := rfl
@[simp] theorem setPolls_data1 (n : Word) : (setPolls n s).data1 = s.data1 := rfl
@[simp] theorem setPolls_data2 (n : Word) : (setPolls n s).data2 = s.data2 := rfl
@[simp] theorem setPolls_data3 (n : Word) : (setPolls n s).data3 = s.data3 := rfl
@[simp] theorem setPolls_timeout (n : Word) : (setPolls n s).timeout = s.timeout := rfl
@[simp] theorem setPolls_startAddr (n : Word) : (setPolls n s).startAddr = s.startAddr := rfl
@[simp] theorem setPolls_endAddr (n : Word) : (setPolls n s).endAddr = s.endAddr := rfl
@[simp] theorem setPolls_pattern (n : Word) : (setPolls n s).pattern = s.pattern := rfl
@[simp] theorem setPolls_pgerr (n : Word) : (setPolls n s).pgerr = s.pgerr := rfl
@[simp] theorem setPolls_wrprterr (n : Word) : (setPolls n s).wrprterr = s.wrprterr := rfl
@[simp] theorem setPolls_eop (n : Word) : (setPolls n s).eop = s.eop := rfl
@[simp] theorem setPolls_ovr (n : Word) : (setPolls n s).ovr = s.ovr := rfl
@[simp] theorem setPolls_illcmd (n : Word) : (setPolls n s).illcmd = s.illcmd := rfl
@[simp] theorem setPolls_proterr (n : Word) : (setPolls n s).proterr = s.proterr := rfl
@[simp] theorem setPolls_lockStd (n : Word) : (setPolls n s).lockStd = s.lockStd := rfl
@[simp] theorem setPolls_lockFast (n : Word) : (setPolls n s).lockFast = s.lockFast := rfl
@[simp] theorem setPolls_result (n : Word) : (setPolls n s).result = s.result := rfl
@[simp] theorem setPolls_orchPhase (n : Word) : (setPolls n s).orchPhase = s.orchPhase := rfl
@[simp] theorem setPolls_orchKind (n : Word) : (setPolls n s).orchKind = s.orchKind := rfl
@[simp] theorem setPolls_nbrPage (n : Word) : (setPolls n s).nbrPage = s.nbrPage := rfl
@[simp] theorem setPolls_eraseCnt (n : Word) : (setPolls n s).eraseCnt = s.eraseCnt := rfl
@[simp] theorem setPolls_cursor (n : Word) : (setPolls n s).cursor = s.cursor := rfl
@[simp] theorem setPolls_flashStatus (n : Word) : (setPolls n s).flashStatus = s.flashStatus := rfl
@[simp] theorem setPolls_verifyPassed (n : Word) : (setPolls n s).verifyPassed = s.verifyPassed := rfl
@[simp] theorem setPolls_verifyFlag (n : Word) : (setPolls n s).verifyFlag = s.verifyFlag := rfl
@[simp] theorem setPolls_pageIdx (n : Word) : (setPolls n s).pageIdx = s.pageIdx := rfl
@[simp] theorem setPolls_diagPage (n : Word) : (setPolls n s).diagPage = s.diagPage := rfl
@[simp] theorem setPolls_diagStd (n : Word) : (setPolls n s).diagStd = s.diagStd := rfl
@[simp] theorem setPolls_diagBlock (n : Word) : (setPolls n s).diagBlock = s.diagBlock := rfl
@[simp] theorem setPolls_diagRan (n : Word) : (setPolls n s).diagRan = s.diagRan := rfl
@[simp] theorem setPolls_lastProg (n : Word) : (setPolls n s).lastProg = s.lastProg := rfl
@[simp] theorem setPolls_srcbuf (n : Word) : (setPolls n s).srcbuf = s.srcbuf := rfl
@[simp] theorem setPolls_srcWritten (n : Word) : (setPolls n s).srcWritten = s.srcWritten := rfl
@[simp] theorem setPolls_pbuf (n : Word) : (setPolls n s).pbuf = s.pbuf := rfl
@[simp] theorem setPolls_loaded (n : Word) : (setPolls n s).loaded = s.loaded := rfl
@[simp] theorem setPolls_seq (n : Word) : (setPolls n s).seq = s.seq := rfl
@[simp] theorem setPolls_polls (n : Word) : (setPolls n s).polls = n := rfl
@[simp] theorem setPolls_engine (n : Word) : (setPolls n s).engine = s.engine := rfl
@[simp] theorem setPolls_flash (n : Word) : (setPolls n s).flash = s.flash := rfl
@[simp] theorem setPolls_clkSafe (n : Word) : (setPolls n s).clkSafe = s.clkSafe := rfl
@[simp] theorem setPolls_faults (n : Word) : (setPolls n s).faults = s.faults := rfl
@[simp] theorem setPolls_cfg (n : Word) : (setPolls n s).cfg = s.cfg := rfl
@[simp] theorem setPolls_agenda (n : Word) : (setPolls n s).agenda = s.agenda := rfl
@[simp] theorem setPolls_draws (n : Word) : (setPolls n s).draws = s.draws := rfl
@[simp] theorem setPolls_busData (n : Word) : (setPolls n s).busData = s.busData := rfl

@[simp] theorem flagLocked_addr : (flagLocked s).addr = s.addr := rfl
@[simp] theorem flagLocked_data0 : (flagLocked s).data0 = s.data0 := rfl
@[simp] theorem flagLocked_data1 : (flagLocked s).data1 = s.data1 := rfl
@[simp] theorem flagLocked_data2 : (flagLocked s).data2 = s.data2 := rfl
@[simp] theorem flagLocked_data3 : (flagLocked s).data3 = s.data3 := rfl
@[simp] theorem flagLocked_timeout : (flagLocked s).timeout = s.timeout := rfl
@[simp] theorem flagLocked_startAddr : (flagLocked s).startAddr = s.startAddr := rfl
@[simp] theorem flagLocked_endAddr : (flagLocked s).endAddr = s.endAddr := rfl
@[simp] theorem flagLocked_pattern : (flagLocked s).pattern = s.pattern := rfl
@[simp] theorem flagLocked_pgerr : (flagLocked s).pgerr = s.pgerr := rfl
@[simp] theorem flagLocked_wrprterr : (flagLocked s).wrprterr = true := rfl
@[simp] theorem flagLocked_eop : (flagLocked s).eop = s.eop := rfl
@[simp] theorem flagLocked_ovr : (flagLocked s).ovr = s.ovr := rfl
@[simp] theorem flagLocked_illcmd : (flagLocked s).illcmd = s.illcmd := rfl
@[simp] theorem flagLocked_proterr : (flagLocked s).proterr = s.proterr := rfl
@[simp] theorem flagLocked_lockStd : (flagLocked s).lockStd = s.lockStd := rfl
@[simp] theorem flagLocked_lockFast : (flagLocked s).lockFast = s.lockFast := rfl
@[simp] theorem flagLocked_result : (flagLocked s).result = s.result := rfl
@[simp] theorem flagLocked_orchPhase : (flagLocked s).orchPhase = s.orchPhase := rfl
@[simp] theorem flagLocked_orchKind : (flagLocked s).orchKind = s.orchKind := rfl
@[simp] theorem flagLocked_nbrPage : (flagLocked s).nbrPage = s.nbrPage := rfl
@[simp] theorem flagLocked_eraseCnt : (flagLocked s).eraseCnt = s.eraseCnt := rfl
@[simp] theorem flagLocked_cursor : (flagLocked s).cursor = s.cursor := rfl
@[simp] theorem flagLocked_flashStatus : (flagLocked s).flashStatus = s.flashStatus := rfl
@[simp] theorem flagLocked_verifyPassed : (flagLocked s).verifyPassed = s.verifyPassed := rfl
@[simp] theorem flagLocked_verifyFlag : (flagLocked s).verifyFlag = s.verifyFlag := rfl
@[simp] theorem flagLocked_pageIdx : (flagLocked s).pageIdx = s.pageIdx := rfl
@[simp] theorem flagLocked_diagPage : (flagLocked s).diagPage = s.diagPage := rfl
@[simp] theorem flagLocked_diagStd : (flagLocked s).diagStd = s.diagStd := rfl
@[simp] theorem flagLocked_diagBlock : (flagLocked s).diagBlock = s.diagBlock := rfl
@[simp] theorem flagLocked_diagRan : (flagLocked s).diagRan = s.diagRan := rfl
@[simp] theorem flagLocked_lastProg : (flagLocked s).lastProg = s.lastProg := rfl
@[simp] theorem flagLocked_srcbuf : (flagLocked s).srcbuf = s.srcbuf := rfl
@[simp] theorem flagLocked_srcWritten : (flagLocked s).srcWritten = s.srcWritten := rfl
@[simp] theorem flagLocked_pbuf : (flagLocked s).pbuf = s.pbuf := rfl
@[simp] theorem flagLocked_loaded : (flagLocked s).loaded = s.loaded := rfl
@[simp] theorem flagLocked_seq : (flagLocked s).seq = s.seq := rfl
@[simp] theorem flagLocked_polls : (flagLocked s).polls = s.polls := rfl
@[simp] theorem flagLocked_engine : (flagLocked s).engine = s.engine := rfl
@[simp] theorem flagLocked_flash : (flagLocked s).flash = s.flash := rfl
@[simp] theorem flagLocked_clkSafe : (flagLocked s).clkSafe = s.clkSafe := rfl
@[simp] theorem flagLocked_faults : (flagLocked s).faults = s.faults := rfl
@[simp] theorem flagLocked_cfg : (flagLocked s).cfg = s.cfg := rfl
@[simp] theorem flagLocked_agenda : (flagLocked s).agenda = s.agenda := rfl
@[simp] theorem flagLocked_draws : (flagLocked s).draws = s.draws := rfl
@[simp] theorem flagLocked_busData : (flagLocked s).busData = s.busData := rfl

@[simp] theorem setPolls_lock (n : Word) (d : Domain) : (setPolls n s).lock d = s.lock d := by
  cases d <;> rfl
@[simp] theorem flagLocked_lock (d : Domain) : (flagLocked s).lock d = s.lock d := by
  cases d <;> rfl
@[simp] theorem setPolls_flagResult (n : Word) : flagResult (setPolls n s) = flagResult s := rfl
@[simp] theorem setPolls_outOfOrder (n : Word) (c : FlashCall) :
    outOfOrder c (setPolls n s) = outOfOrder c s := rfl
@[simp] theorem setPolls_setPolls (m n : Word) : setPolls m (setPolls n s) = setPolls m s := rfl
@[simp] theorem setPolls_self : setPolls s.polls s = s := rfl

/-- An opened domain is open, whichever state it was in. -/
@[simp] theorem openDomain_lock (d : Domain) : (openDomain d s).lock d = false := by
  cases d <;> rfl

@[simp] theorem openDomain_lock_other (d : Domain) :
    (openDomain d s).lock d.other = s.lock d.other := by
  cases d <;> rfl

/-- A domain that is open already is left as it is (R115). -/
theorem openDomain_of_open {d : Domain} (h : s.lock d = false) : openDomain d s = s := by
  cases s
  cases d <;> simp_all [openDomain, State.lock]

@[simp] theorem setLock_lock (d : Domain) (b : Bool) : (setLock d b s).lock d = b := by
  cases d <;> rfl

@[simp] theorem setLock_lock_other (d : Domain) (b : Bool) :
    (setLock d b s).lock d.other = s.lock d.other := by
  cases d <;> rfl

@[simp] theorem stdErased_addr (r : OpResult) : (stdErased r s).addr = s.addr := rfl
@[simp] theorem stdErased_data0 (r : OpResult) : (stdErased r s).data0 = s.data0 := rfl
@[simp] theorem stdErased_data1 (r : OpResult) : (stdErased r s).data1 = s.data1 := rfl
@[simp] theorem stdErased_data2 (r : OpResult) : (stdErased r s).data2 = s.data2 := rfl
@[simp] theorem stdErased_data3 (r : OpResult) : (stdErased r s).data3 = s.data3 := rfl
@[simp] theorem stdErased_timeout (r : OpResult) : (stdErased r s).timeout = s.timeout := rfl
@[simp] theorem stdErased_startAddr (r : OpResult) : (stdErased r s).startAddr = s.startAddr := rfl
@[simp] theorem stdErased_endAddr (r : OpResult) : (stdErased r s).endAddr = s.endAddr := rfl
@[simp] theorem stdErased_pattern (r : OpResult) : (stdErased r s).pattern = s.pattern := rfl
@[simp] theorem stdErased_pgerr (r : OpResult) : (stdErased r s).pgerr = s.pgerr := rfl
@[simp] theorem stdErased_wrprterr (r : OpResult) : (stdErased r s).wrprterr = s.wrprterr := rfl
@[simp] theorem stdErased_eop (r : OpResult) : (stdErased r s).eop = s.eop := rfl
@[simp] theorem stdErased_ovr (r : OpResult) : (stdErased r s).ovr = s.ovr := rfl
@[simp] theorem stdErased_illcmd (r : OpResult) : (stdErased r s).illcmd = s.illcmd := rfl
@[simp] theorem stdErased_proterr (r : OpResult) : (stdErased r s).proterr = s.proterr := rfl
@[simp] theorem stdErased_lockStd (r : OpResult) : (stdErased r s).lockStd = s.lockStd := rfl
@[simp] theorem stdErased_lockFast (r : OpResult) : (stdErased r s).lockFast = s.lockFast := rfl
@[simp] theorem stdErased_result (r : OpResult) : (stdErased r s).result = s.result := rfl
@[simp] theorem stdErased_orchPhase (r : OpResult) : (stdErased r s).orchPhase = s.orchPhase := rfl
@[simp] theorem stdErased_orchKind (r : OpResult) : (stdErased r s).orchKind = s.orchKind := rfl
@[simp] theorem stdErased_nbrPage (r : OpResult) : (stdErased r s).nbrPage = s.nbrPage := rfl
@[simp] theorem stdErased_eraseCnt (r : OpResult) : (stdErased r s).eraseCnt = s.eraseCnt + 1 := rfl
@[simp] theorem stdErased_cursor (r : OpResult) : (stdErased r s).cursor = s.cursor := rfl
@[simp] theorem stdErased_flashStatus (r : OpResult) : (stdErased r s).flashStatus = r := rfl
@[simp] theorem stdErased_verifyPassed (r : OpResult) :
    (stdErased r s).verifyPassed = s.verifyPassed := rfl
@[simp] theorem stdErased_verifyFlag (r : OpResult) :
    (stdErased r s).verifyFlag = s.verifyFlag := rfl
@[simp] theorem stdErased_pageIdx (r : OpResult) : (stdErased r s).pageIdx = s.pageIdx := rfl
@[simp] theorem stdErased_diagPage (r : OpResult) : (stdErased r s).diagPage = s.diagPage := rfl
@[simp] theorem stdErased_diagStd (r : OpResult) : (stdErased r s).diagStd = s.diagStd := rfl
@[simp] theorem stdErased_diagBlock (r : OpResult) : (stdErased r s).diagBlock = s.diagBlock := rfl
@[simp] theorem stdErased_diagRan (r : OpResult) : (stdErased r s).diagRan = s.diagRan := rfl
@[simp] theorem stdErased_lastProg (r : OpResult) : (stdErased r s).lastProg = s.lastProg := rfl
@[simp] theorem stdErased_srcbuf (r : OpResult) : (stdErased r s).srcbuf = s.srcbuf := rfl
@[simp] theorem stdErased_srcWritten (r : OpResult) :
    (stdErased r s).srcWritten = s.srcWritten := rfl
@[simp] theorem stdErased_pbuf (r : OpResult) : (stdErased r s).pbuf = s.pbuf := rfl
@[simp] theorem stdErased_loaded (r : OpResult) : (stdErased r s).loaded = s.loaded := rfl
@[simp] theorem stdErased_seq (r : OpResult) : (stdErased r s).seq = s.seq := rfl
@[simp] theorem stdErased_polls (r : OpResult) : (stdErased r s).polls = s.polls := rfl
@[simp] theorem stdErased_engine (r : OpResult) : (stdErased r s).engine = s.engine := rfl
@[simp] theorem stdErased_flash (r : OpResult) : (stdErased r s).flash = s.flash := rfl
@[simp] theorem stdErased_clkSafe (r : OpResult) : (stdErased r s).clkSafe = s.clkSafe := rfl
@[simp] theorem stdErased_faults (r : OpResult) : (stdErased r s).faults = s.faults := rfl
@[simp] theorem stdErased_cfg (r : OpResult) : (stdErased r s).cfg = s.cfg := rfl
@[simp] theorem stdErased_agenda (r : OpResult) : (stdErased r s).agenda = s.agenda := rfl
@[simp] theorem stdErased_draws (r : OpResult) : (stdErased r s).draws = s.draws := rfl
@[simp] theorem stdErased_busData (r : OpResult) : (stdErased r s).busData = s.busData := rfl

@[simp] theorem stdProgrammed_addr (r : OpResult) : (stdProgrammed r s).addr = s.addr := rfl
@[simp] theorem stdProgrammed_data0 (r : OpResult) : (stdProgrammed r s).data0 = s.data0 := rfl
@[simp] theorem stdProgrammed_data1 (r : OpResult) : (stdProgrammed r s).data1 = s.data1 := rfl
@[simp] theorem stdProgrammed_data2 (r : OpResult) : (stdProgrammed r s).data2 = s.data2 := rfl
@[simp] theorem stdProgrammed_data3 (r : OpResult) : (stdProgrammed r s).data3 = s.data3 := rfl
@[simp] theorem stdProgrammed_timeout (r : OpResult) :
    (stdProgrammed r s).timeout = s.timeout := rfl
@[simp] theorem stdProgrammed_startAddr (r : OpResult) :
    (stdProgrammed r s).startAddr = s.startAddr := rfl
@[simp] theorem stdProgrammed_endAddr (r : OpResult) :
    (stdProgrammed r s).endAddr = s.endAddr := rfl
@[simp] theorem stdProgrammed_pattern (r : OpResult) :
    (stdProgrammed r s).pattern = s.pattern := rfl
@[simp] theorem stdProgrammed_pgerr (r : OpResult) : (stdProgrammed r s).pgerr = s.pgerr := rfl
@[simp] theorem stdProgrammed_wrprterr (r : OpResult) :
    (stdProgrammed r s).wrprterr = s.wrprterr := rfl
@[simp] theorem stdProgrammed_eop (r : OpResult) : (stdProgrammed r s).eop = s.eop := rfl
@[simp] theorem stdProgrammed_ovr (r : OpResult) : (stdProgrammed r s).ovr = s.ovr := rfl
@[simp] theorem stdProgrammed_illcmd (r : OpResult) : (stdProgrammed r s).illcmd = s.illcmd := rfl
@[simp] theorem stdProgrammed_proterr (r : OpResult) :
    (stdProgrammed r s).proterr = s.proterr := rfl
@[simp] theorem stdProgrammed_lockStd (r : OpResult) :
    (stdProgrammed r s).lockStd = s.lockStd := rfl
@[simp] theorem stdProgrammed_lockFast (r : OpResult) :
    (stdProgrammed r s).lockFast = s.lockFast := rfl
@[simp] theorem stdProgrammed_result (r : OpResult) : (stdProgrammed r s).result = s.result := rfl
@[simp] theorem stdProgrammed_orchPhase (r : OpResult) :
    (stdProgrammed r s).orchPhase = s.orchPhase := rfl
@[simp] theorem stdProgrammed_orchKind (r : OpResult) :
    (stdProgrammed r s).orchKind = s.orchKind := rfl
@[simp] theorem stdProgrammed_nbrPage (r : OpResult) :
    (stdProgrammed r s).nbrPage = s.nbrPage := rfl
@[simp] theorem stdProgrammed_eraseCnt (r : OpResult) :
    (stdProgrammed r s).eraseCnt = s.eraseCnt := rfl
@[simp] theorem stdProgrammed_cursor (r : OpResult) :
    (stdProgrammed r s).cursor = s.cursor + 2 := rfl
@[simp] theorem stdProgrammed_flashStatus (r : OpResult) :
    (stdProgrammed r s).flashStatus = r := rfl
@[simp] theorem stdProgrammed_verifyPassed (r : OpResult) :
    (stdProgrammed r s).verifyPassed = s.verifyPassed := rfl
@[simp] theorem stdProgrammed_verifyFlag (r : OpResult) :
    (stdProgrammed r s).verifyFlag = s.verifyFlag := rfl
@[simp] theorem stdProgrammed_pageIdx (r : OpResult) :
    (stdProgrammed r s).pageIdx = s.pageIdx := rfl
@[simp] theorem stdProgrammed_diagPage (r : OpResult) :
    (stdProgrammed r s).diagPage = s.diagPage := rfl
@[simp] theorem stdProgrammed_diagStd (r : OpResult) :
    (stdProgrammed r s).diagStd = s.diagStd := rfl
@[simp] theorem stdProgrammed_diagBlock (r : OpResult) :
    (stdProgrammed r s).diagBlock = s.diagBlock := rfl
@[simp] theorem stdProgrammed_diagRan (r : OpResult) :
    (stdProgrammed r s).diagRan = s.diagRan := rfl
@[simp] theorem stdProgrammed_lastProg (r : OpResult) :
    (stdProgrammed r s).lastProg = s.lastProg := rfl
@[simp] theorem stdProgrammed_srcbuf (r : OpResult) : (stdProgrammed r s).srcbuf = s.srcbuf := rfl
@[simp] theorem stdProgrammed_srcWritten (r : OpResult) :
    (stdProgrammed r s).srcWritten = s.srcWritten := rfl
@[simp] theorem stdProgrammed_pbuf (r : OpResult) : (stdProgrammed r s).pbuf = s.pbuf := rfl
@[simp] theorem stdProgrammed_loaded (r : OpResult) : (stdProgrammed r s).loaded = s.loaded := rfl
@[simp] theorem stdProgrammed_seq (r : OpResult) : (stdProgrammed r s).seq = s.seq := rfl
@[simp] theorem stdProgrammed_polls (r : OpResult) : (stdProgrammed r s).polls = s.polls := rfl
@[simp] theorem stdProgrammed_engine (r : OpResult) : (stdProgrammed r s).engine = s.engine := rfl
@[simp] theorem stdProgrammed_flash (r : OpResult) : (stdProgrammed r s).flash = s.flash := rfl
@[simp] theorem stdProgrammed_clkSafe (r : OpResult) :
    (stdProgrammed r s).clkSafe = s.clkSafe := rfl
@[simp] theorem stdProgrammed_faults (r : OpResult) : (stdProgrammed r s).faults = s.faults := rfl
@[simp] theorem stdProgrammed_cfg (r : OpResult) : (stdProgrammed r s).cfg = s.cfg := rfl
@[simp] theorem stdProgrammed_agenda (r : OpResult) : (stdProgrammed r s).agenda = s.agenda := rfl
@[simp] theorem stdProgrammed_draws (r : OpResult) : (stdProgrammed r s).draws = s.draws := rfl
@[simp] theorem stdProgrammed_busData (r : OpResult) :
    (stdProgrammed r s).busData = s.busData := rfl

@[simp] theorem fastProgrammed_addr (r : OpResult) : (fastProgrammed r s).addr = s.addr := rfl
@[simp] theorem fastProgrammed_data0 (r : OpResult) : (fastProgrammed r s).data0 = s.data0 := rfl
@[simp] theorem fastProgrammed_data1 (r : OpResult) : (fastProgrammed r s).data1 = s.data1 := rfl
@[simp] theorem fastProgrammed_data2 (r : OpResult) : (fastProgrammed r s).data2 = s.data2 := rfl
@[simp] theorem fastProgrammed_data3 (r : OpResult) : (fastProgrammed r s).data3 = s.data3 := rfl
@[simp] theorem fastProgrammed_timeout (r : OpResult) :
    (fastProgrammed r s).timeout = s.timeout := rfl
@[simp] theorem fastProgrammed_startAddr (r : OpResult) :
    (fastProgrammed r s).startAddr = s.startAddr := rfl
@[simp] theorem fastProgrammed_endAddr (r : OpResult) :
    (fastProgrammed r s).endAddr = s.endAddr := rfl
@[simp] theorem fastProgrammed_pattern (r : OpResult) :
    (fastProgrammed r s).pattern = s.pattern := rfl
@[simp] theorem fastProgrammed_pgerr (r : OpResult) : (fastProgrammed r s).pgerr = s.pgerr := rfl
@[simp] theorem fastProgrammed_wrprterr (r : OpResult) :
    (fastProgrammed r s).wrprterr = s.wrprterr := rfl
@[simp] theorem fastProgrammed_eop (r : OpResult) : (fastProgrammed r s).eop = s.eop := rfl
@[simp] theorem fastProgrammed_ovr (r : OpResult) : (fastProgrammed r s).ovr = s.ovr := rfl
@[simp] theorem fastProgrammed_illcmd (r : OpResult) : (fastProgrammed r s).illcmd = s.illcmd := rfl
@[simp] theorem fastProgrammed_proterr (r : OpResult) :
    (fastProgrammed r s).proterr = s.proterr := rfl
@[simp] theorem fastProgrammed_lockStd (r : OpResult) :
    (fastProgrammed r s).lockStd = s.lockStd := rfl
@[simp] theorem fastProgrammed_lockFast (r : OpResult) :
    (fastProgrammed r s).lockFast = s.lockFast := rfl
@[simp] theorem fastProgrammed_result (r : OpResult) : (fastProgrammed r s).result = s.result := rfl
@[simp] theorem fastProgrammed_orchPhase (r : OpResult) :
    (fastProgrammed r s).orchPhase = s.orchPhase := rfl
@[simp] theorem fastProgrammed_orchKind (r : OpResult) :
    (fastProgrammed r s).orchKind = s.orchKind := rfl
@[simp] theorem fastProgrammed_nbrPage (r : OpResult) :
    (fastProgrammed r s).nbrPage = s.nbrPage := rfl
@[simp] theorem fastProgrammed_eraseCnt (r : OpResult) :
    (fastProgrammed r s).eraseCnt = s.eraseCnt := rfl
@[simp] theorem fastProgrammed_cursor (r : OpResult) : (fastProgrammed r s).cursor = s.cursor := rfl
@[simp] theorem fastProgrammed_flashStatus (r : OpResult) :
    (fastProgrammed r s).flashStatus = r := rfl
@[simp] theorem fastProgrammed_verifyPassed (r : OpResult) :
    (fastProgrammed r s).verifyPassed = s.verifyPassed := rfl
@[simp] theorem fastProgrammed_verifyFlag (r : OpResult) :
    (fastProgrammed r s).verifyFlag = s.verifyFlag := rfl
@[simp] theorem fastProgrammed_pageIdx (r : OpResult) :
    (fastProgrammed r s).pageIdx = s.pageIdx + 1 := rfl
@[simp] theorem fastProgrammed_diagPage (r : OpResult) :
    (fastProgrammed r s).diagPage = s.diagPage := rfl
@[simp] theorem fastProgrammed_diagStd (r : OpResult) :
    (fastProgrammed r s).diagStd = s.diagStd := rfl
@[simp] theorem fastProgrammed_diagBlock (r : OpResult) :
    (fastProgrammed r s).diagBlock = s.diagBlock := rfl
@[simp] theorem fastProgrammed_diagRan (r : OpResult) :
    (fastProgrammed r s).diagRan = s.diagRan := rfl
@[simp] theorem fastProgrammed_lastProg (r : OpResult) :
    (fastProgrammed r s).lastProg = s.lastProg := rfl
@[simp] theorem fastProgrammed_srcbuf (r : OpResult) : (fastProgrammed r s).srcbuf = s.srcbuf := rfl
@[simp] theorem fastProgrammed_srcWritten (r : OpResult) :
    (fastProgrammed r s).srcWritten = s.srcWritten := rfl
@[simp] theorem fastProgrammed_pbuf (r : OpResult) : (fastProgrammed r s).pbuf = s.pbuf := rfl
@[simp] theorem fastProgrammed_loaded (r : OpResult) : (fastProgrammed r s).loaded = s.loaded := rfl
@[simp] theorem fastProgrammed_seq (r : OpResult) : (fastProgrammed r s).seq = s.seq := rfl
@[simp] theorem fastProgrammed_polls (r : OpResult) : (fastProgrammed r s).polls = s.polls := rfl
@[simp] theorem fastProgrammed_engine (r : OpResult) : (fastProgrammed r s).engine = s.engine := rfl
@[simp] theorem fastProgrammed_flash (r : OpResult) : (fastProgrammed r s).flash = s.flash := rfl
@[simp] theorem fastProgrammed_clkSafe (r : OpResult) :
    (fastProgrammed r s).clkSafe = s.clkSafe := rfl
@[simp] theorem fastProgrammed_faults (r : OpResult) : (fastProgrammed r s).faults = s.faults := rfl
@[simp] theorem fastProgrammed_cfg (r : OpResult) : (fastProgrammed r s).cfg = s.cfg := rfl
@[simp] theorem fastProgrammed_agenda (r : OpResult) : (fastProgrammed r s).agenda = s.agenda := rfl
@[simp] theorem fastProgrammed_draws (r : OpResult) : (fastProgrammed r s).draws = s.draws := rfl
@[simp] theorem fastProgrammed_busData (r : OpResult) :
    (fastProgrammed r s).busData = s.busData := rfl

@[simp] theorem writePattern_addr : (writePattern s).addr = s.addr := rfl
@[simp] theorem writePattern_data0 : (writePattern s).data0 = s.data0 := rfl
@[simp] theorem writePattern_data1 : (writePattern s).data1 = s.data1 := rfl
@[simp] theorem writePattern_data2 : (writePattern s).data2 = s.data2 := rfl
@[simp] theorem writePattern_data3 : (writePattern s).data3 = s.data3 := rfl
@[simp] theorem writePattern_timeout : (writePattern s).timeout = s.timeout := rfl
@[simp] theorem writePattern_startAddr : (writePattern s).startAddr = s.startAddr := rfl
@[simp] theorem writePattern_endAddr : (writePattern s).endAddr = s.endAddr := rfl
@[simp] theorem writePattern_pattern : (writePattern s).pattern = s.pattern := rfl
@[simp] theorem writePattern_pgerr : (writePattern s).pgerr = s.pgerr := rfl
@[simp] theorem writePattern_wrprterr : (writePattern s).wrprterr = s.wrprterr := rfl
@[simp] theorem writePattern_eop : (writePattern s).eop = s.eop := rfl
@[simp] theorem writePattern_ovr : (writePattern s).ovr = s.ovr := rfl
@[simp] theorem writePattern_illcmd : (writePattern s).illcmd = s.illcmd := rfl
@[simp] theorem writePattern_proterr : (writePattern s).proterr = s.proterr := rfl
@[simp] theorem writePattern_lockStd : (writePattern s).lockStd = s.lockStd := rfl
@[simp] theorem writePattern_lockFast : (writePattern s).lockFast = s.lockFast := rfl
@[simp] theorem writePattern_result : (writePattern s).result = s.result := rfl
@[simp] theorem writePattern_orchPhase : (writePattern s).orchPhase = s.orchPhase := rfl
@[simp] theorem writePattern_orchKind : (writePattern s).orchKind = s.orchKind := rfl
@[simp] theorem writePattern_nbrPage : (writePattern s).nbrPage = s.nbrPage := rfl
@[simp] theorem writePattern_eraseCnt : (writePattern s).eraseCnt = s.eraseCnt := rfl
@[simp] theorem writePattern_cursor : (writePattern s).cursor = s.cursor := rfl
@[simp] theorem writePattern_flashStatus : (writePattern s).flashStatus = s.flashStatus := rfl
@[simp] theorem writePattern_verifyPassed : (writePattern s).verifyPassed = s.verifyPassed := rfl
@[simp] theorem writePattern_verifyFlag : (writePattern s).verifyFlag = s.verifyFlag := rfl
@[simp] theorem writePattern_pageIdx : (writePattern s).pageIdx = s.pageIdx := rfl
@[simp] theorem writePattern_diagPage : (writePattern s).diagPage = s.diagPage := rfl
@[simp] theorem writePattern_diagStd : (writePattern s).diagStd = s.diagStd := rfl
@[simp] theorem writePattern_diagBlock : (writePattern s).diagBlock = s.diagBlock := rfl
@[simp] theorem writePattern_diagRan : (writePattern s).diagRan = s.diagRan := rfl
@[simp] theorem writePattern_lastProg : (writePattern s).lastProg = s.lastProg := rfl
@[simp] theorem writePattern_srcbuf : (writePattern s).srcbuf = wordsOf (BitVec.ofNat 32) := rfl
@[simp] theorem writePattern_srcWritten : (writePattern s).srcWritten = BitVec.allOnes 64 := rfl
@[simp] theorem writePattern_pbuf : (writePattern s).pbuf = s.pbuf := rfl
@[simp] theorem writePattern_loaded : (writePattern s).loaded = s.loaded := rfl
@[simp] theorem writePattern_seq : (writePattern s).seq = s.seq := rfl
@[simp] theorem writePattern_polls : (writePattern s).polls = s.polls := rfl
@[simp] theorem writePattern_engine : (writePattern s).engine = s.engine := rfl
@[simp] theorem writePattern_flash : (writePattern s).flash = s.flash := rfl
@[simp] theorem writePattern_clkSafe : (writePattern s).clkSafe = s.clkSafe := rfl
@[simp] theorem writePattern_faults : (writePattern s).faults = s.faults := rfl
@[simp] theorem writePattern_cfg : (writePattern s).cfg = s.cfg := rfl
@[simp] theorem writePattern_agenda : (writePattern s).agenda = s.agenda := rfl
@[simp] theorem writePattern_draws : (writePattern s).draws = s.draws := rfl
@[simp] theorem writePattern_busData : (writePattern s).busData = s.busData := rfl

@[simp] theorem fastEnter_addr : (fastEnter s).addr = s.addr := rfl
@[simp] theorem fastEnter_data0 : (fastEnter s).data0 = s.data0 := rfl
@[simp] theorem fastEnter_data1 : (fastEnter s).data1 = s.data1 := rfl
@[simp] theorem fastEnter_data2 : (fastEnter s).data2 = s.data2 := rfl
@[simp] theorem fastEnter_data3 : (fastEnter s).data3 = s.data3 := rfl
@[simp] theorem fastEnter_timeout : (fastEnter s).timeout = s.timeout := rfl
@[simp] theorem fastEnter_startAddr : (fastEnter s).startAddr = s.startAddr := rfl
@[simp] theorem fastEnter_endAddr : (fastEnter s).endAddr = s.endAddr := rfl
@[simp] theorem fastEnter_pattern : (fastEnter s).pattern = s.pattern := rfl
@[simp] theorem fastEnter_pgerr : (fastEnter s).pgerr = s.pgerr := rfl
@[simp] theorem fastEnter_wrprterr : (fastEnter s).wrprterr = s.wrprterr := rfl
@[simp] theorem fastEnter_eop : (fastEnter s).eop = s.eop := rfl
@[simp] theorem fastEnter_ovr : (fastEnter s).ovr = s.ovr := rfl
@[simp] theorem fastEnter_illcmd : (fastEnter s).illcmd = s.illcmd := rfl
@[simp] theorem fastEnter_proterr : (fastEnter s).proterr = s.proterr := rfl
@[simp] theorem fastEnter_lockStd : (fastEnter s).lockStd = s.lockStd := rfl
@[simp] theorem fastEnter_lockFast : (fastEnter s).lockFast = s.lockFast := rfl
@[simp] theorem fastEnter_result : (fastEnter s).result = s.result := rfl
@[simp] theorem fastEnter_orchPhase : (fastEnter s).orchPhase = s.orchPhase := rfl
@[simp] theorem fastEnter_orchKind : (fastEnter s).orchKind = .fast := rfl
@[simp] theorem fastEnter_nbrPage : (fastEnter s).nbrPage = s.nbrPage := rfl
@[simp] theorem fastEnter_eraseCnt : (fastEnter s).eraseCnt = s.eraseCnt := rfl
@[simp] theorem fastEnter_cursor : (fastEnter s).cursor = s.cursor := rfl
@[simp] theorem fastEnter_flashStatus : (fastEnter s).flashStatus = s.flashStatus := rfl
@[simp] theorem fastEnter_verifyPassed : (fastEnter s).verifyPassed = s.verifyPassed := rfl
@[simp] theorem fastEnter_verifyFlag : (fastEnter s).verifyFlag = s.verifyFlag := rfl
@[simp] theorem fastEnter_pageIdx : (fastEnter s).pageIdx = s.pageIdx := rfl
@[simp] theorem fastEnter_diagPage : (fastEnter s).diagPage = .complete := rfl
@[simp] theorem fastEnter_diagStd : (fastEnter s).diagStd = .complete := rfl
@[simp] theorem fastEnter_diagBlock : (fastEnter s).diagBlock = .complete := rfl
@[simp] theorem fastEnter_diagRan : (fastEnter s).diagRan = false := rfl
@[simp] theorem fastEnter_lastProg : (fastEnter s).lastProg = s.lastProg := rfl
@[simp] theorem fastEnter_srcbuf : (fastEnter s).srcbuf = s.srcbuf := rfl
@[simp] theorem fastEnter_srcWritten : (fastEnter s).srcWritten = s.srcWritten := rfl
@[simp] theorem fastEnter_pbuf : (fastEnter s).pbuf = s.pbuf := rfl
@[simp] theorem fastEnter_loaded : (fastEnter s).loaded = s.loaded := rfl
@[simp] theorem fastEnter_seq : (fastEnter s).seq = s.seq := rfl
@[simp] theorem fastEnter_polls : (fastEnter s).polls = s.polls := rfl
@[simp] theorem fastEnter_engine : (fastEnter s).engine = s.engine := rfl
@[simp] theorem fastEnter_flash : (fastEnter s).flash = s.flash := rfl
@[simp] theorem fastEnter_clkSafe : (fastEnter s).clkSafe = s.clkSafe := rfl
@[simp] theorem fastEnter_faults : (fastEnter s).faults = s.faults := rfl
@[simp] theorem fastEnter_cfg : (fastEnter s).cfg = s.cfg := rfl
@[simp] theorem fastEnter_agenda : (fastEnter s).agenda = s.agenda := rfl
@[simp] theorem fastEnter_draws : (fastEnter s).draws = s.draws := rfl
@[simp] theorem fastEnter_busData : (fastEnter s).busData = s.busData := rfl

end Sys2Proof.Machine
end

