-- ==== Sys2Proof/Laws/Ops.lean ====
section
/-!
SUPPORT. What the shared procedures can do, said once: the busy-wait, DoFlashOp from its beginning and
from a poll, the engine's completion, reads of the array.
-/

namespace Sys2Proof.Machine

/-! ## Lock domains -/

theorem lock_other_std (s : State) : s.lock Domain.std.other = s.lockFast := rfl
theorem lock_other_fast (s : State) : s.lock Domain.fast.other = s.lockStd := rfl
theorem lock_std (s : State) : s.lock .std = s.lockStd := rfl
theorem lock_fast (s : State) : s.lock .fast = s.lockFast := rfl

theorem unlockThen_of_locked {d : Domain} {s : State} (k : State → State)
    (h : s.lock d.other = true) : unlockThen d k s = k (openDomain d s) := by
  simp [unlockThen, h]

theorem unlockThen_of_open {d : Domain} {s : State} (k : State → State)
    (h : s.lock d.other = false) : unlockThen d k s = raiseFault .unlockOther s := by
  simp [unlockThen, h]

/-! ## The busy-wait -/

/-- The monitor never answers Busy or TimedOut (R106). -/
theorem flagResult_cases (s : State) :
    flagResult s = .complete ∨ flagResult s = .programError ∨ flagResult s = .writeProtectError := by
  unfold flagResult
  split
  · simp
  · split <;> simp

theorem flagResult_eq_complete {s : State} :
    flagResult s = .complete ↔ s.pgerr = false ∧ s.wrprterr = false := by
  cases hp : s.pgerr <;> cases hw : s.wrprterr <;> simp [flagResult, hp, hw]

theorem flagResult_of_clear {s : State} (hp : s.pgerr = false) (hw : s.wrprterr = false) :
    flagResult s = .complete := flagResult_eq_complete.2 ⟨hp, hw⟩

theorem flagResult_ne_busy (s : State) : flagResult s ≠ .busy := by
  rcases flagResult_cases s with h | h | h <;> simp [h]

theorem pollOnce_idle {s : State} (h : s.engine = .idle) :
    pollOnce s = (some (flagResult s), s) := by
  simp [pollOnce, h]

theorem pollOnce_busy {s : State} {op : Op} {b : Bool} (h : s.engine = .inFlight op b) :
    pollOnce s = if s.timeout ≠ 0 ∧ s.polls = s.timeout then (some .timedOut, s)
      else (none, setPolls (s.polls + 1) s) := by
  simp [pollOnce, h]

/-- The busy-wait returns a result without touching the state, or counts a poll. -/
theorem pollOnce_cases (s : State) :
    (s.engine = .idle ∧ pollOnce s = (some (flagResult s), s)) ∨
    (s.engine ≠ .idle ∧ pollOnce s = (some .timedOut, s)) ∨
    (s.engine ≠ .idle ∧ pollOnce s = (none, setPolls (s.polls + 1) s)) := by
  cases h : s.engine with
  | idle => exact .inl ⟨rfl, pollOnce_idle h⟩
  | inFlight op b =>
    rw [pollOnce_busy h]
    split <;> simp

theorem beginWait_idle {s : State} (h : s.engine = .idle) :
    beginWait s = (some (flagResult s), setPolls 0 s) :=
  pollOnce_idle h

/-- The final wait after an issue makes its first poll in the issuing step: the engine is busy, and
no bound is reached before the first poll (R107, R109). -/
theorem finalWait_issue (c : FlashCall) (s : State) :
    finalWait (beginWait (issue c s)) = .poll .final (setPolls 1 (issue c s)) := by
  have h : (setPolls 0 (issue c s)).engine = .inFlight c.op false := rfl
  rw [beginWait, pollOnce_busy h]
  rw [if_neg (fun hc => hc.1 hc.2.symm)]
  rfl

/-! ## DoFlashOp -/

/-- How one step inside DoFlashOp can end, from state s. Only `issued` touches the engine, and only
with the engine idle, the flags clear, the clock window established, the domain open and the other one
locked. -/
inductive CallEnd (c : FlashCall) (s : State) : Call → Prop
  | fault (r : FaultReason) (p : Word) : CallEnd c s (.stopped (raiseFault r (setPolls p s)))
  | waiting (w : WaitKind) (p : Word) : s.engine ≠ .idle →
      CallEnd c s (.poll w (setPolls p s))
  | issued (p : Word) : s.engine = .idle → s.pgerr = false → s.wrprterr = false →
      s.clkSafe = true → s.lock c.dom = false → s.lock c.dom.other = true →
      outOfOrder c s = false →
      CallEnd c s (.poll .final (setPolls 1 (issue c s)))
  | locked (p : Word) : s.lock c.dom = true →
      CallEnd c s (.ret .writeProtectError (flagLocked (setPolls p s)))
  | result (r : OpResult) (p : Word) : r ≠ .busy → CallEnd c s (.ret r (setPolls p s))

theorem issueOp_end {c : FlashCall} {s : State} {p : Word} (he : s.engine = .idle)
    (hf : flagResult s = .complete) : CallEnd c s (issueOp c (setPolls p s)) := by
  obtain ⟨hp, hw⟩ := flagResult_eq_complete.1 hf
  unfold issueOp
  split
  · exact .fault _ _
  · next hclk =>
    split
    · exact .fault _ _
    · next hboth =>
      split
      · next hl => exact .locked p hl
      · next hl =>
        split
        · exact .fault _ _
        · next ho =>
          rw [finalWait_issue]
          have hl : s.lock c.dom = false := by simpa using hl
          have ho' : s.lock c.dom.other = true := by
            cases hd : c.dom <;> rw [hd] at hl <;>
              simp_all [State.lock, Domain.other]
          exact .issued p he hp hw (by simpa using hclk) hl ho' (by simpa using ho)

theorem preWait_end {c : FlashCall} {s : State} {p : Word} :
    CallEnd c s (preWait c (pollOnce (setPolls p s))) := by
  rcases pollOnce_cases (setPolls p s) with ⟨he, h⟩ | ⟨he, h⟩ | ⟨he, h⟩
  · rw [h]
    simp only [preWait]
    split
    · next hf => exact issueOp_end he hf
    · exact .result _ _ (flagResult_ne_busy _)
  · rw [h]
    simp only [preWait]
    rw [if_neg (by simp)]
    exact .result _ _ (by simp)
  · rw [h]
    exact .waiting _ _ he

/-- DoFlashOp from its beginning (R109). -/
theorem startFlashOp_end (c : FlashCall) (s : State) : CallEnd c s (startFlashOp c s) := by
  unfold startFlashOp
  split
  · exact preWait_end
  · exact .fault .addr s.polls

/-- DoFlashOp from a poll (R102, R109). -/
theorem resumeFlashOp_end (c : FlashCall) (w : WaitKind) (s : State) :
    CallEnd c s (resumeFlashOp c w s) := by
  cases w with
  | pre => exact preWait_end (p := s.polls)
  | final =>
    rcases pollOnce_cases s with ⟨he, h⟩ | ⟨he, h⟩ | ⟨he, h⟩
    · simp only [resumeFlashOp, h]
      exact .result _ s.polls (flagResult_ne_busy _)
    · simp only [resumeFlashOp, h]
      exact .result _ s.polls (by simp)
    · simp only [resumeFlashOp, h]
      exact .waiting _ _ he

/-- A block that is ready issues the operation and makes its first poll (R107 to R109). -/
theorem startFlashOp_ready {c : FlashCall} {s : State}
    (ha : addrOk s c.op.base c.op.size c.align = true) (he : s.engine = .idle)
    (hp : s.pgerr = false) (hw : s.wrprterr = false) (hc : s.clkSafe = true)
    (hl : s.lock c.dom = false) (ho : s.lock c.dom.other = true) (hord : outOfOrder c s = false) :
    startFlashOp c s = .poll .final (setPolls 1 (issue c s)) := by
  have hf : flagResult (setPolls 0 s) = .complete := flagResult_of_clear hp hw
  have hboth : ¬(s.lockStd = false ∧ s.lockFast = false) := by
    cases hd : c.dom <;> rw [hd] at ho <;> simp_all [State.lock, Domain.other]
  simp only [startFlashOp, ha, if_true, beginWait_idle he, preWait]
  simp only [setPolls_flagResult] at hf ⊢
  simp only [hf, if_true, issueOp, setPolls_clkSafe, hc, setPolls_lockStd, setPolls_lockFast, hboth,
    setPolls_lock, hl, setPolls_outOfOrder, hord, finalWait_issue]
  rfl

/-- A final wait that finds the engine idle returns what the flags say (R106, R107). -/
theorem resumeFlashOp_final_idle {c : FlashCall} {s : State} (h : s.engine = .idle) :
    resumeFlashOp c .final s = .ret (flagResult s) s := by
  simp [resumeFlashOp, pollOnce_idle h, finalWait]

@[simp] theorem andThen_ret (i : Instr) (p : WaitKind → Point) (k : OpResult → State → State)
    (r : OpResult) (s : State) : (Call.ret r s).andThen i p k = k r s := rfl
@[simp] theorem andThen_poll (i : Instr) (p : WaitKind → Point) (k : OpResult → State → State)
    (w : WaitKind) (s : State) : (Call.poll w s).andThen i p k = suspend i (p w) s := rfl
@[simp] theorem andThen_stopped (i : Instr) (p : WaitKind → Point) (k : OpResult → State → State)
    (s : State) : (Call.stopped s).andThen i p k = s := rfl

/-- A stale error is returned by the pre-wait of a call whose address is right (R109). -/
theorem startFlashOp_stale {c : FlashCall} {s : State}
    (ha : addrOk s c.op.base c.op.size c.align = true) (he : s.engine = .idle)
    (h : flagResult s ≠ .complete) : startFlashOp c s = .ret (flagResult s) (setPolls 0 s) := by
  simp [startFlashOp, ha, beginWait_idle he, preWait, h]

/-- DoFlashOp from its beginning in a command that finishes with its result: what is left of the
checks after the address, in their order, and what each leaves (R105 to R109, R122, R217). -/
theorem startFlashOp_finish {i : Instr} {c : FlashCall} {s : State}
    (ha : addrOk s c.op.base c.op.size c.align = true) :
    (startFlashOp c s).andThen i .wait finish =
      (if s.engine ≠ .idle then { s with polls := 1, seq := .exec i (.wait .pre) }
      else if s.pgerr then { s with polls := 0, result := .programError, seq := .idle }
      else if s.wrprterr then { s with polls := 0, result := .writeProtectError, seq := .idle }
      else if s.clkSafe = false then raiseFault .clk { s with polls := 0 }
      else if s.lockStd = false ∧ s.lockFast = false then raiseFault .both { s with polls := 0 }
      else if s.lock c.dom then
        { s with polls := 0, wrprterr := true, result := .writeProtectError, seq := .idle }
      else if outOfOrder c s then raiseFault .order { s with polls := 0 }
      else { issue c s with polls := 1, seq := .exec i (.wait .final) }) := by
  rw [startFlashOp, if_pos ha]
  cases he : s.engine with
  | inFlight op b =>
    have hb : (setPolls 0 s).engine = .inFlight op b := he
    simp only [beginWait, pollOnce_busy hb]
    rw [if_neg (by rintro ⟨h1, h2⟩; exact h1 h2.symm), if_pos (by simp)]
    simp [preWait, suspend, setPolls, he]
  | idle =>
    rw [if_neg (by simp), beginWait_idle he]
    simp only [preWait]
    cases hp : s.pgerr
    swap
    · simp [flagResult, hp, finish, setPolls, he]
    cases hw : s.wrprterr
    swap
    · simp [flagResult, hp, hw, finish, setPolls, he]
    simp only [flagResult, hp, hw, Bool.false_eq_true, if_false, if_true, issueOp]
    simp only [setPolls_clkSafe, setPolls_lockStd, setPolls_lockFast, setPolls_lock,
      setPolls_outOfOrder]
    split
    · simp [raiseFault, setPolls, hp, hw, he]
    · split
      · simp [raiseFault, setPolls, hp, hw, he]
      · split
        · simp [finish, setPolls, flagLocked, hp, hw, he]
        · split
          · next h => simp [h, raiseFault, setPolls, hp, hw, he]
          · next h =>
            simp only [finalWait_issue, if_neg h, andThen_poll]
            simp [issue, setPolls, suspend, hp, hw, he, lastProgAfter, loadedAfter]

/-! ## The engine -/

theorem engineStep_idle {s : State} (h : s.engine = .idle) : engineStep s = s := by
  simp [engineStep, h]

theorem engineStep_busy {s : State} {op : Op} {b : Bool} (h : s.engine = .inFlight op b) :
    engineStep s = completeOp op b s := by
  simp [engineStep, h]

/-- An operation fails, is refused, or succeeds (R111 to R113). -/
theorem completeOp_cases (op : Op) (b : Bool) (s : State) :
    completeOp op b s = failOp op s ∨ completeOp op b s = refuseOp s ∨
      completeOp op b s = succeedOp op s := by
  unfold completeOp
  split
  · simp
  · split
    · simp
    · split
      · simp
      · split <;> simp

@[simp] theorem indetCells_length (op : Op) : op.indetCells.length = op.size := by
  simp [Op.indetCells]

@[simp] theorem cells_length (op : Op) : op.cells.length = op.size := by
  cases op <;> simp [Op.cells, Op.size, pageBytes]

theorem targets_iff (op : Op) (a : Nat) :
    op.targets a = true ↔ op.base ≤ a ∧ a < op.base + op.size := by
  simp [Op.targets]

/-- "no cell changes" outside an operation's target, whatever its outcome (R111, R112). -/
theorem completeOp_cell_outside (op : Op) (b : Bool) (s : State) {x : Nat}
    (h : op.targets x = false) : (completeOp op b s).flash.cell x = s.flash.cell x := by
  have hx : ¬(op.base ≤ x ∧ x < op.base + op.size) := by
    rw [← targets_iff, h]; simp
  rcases completeOp_cases op b s with hc | hc | hc <;> rw [hc]
  · simpa using Memory.cell_write_outside (by simpa using hx)
  · rfl
  · simpa using Memory.cell_write_outside (by simpa using hx)

/-- The engine is idle after a completion (R110). -/
@[simp] theorem completeOp_engine (op : Op) (b : Bool) (s : State) :
    (completeOp op b s).engine = .idle := by
  rcases completeOp_cases op b s with hc | hc | hc <;> rw [hc] <;> rfl

/-! ## Reads of the array -/

theorem byteRead_erased {s : State} {a : Nat} (k : Nat) (h : s.underOp a = false)
    (hc : s.flash.cell a = .erased) : byteRead s k a = (s.cfg.erasedRead a, k) := by
  simp [byteRead, h, hc]

theorem byteRead_val {s : State} {a : Nat} {b : Byte} (k : Nat) (h : s.underOp a = false)
    (hc : s.flash.cell a = .val b) : byteRead s k a = (b, k) := by
  simp [byteRead, h, hc]

theorem byteRead_draw {s : State} {a : Nat} (k : Nat)
    (h : s.underOp a = true ∨ s.flash.cell a = .indet) :
    byteRead s k a = (Config.draw k, k + 1) := by
  unfold byteRead
  split
  · rfl
  · next hu => rcases h with h | h <;> simp_all

theorem underOp_idle {s : State} (h : s.engine = .idle) (a : Nat) : s.underOp a = false := by
  simp [State.underOp, h]

/-! ## Buffers -/

theorem bufWord_wordsOf (f : Nat → Word) {j : Nat} (h : j < 64) : bufWord (wordsOf f) j = f j := by
  simp [bufWord, wordsOf, h]

@[simp] theorem pageBytes_length (w : Vector Word 64) : (pageBytes w).length = 256 := by
  simp [pageBytes]

theorem pageBytes_getElem (w : Vector Word 64) {i : Nat} (h : i < 256) :
    (pageBytes w)[i]? = some (wordByte (bufWord w (i / 4)) (i % 4)) := by
  simp [pageBytes, h]

end Sys2Proof.Machine
end

