-- ==== Sys2Proof/Laws/Bus.lean ====
section
/-!
SUPPORT. Host accesses of the register window, and reads of the array byte by byte.
-/

namespace Sys2Proof.Machine

/-- What R9 and R61 ask of the parameters, as linear facts. -/
theorem wf_bounds {p : Params} (h : p.wf = true) : p.seqBase % 512 = 0 ∧ p.seqBase + 512 ≤ 2^32 ∧
    p.flashBase % 32768 = 0 ∧ p.flashSize % 32768 = 0 ∧ p.flashBase ≤ 0x08008000 ∧
      0x08010000 ≤ p.flashEnd ∧ p.flashEnd < 2^32 := by
  simp [Params.wf] at h
  obtain ⟨⟨⟨⟨⟨⟨h1, h2⟩, h3⟩, h4⟩, h5⟩, h6⟩, h7⟩ := h
  exact ⟨h1, by omega, h3, h4, h5, h6, by omega⟩

/-- A register of the window has the address SEQ_BASE + offset, without wrapping (R22). -/
theorem reg_toNat {p : Params} (h : p.wf = true) {off : Nat} (ho : off < 0x200) :
    (p.reg off).toNat = p.seqBase + off := by
  have := wf_bounds h
  simp only [Params.reg, BitVec.toNat_ofNat]
  omega

/-- R60. -/
theorem inWindow_iff {p : Params} {a : Nat} : p.inWindow a = true ↔ p.seqBase ≤ a ∧
    a < p.seqBase + 512 := by simp [Params.inWindow]

/-- R60. -/
theorem inFlashWindow_iff {p : Params} {a : Nat} : p.inFlashWindow a = true ↔ p.flashBase ≤ a ∧
    a < p.flashEnd := by simp [Params.inFlashWindow]

/-- A host write to an aligned register, in the host's turn (R64, R101). -/
theorem step_hostWrite {s : State} {off : Nat} {v : Word} {rest : List Turn} (h : s.cfg.wf = true)
    (ho : off < 0x200) (h4 : off % 4 = 0)
    (ha : s.agenda = s.wr off v :: rest) :
    step s = if s.seqbsy then .next { s with agenda := rest, ovr := true } else .next
      (regWrite off v { s with agenda := rest }) := by
  have hb := wf_bounds h
  simp only [step, ha, State.wr, takeTurn, hostAct, memWrite, reg_toNat h ho, Params.inWindow]
  have : (s.cfg.seqBase + off) % 4 = 0 := by omega
  cases hs : s.seq <;> simp [this, ho, State.seqbsy, hs]

/-- A host read of an aligned register, in the host's turn (R63). -/
theorem step_hostRead {s : State} {off : Nat} {rest : List Turn} (h : s.cfg.wf = true)
    (ho : off < 0x200) (h4 : off % 4 = 0)
    (ha : s.agenda = s.rd off :: rest) :
    step s = .next { s with
      agenda  := rest
      busData := regRead s off
      draws   := s.draws + regDraws off } := by
  have hb := wf_bounds h
  simp only [step, ha, State.rd, takeTurn, hostAct, memRead, reg_toNat h ho, Params.inWindow]
  have : (s.cfg.seqBase + off) % 4 = 0 := by omega
  simp [this, ho, latch]
  rfl

/-- SRCBUF is read at 0x100 and above (R22). -/
theorem regRead_source (s : State) {off : Nat}
    (h : 0x100 ≤ off) : regRead s off = srcWord s s.draws ((off - 0x100)/4) := by
  unfold regRead
  split <;> first | (exfalso; omega) | skip
  rw [if_pos h]; rfl

/-- SRCBUF is written at 0x100 and above (R22). -/
theorem regWrite_source (s : State) (v : Word) {off : Nat}
    (h : 0x100 ≤ off) : regWrite off v s = writeSource ((off - 0x100)/4) v s := by
  unfold regWrite
  split <;> first | (exfalso; omega) | skip
  rw [if_pos h]; rfl

/-- The bits of a word with one bit. -/
theorem bitAt_getLsbD (b : Bool) (i k : Nat) (h : i < 32) : (bitAt b i).getLsbD k =
    (b && k == i) := by
  cases b
  · simp [bitAt]
  · simp [bitAt]
    rw [Bool.eq_iff_iff]; simp; omega

/-- The lower half of a word, zero-extended. -/
theorem half_zeroExtend (v : Word) : (v.extractLsb' 0 16).setWidth 32 = v &&& 0x0000FFFF := by
  apply BitVec.eq_of_toNat_eq
  have : v.toNat &&& 65535 = v.toNat % 65536 := Nat.and_two_pow_sub_one_eq_mod _ 16
  simp [this]
  omega

/-- A read of a byte looks at the engine, the array and the parameters only (R66). -/
theorem byteRead_congr {s t : State} {k a : Nat} (h1 : s.engine = t.engine)
    (h2 : s.flash = t.flash) (h3 : s.cfg = t.cfg) : byteRead s k a = byteRead t k a := by
  unfold byteRead State.underOp; rw [h1, h2, h3]

/-- So does a read of several bytes (R66). -/
theorem arrRead_congr {s t : State} (h1 : s.engine = t.engine) (h2 : s.flash = t.flash)
    (h3 : s.cfg = t.cfg) : ∀ n k a, arrRead s k a n = arrRead t k a n := by
  intro n
  induction n with
  | zero => intros; rfl
  | succ n ih => intro k a; simp only [arrRead, byteRead_congr h1 h2 h3, ih]

/-- A byte that is no draw reads as it is, and draws nothing (R66, R67). -/
theorem byteRead_settled {s : State} {k a : Nat} {b : Byte}
    (h : s.settledByte a = some b) : byteRead s k a = (b, k) := by
  unfold State.settledByte at h
  unfold byteRead
  split at h
  · cases h
  · next hu =>
    rw [if_neg hu]
    split at h <;> simp_all

/-- A byte below a number of bytes. -/
theorem mul_add_lt {x N b : Nat} (h : x < N) (hb : b < 256) : x * 256 + b < N * 256 := by omega

/-- A read of bytes that are no draws is little-endian and draws nothing (R65, R66). -/
theorem arrRead_settled {s : State} (k : Nat) : ∀ (n a : Nat) (b : Nat → Byte), n ≤ 4 → (∀ i < n,
    s.settledByte (a + i) = some (b i)) →
   (arrRead s k a n).2 = k ∧ (arrRead s k a n).1.toNat < 256 ^ n ∧ ∀ i < n, wordByte
     (arrRead s k a n).1 i = b i := by
  intro n
  induction n with
  | zero => intro a b _ _; simp [arrRead]
  | succ n ih =>
    intro a b hn h
    have h0 : byteRead s k a = (b 0, k) := byteRead_settled (h 0 (by omega))
    obtain ⟨i1, i2, i3⟩ := ih (a+1) (fun i => b (i+1)) (by omega) (fun i hi => by rw [← h (i+1) (by omega)]; congr 1; omega)
    simp only [arrRead, h0]
    refine ⟨i1, ?_, ?_⟩
    · have hlt : (arrRead s k (a+1) n).1.toNat * 256 < 256 ^ (n+1) := by rw [pow_succ]; omega
      have hle : 256 ^ (n+1) ≤ 2^32 := by
        have : n + 1 ≤ 4 := hn
        calc 256 ^ (n+1) ≤ 256 ^ 4 := Nat.pow_le_pow_right (by decide) this
          _ = 2^32 := by decide
      have : ((arrRead s k (a+1) n).1 <<< 8 ||| (b 0).zeroExtend 32).toNat = (arrRead s k
        (a+1) n).1.toNat * 256 + (b 0).toNat := by
        have hb : (b 0).toNat < 2^8 := (b 0).isLt
        rw [BitVec.toNat_or, BitVec.toNat_shiftLeft, BitVec.toNat_setWidth, Nat.shiftLeft_eq]
        rw [Nat.mod_eq_of_lt (by omega), Nat.mod_eq_of_lt (a := (b 0).toNat) (by omega)]
        rw [show (arrRead s k (a+1) n).1.toNat * 2^8 = 2^8 * (arrRead s k
          (a+1) n).1.toNat from Nat.mul_comm _ _, ← Nat.two_pow_add_eq_or_of_lt hb]; omega
      rw [this]
      have hb : (b 0).toNat < 256 := (b 0).isLt
      have hpow : 256^(n+1) = 256^n * 256 := pow_succ 256 n
      rw [hpow]
      exact mul_add_lt i2 hb
    · intro i hi
      rcases i with _ | i
      · simp only [wordByte]
        ext j hj
        have : ¬ (8 * 0 + j ≥ 8) := by omega
        simp [hj]; exact fun _ => by omega
      · rw [← i3 i (by omega)]
        simp only [wordByte]
        ext j hj
        simp
        have h2 : ¬ (8 * (i+1) + j < 8) := by omega
        have h3 : 8 * (i+1) + j - 8 = 8 * i + j := by omega
        have h4 : 8 * (i+1) + j < 32 := by omega
        rw [h3]; simp [h4]
        have : (b 0).getLsbD (8 * (i+1) + j) = false := BitVec.getLsbD_of_ge _ _ (by omega)
        simp [this]; omega

/-- A word is told by its four bytes. -/
theorem word_of_bytes {v w : Word} (h : ∀ i < 4, wordByte v i = wordByte w i) : v = w := by
  apply BitVec.eq_of_getLsbD_eq
  intro i hi
  have := congrArg (fun b => b.getLsbD (i % 8)) (h (i/8) (by omega))
  simp only [wordByte, BitVec.getLsbD_extractLsb'] at this
  rw [show 8 * (i/8) + i % 8 = i by omega] at this
  simpa [show i % 8 < 8 by omega] using this

/-- The upper bytes of a short read are 0 (R66). -/
theorem wordByte_high {v : Word} {n : Nat} (h : v.toNat < 256^n) {i : Nat}
    (hi : n ≤ i) : wordByte v i = 0 := by
  apply BitVec.eq_of_toNat_eq
  simp only [wordByte, BitVec.extractLsb'_toNat, Nat.shiftRight_eq_div_pow]
  have : v.toNat < 2 ^ (8 * i) := by
    calc v.toNat < 256^n := h
      _ ≤ 256^i := Nat.pow_le_pow_right (by decide) hi
      _ = 2^(8*i) := by rw [show 256 = 2^8 from rfl, ← pow_mul]
  rw [Nat.div_eq_of_lt this]; rfl

/-- A half-word read equals v exactly when its two bytes do (R176). -/
theorem halfRead_eq_iff {v : Half} {b : Nat → Byte} {w : Word} (h1 : w.toNat < 256^2)
    (h2 : ∀ i < 2, wordByte w i = b i) : w = v.zeroExtend 32 ↔ b 0 = v.extractLsb' 0 8 ∧
      b 1 = v.extractLsb' 8 8 := by
  rw [← h2 0 (by decide), ← h2 1 (by decide)]
  constructor
  · rintro rfl
    constructor <;> (apply BitVec.eq_of_getLsbD_eq; intro i hi; simp [wordByte, hi]; try omega)
  · rintro ⟨a1, a2⟩
    apply word_of_bytes
    intro i hi
    by_cases h : i < 2
    · interval_cases i
      · rw [a1]; apply BitVec.eq_of_getLsbD_eq; intro i hi; simp [wordByte, hi]; try omega
      · rw [a2]; apply BitVec.eq_of_getLsbD_eq; intro i hi; simp [wordByte, hi]; try omega
    · rw [wordByte_high h1 (by omega)]
      apply BitVec.eq_of_getLsbD_eq; intro j hj; 
      have : ¬ (8 * i + j < 16) := by omega
      simp [wordByte, hj]
      exact fun _ => BitVec.getLsbD_of_ge _ _ (by omega)

/-- A move of the host changes no cell, and of the engine at most the mark of its clock window (R64,
R70, R113). -/
theorem hostAct_keeps {a : HostAct} {s t : State} (h : hostAct a s = .next t) :
    t.flash = s.flash ∧ (t.engine = s.engine ∨ t.engine = spoil s.engine) := by
  cases a with
  | read a n =>
    simp only [hostAct, memRead] at h
    repeat' split at h
    all_goals (first | (injection h with h; subst h; simp) | cases h)
  | write a n v =>
    simp only [hostAct, memWrite] at h
    repeat' split at h
    all_goals (first | (injection h with h; subst h) | cases h)
    · simp
    · unfold regWrite acceptCmd writeStatr writeSource
      repeat' split
      all_goals simp
    · simp
    · simp
  | clk b =>
    simp only [hostAct, driveClk] at h
    injection h with h; subst h
    split <;> simp

end Sys2Proof.Machine
end

