-- ==== Sys2Proof/Laws/Encoding.lean ====
section
/-!
SUPPORT. Laws of the encoding: a word and its fields say the same, the fields of a command are legal,
and a command is read back from its fields.
-/

namespace Sys2Proof

/-- A word made of fields holds those fields (R80). -/
theorem fieldsOfWord_word (f : Cmd32) : fieldsOfWord f.word = f := by
  obtain ⟨opc, dom, nodiag, rsv⟩ := f
  simp only [fieldsOfWord, Cmd32.word, Cmd32.mk.injEq]
  refine ⟨?_, ?_, ?_, ?_⟩
  · ext i hi
    have h1 : i < 32 := by omega
    have h2 : i < 10 := by omega
    have h3 : i < 9 := by omega
    simp [hi, h2, h3]
    exact fun _ => h1
  · simp
  · simp
  · ext i hi
    have h1 : 10 + i < 32 := by omega
    have h2 : ¬ (10 + i - 9 = 0) := by omega
    have h3 : ¬ (10 + i - 8 = 0) := by omega
    simp [h1, h2, h3, hi, BitVec.getLsbD_of_ge opc (10 + i) (by omega)]

/-- A word has no bits but those of its fields (R80). -/
theorem word_fieldsOfWord (w : Word) : (fieldsOfWord w).word = w := by
  apply BitVec.eq_of_getLsbD_eq
  intro i hi
  have h : i < 8 ∨ i = 8 ∨ i = 9 ∨ ∃ j, j < 22 ∧ i = 10 + j := by
    by_cases h : i < 10
    · omega
    · exact .inr (.inr (.inr ⟨i - 10, by omega, by omega⟩))
  rcases h with h | rfl | rfl | ⟨j, hj, rfl⟩
  · have h2 : i < 10 := by omega
    have h3 : i < 9 := by omega
    simp [fieldsOfWord, Cmd32.word, h, h2, h3]
    exact fun _ => hi
  · simp [fieldsOfWord, Cmd32.word]
  · simp [fieldsOfWord, Cmd32.word]
  · have h1 : 10 + j < 32 := by omega
    have h2 : ¬ (10 + j - 9 = 0) := by omega
    have h3 : ¬ (10 + j - 8 = 0) := by omega
    have h4 : ¬ (10 + j < 8) := by omega
    simp [fieldsOfWord, Cmd32.word, h1, h2, h3, hj, h4]

/-- The fields a command is written with are the fields its word holds. -/
theorem fieldsOfWord_encode (i : Instr) : fieldsOfWord (encode i) = i.fields :=
  fieldsOfWord_word i.fields

end Sys2Proof
end

