-- ==== Sys2Proof/Laws/Step.lean ====
section
/-!
SUPPORT. What a step is: a turn of one agent, on a state that differs in the model's own fields only.
-/

namespace Sys2Proof.Machine

/-- Every step is a turn taken on the state with its agenda and its count of draws moved on. -/
theorem step_is_turn (s : State) :
    ∃ t g d, step s = takeTurn t { s with agenda := g, draws := d } := by
  unfold step
  split
  · unfold silentTurn
    split
    · split
      · exact ⟨.engine, s.agenda, s.draws + 1, rfl⟩
      · exact ⟨.sequencer, s.agenda, s.draws + 1, rfl⟩
    · split
      · exact ⟨.sequencer, s.agenda, s.draws, rfl⟩
      · exact ⟨.engine, s.agenda, s.draws, rfl⟩
  · next t rest h => exact ⟨t, rest, s.draws, rfl⟩

/-- Every command answers a next state, whatever the state and its position: a protocol fault is a
next state (R215). -/
theorem exec_next (i : Instr) (s : State) : ∃ t, exec i s = .next t := by
  cases i <;> exact ⟨_, rfl⟩

/-- The sequencer's turn with a command running is a step of that command (R102). -/
theorem sequencerTurn_exec {s : State} {i : Instr} {p : Point} (h : s.seq = .exec i p) :
    sequencerTurn s = exec i s := by
  simp [sequencerTurn, h]

end Sys2Proof.Machine
end

