-- ==== Sys2Proof/Laws/Parts.lean ====
section
/-!
SUPPORT. What a step of a command can do, said once: every step of every command is a sequence of the
parts listed here, of which none touches the engine, and may end by issuing an operation. A property
that each part and the issue keep is kept by every step.
-/

namespace Sys2Proof.Machine

/-- One part of an atomic step of a command. -/
inductive Part (s : State) : State → Prop
  /-- The orchestrators' registers, the pattern buffer, and draws made by reads of the array. -/
  | registers (kind : RunKind) (phase : Phase) (pages count cur : Word) (status : OpResult)
      (passed flag : Bool) (idx : Word) (d1 d2 d3 : OpResult) (ran : Bool) (src : Vector Word 64)
      (written : BitVec 64) (k : Nat) :
      Part s { s with
        orchKind := kind, orchPhase := phase, nbrPage := pages, eraseCnt := count, cursor := cur,
        flashStatus := status, verifyPassed := passed, verifyFlag := flag, pageIdx := idx,
        diagPage := d1, diagStd := d2, diagBlock := d3, diagRan := ran, srcbuf := src,
        srcWritten := written, draws := k }
  /-- The page buffer, its loaded bits, and draws made by looks at SRCBUF. -/
  | buffer (words : Vector Word 64) (bits : BitVec 64) (k : Nat) :
      Part s { s with pbuf := words, loaded := bits, draws := k }
  | polled (p : Word) : Part s (setPolls p s)
  | fault (r : FaultReason) : Part s (raiseFault r s)
  | locked (d : Domain) : Part s (setLock d true s)
  | opened (d : Domain) : s.lock d.other = true → Part s (openDomain d s)
  | cleared : Part s (clearBody s)
  | flagged : Part s (flagLocked s)
  | stands (i : Instr) (p : Point) : Part s (suspend i p s)
  | finished (r : OpResult) : Part s (finish r s)

/-- A sequence of parts. -/
abbrev Parts : State → State → Prop := Relation.ReflTransGen Part

theorem Parts.one {s t : State} (h : Part s t) : Parts s t := .single h

/-- How a step of a command ends: after some parts, or after some parts and the issue of an operation
in its own domain, with the first poll of the final wait (R105 to R109). -/
inductive StepEnd (s : State) : State → Prop
  | quiet {t : State} : Parts s t → StepEnd s t
  | issued {t : State} (c : FlashCall) (i : Instr) (p : Point) : Parts s t → c.dom = c.op.dom →
      t.engine = .idle → t.pgerr = false → t.wrprterr = false → t.clkSafe = true →
      t.lock c.dom = false → t.lock c.dom.other = true →
      StepEnd s (suspend i p (setPolls 1 (issue c t)))

theorem StepEnd.after {s t u : State} (h : Parts s t) (hu : StepEnd t u) : StepEnd s u := by
  cases hu with
  | quiet h2 => exact .quiet (h.trans h2)
  | issued c i p h2 h3 h4 h5 h6 h7 h8 h9 => exact .issued c i p (h.trans h2) h3 h4 h5 h6 h7 h8 h9

theorem StepEnd.one {s t : State} (h : Part s t) : StepEnd s t := .quiet (.one h)

/-- No part touches the engine. -/
theorem Part.engine_eq {s t : State} (h : Part s t) : t.engine = s.engine := by
  cases h <;> simp

theorem Parts.engine_eq {s t : State} (h : Parts s t) : t.engine = s.engine := by
  induction h with
  | refl => rfl
  | tail _ h ih => exact h.engine_eq.trans ih

/-- One step inside DoFlashOp, and what its command does with the end of it, ends as a step does where
what the command goes on with does. -/
theorem ends_andThen {c : FlashCall} {s : State} {e : Call} (h : CallEnd c s e)
    (hd : c.dom = c.op.dom) (i : Instr) (p : WaitKind → Point) {k : OpResult → State → State}
    (hk : ∀ r t, StepEnd t (k r t)) : StepEnd s (e.andThen i p k) := by
  have polled (q : Word) : Parts s (setPolls q s) := Parts.one (.polled q)
  cases h with
  | fault r q => exact .quiet ((polled q).tail (.fault r))
  | waiting w q _ => exact .quiet ((polled q).tail (.stands i (p w)))
  | issued q he hp hw hc hl ho _ => exact .issued c i (p .final) .refl hd he hp hw hc hl ho
  | locked q _ => exact .after ((polled q).tail .flagged) (hk _ _)
  | result r q _ => exact .after (polled q) (hk _ _)

theorem ends_start {c : FlashCall} {s : State} (hd : c.dom = c.op.dom) (i : Instr)
    (p : WaitKind → Point) {k : OpResult → State → State} (hk : ∀ r t, StepEnd t (k r t)) :
    StepEnd s ((startFlashOp c s).andThen i p k) :=
  ends_andThen (startFlashOp_end c s) hd i p hk

theorem ends_resume {c : FlashCall} {w : WaitKind} {s : State} (hd : c.dom = c.op.dom) (i : Instr)
    (p : WaitKind → Point) {k : OpResult → State → State} (hk : ∀ r t, StepEnd t (k r t)) :
    StepEnd s ((resumeFlashOp c w s).andThen i p k) :=
  ends_andThen (resumeFlashOp_end c w s) hd i p hk

theorem ends_finish (r : OpResult) (s : State) : StepEnd s (finish r s) := .one (.finished r)

theorem ends_unlockThen {d : Domain} {s : State} {k : State → State}
    (hk : ∀ t, StepEnd t (k t)) : StepEnd s (unlockThen d k s) := by
  unfold unlockThen
  split
  · exact .one (.fault _)
  · next h => exact .after (.one (.opened d (by simpa using h))) (hk _)

theorem ends_bufGate {s : State} {k : State → State} (hk : StepEnd s (k s)) :
    StepEnd s (bufGate k s) := by
  unfold bufGate
  split
  · exact .quiet ((Parts.one .flagged).tail (.finished _))
  · exact hk

/-- A primitive erase or program command. -/
theorem ends_flashCommand (i : Instr) {c : FlashCall} (hd : c.dom = c.op.dom) (s : State) :
    StepEnd s (flashCommand i c s) := by
  unfold flashCommand
  split
  · exact ends_resume hd i .wait ends_finish
  · exact ends_start hd i .wait ends_finish

theorem ends_programPage {s : State} {n : Nat} (i : Instr) (p : WaitKind → Point)
    {k : OpResult → State → State} (hk : ∀ r t, StepEnd t (k r t)) :
    StepEnd s ((programPageStart n s).andThen i p k) := by
  unfold programPageStart
  split
  · split
    · exact .after (.one .flagged) (hk _ _)
    · exact .after (.one (.buffer _ _ _)) (ends_start rfl i p hk)
  · exact .one (.fault _)

theorem parts_wait (s : State) : Parts s ((waitStep s).andThen .wait .wait finish) := by
  unfold waitStep
  split
  · rcases pollOnce_cases s with ⟨_, h⟩ | ⟨_, h⟩ | ⟨_, h⟩ <;> rw [h]
    · exact Parts.one (.finished _)
    · exact Parts.one (.finished _)
    · exact (Parts.one (.polled _)).tail (.stands _ _)
  · rcases pollOnce_cases (setPolls 0 s) with ⟨_, h⟩ | ⟨_, h⟩ | ⟨_, h⟩ <;>
      simp only [beginWait, h, finalWait]
    · exact (Parts.one (.polled 0)).tail (.finished _)
    · exact (Parts.one (.polled 0)).tail (.finished _)
    · exact ((Parts.one (.polled 0)).tail (.polled _)).tail (.stands _ _)

/-! ## RUN_STANDARD -/

theorem parts_stdLock (s : State) : Parts s (stdLock s) := by
  unfold stdLock
  exact (((Parts.one (.registers s.orchKind .locking s.nbrPage s.eraseCnt s.cursor s.flashStatus
    s.verifyPassed s.verifyFlag s.pageIdx s.diagPage s.diagStd s.diagBlock s.diagRan s.srcbuf
    s.srcWritten s.draws)).tail (.locked .std)).tail (.registers s.orchKind .done s.nbrPage s.eraseCnt
    s.cursor s.flashStatus s.verifyPassed s.verifyFlag s.pageIdx s.diagPage s.diagStd s.diagBlock
    s.diagRan s.srcbuf s.srcWritten s.draws)).tail (.finished _)

theorem parts_stdVerify (s : State) : Parts s (stdVerify s) := by
  unfold stdVerify
  exact .trans (Parts.one (.registers s.orchKind .verifying s.nbrPage s.eraseCnt _ s.flashStatus _
    s.verifyFlag s.pageIdx s.diagPage s.diagStd s.diagBlock s.diagRan s.srcbuf s.srcWritten _))
    (parts_stdLock _)

theorem parts_stdProgrammed (r : OpResult) (s : State) : Part s (stdProgrammed r s) :=
  .registers s.orchKind s.orchPhase s.nbrPage s.eraseCnt _ _ s.verifyPassed s.verifyFlag s.pageIdx
    s.diagPage s.diagStd s.diagBlock s.diagRan s.srcbuf s.srcWritten s.draws

theorem ends_stdProgramLoop (n : Nat) : ∀ s, StepEnd s (stdProgramLoop n s) := by
  induction n with
  | zero => exact fun s => .quiet (parts_stdVerify s)
  | succ n ih =>
    intro s
    unfold stdProgramLoop
    split
    · exact ends_start rfl _ _ fun r t => .after (Parts.one (parts_stdProgrammed r t)) (ih _)
    · exact .quiet (parts_stdVerify s)

theorem ends_stdProgram (s : State) : StepEnd s (stdProgram s) :=
  .after (Parts.one (.registers s.orchKind .programming s.nbrPage s.eraseCnt s.startAddr s.flashStatus
    s.verifyPassed s.verifyFlag s.pageIdx s.diagPage s.diagStd s.diagBlock s.diagRan s.srcbuf
    s.srcWritten s.draws)) (ends_stdProgramLoop _ _)

theorem parts_stdErased (r : OpResult) (s : State) : Part s (stdErased r s) :=
  .registers s.orchKind s.orchPhase s.nbrPage _ s.cursor _ s.verifyPassed s.verifyFlag s.pageIdx
    s.diagPage s.diagStd s.diagBlock s.diagRan s.srcbuf s.srcWritten s.draws

theorem ends_stdEraseLoop (n : Nat) : ∀ s, StepEnd s (stdEraseLoop n s) := by
  induction n with
  | zero => exact ends_stdProgram
  | succ n ih =>
    intro s
    unfold stdEraseLoop
    split
    · exact ends_start rfl _ _ fun r t => .after (Parts.one (parts_stdErased r t)) (ih _)
    · exact ends_stdProgram s

theorem ends_stdErase (s : State) : StepEnd s (stdErase s) :=
  .after ((Parts.one .cleared).tail (.registers s.orchKind .erasing _ 0 s.cursor .complete
    s.verifyPassed s.verifyFlag s.pageIdx s.diagPage s.diagStd s.diagBlock s.diagRan s.srcbuf
    s.srcWritten s.draws)) (ends_stdEraseLoop _ _)

theorem ends_stdStep (s : State) : StepEnd s (stdStep s) := by
  unfold stdStep
  split
  · exact ends_resume rfl _ _ fun r t =>
      .after (Parts.one (parts_stdErased r t)) (ends_stdEraseLoop _ _)
  · exact ends_resume rfl _ _ fun r t =>
      .after (Parts.one (parts_stdProgrammed r t)) (ends_stdProgramLoop _ _)
  · unfold stdStart
    have hk : Part s { s with orchKind := .standard } :=
      .registers .standard s.orchPhase s.nbrPage s.eraseCnt s.cursor s.flashStatus s.verifyPassed
        s.verifyFlag s.pageIdx s.diagPage s.diagStd s.diagBlock s.diagRan s.srcbuf s.srcWritten
        s.draws
    have hu : Parts s (setPhase .unlocking { s with orchKind := .standard }) :=
      Parts.one (.registers .standard .unlocking s.nbrPage s.eraseCnt s.cursor s.flashStatus
        s.verifyPassed s.verifyFlag s.pageIdx s.diagPage s.diagStd s.diagBlock s.diagRan s.srcbuf
        s.srcWritten s.draws)
    dsimp only
    split
    · exact .after hu (ends_unlockThen ends_stdErase)
    · exact .quiet ((Parts.one hk).tail (.fault _))

/-! ## RUN_FAST -/

theorem parts_fastLock (s : State) : Parts s (fastLock s) := by
  unfold fastLock
  exact (((Parts.one (.registers s.orchKind .locking s.nbrPage s.eraseCnt s.cursor s.flashStatus
    s.verifyPassed s.verifyFlag s.pageIdx s.diagPage s.diagStd s.diagBlock s.diagRan s.srcbuf
    s.srcWritten s.draws)).tail (.locked .fast)).tail (.registers s.orchKind .done s.nbrPage
    s.eraseCnt s.cursor s.flashStatus s.verifyPassed s.verifyFlag s.pageIdx s.diagPage s.diagStd
    s.diagBlock s.diagRan s.srcbuf s.srcWritten s.draws)).tail (.finished _)

theorem parts_diagBlockDone (r : OpResult) (s : State) : Parts s (diagBlockDone r s) :=
  .trans (Parts.one (.registers s.orchKind s.orchPhase s.nbrPage s.eraseCnt s.cursor s.flashStatus
    s.verifyPassed s.verifyFlag s.pageIdx s.diagPage s.diagStd _ _ s.srcbuf s.srcWritten s.draws))
    (parts_fastLock _)

theorem ends_diagStdDone (nodiag : Bool) (r : OpResult) (s : State) :
    StepEnd s (diagStdDone nodiag r s) := by
  unfold diagStdDone
  exact .after ((Parts.one (.registers s.orchKind s.orchPhase s.nbrPage s.eraseCnt s.cursor
    s.flashStatus s.verifyPassed s.verifyFlag s.pageIdx s.diagPage _ s.diagBlock s.diagRan s.srcbuf
    s.srcWritten s.draws)).tail (.locked .std))
    (ends_unlockThen fun _ => ends_start rfl _ _ fun r t => .quiet (parts_diagBlockDone r t))

theorem ends_diagPageDone (nodiag : Bool) (r : OpResult) (s : State) :
    StepEnd s (diagPageDone nodiag r s) := by
  unfold diagPageDone
  exact .after ((Parts.one (.registers s.orchKind s.orchPhase s.nbrPage s.eraseCnt s.cursor
    s.flashStatus s.verifyPassed s.verifyFlag s.pageIdx _ s.diagStd s.diagBlock s.diagRan s.srcbuf
    s.srcWritten s.draws)).tail (.locked .fast))
    (ends_unlockThen fun _ => ends_start rfl _ _ fun r t => ends_diagStdDone nodiag r t)

theorem ends_fastDiag (nodiag : Bool) (s : State) : StepEnd s (fastDiag nodiag s) := by
  unfold fastDiag
  split
  · exact .quiet (parts_fastLock s)
  · exact .after (Parts.one (.registers s.orchKind .diagnostic s.nbrPage s.eraseCnt s.cursor s.flashStatus
      s.verifyPassed s.verifyFlag s.pageIdx s.diagPage s.diagStd s.diagBlock s.diagRan s.srcbuf
      s.srcWritten s.draws)) (ends_start rfl _ _ fun r t => ends_diagPageDone nodiag r t)

theorem ends_fastVerify (nodiag : Bool) (s : State) : StepEnd s (fastVerify nodiag s) := by
  unfold fastVerify
  exact .after (Parts.one (.registers s.orchKind .verifying s.nbrPage s.eraseCnt _ s.flashStatus
    s.verifyPassed _ _ s.diagPage s.diagStd s.diagBlock s.diagRan s.srcbuf s.srcWritten _))
    (ends_fastDiag nodiag _)

theorem parts_fastProgrammed (r : OpResult) (s : State) : Part s (fastProgrammed r s) :=
  .registers s.orchKind s.orchPhase s.nbrPage s.eraseCnt s.cursor _ s.verifyPassed s.verifyFlag _
    s.diagPage s.diagStd s.diagBlock s.diagRan s.srcbuf s.srcWritten s.draws

theorem ends_fastProgramLoop (nodiag : Bool) (n : Nat) :
    ∀ s, StepEnd s (fastProgramLoop nodiag n s) := by
  induction n with
  | zero => exact ends_fastVerify nodiag
  | succ n ih =>
    intro s
    unfold fastProgramLoop
    split
    · exact ends_programPage _ _ fun r t => .after (Parts.one (parts_fastProgrammed r t)) (ih _)
    · exact ends_fastVerify nodiag s

theorem ends_fastErased (nodiag : Bool) (r : OpResult) (s : State) :
    StepEnd s (fastErased nodiag r s) :=
  .after (Parts.one (.registers s.orchKind .programming s.nbrPage s.eraseCnt s.cursor _ s.verifyPassed
    s.verifyFlag _ s.diagPage s.diagStd s.diagBlock s.diagRan s.srcbuf s.srcWritten s.draws))
    (ends_fastProgramLoop nodiag _ _)

theorem ends_fastErase (nodiag : Bool) (s : State) : StepEnd s (fastErase nodiag s) := by
  unfold fastErase
  exact .after ((Parts.one .cleared).tail (.registers s.orchKind .erasing s.nbrPage s.eraseCnt
    s.cursor s.flashStatus s.verifyPassed s.verifyFlag s.pageIdx s.diagPage s.diagStd s.diagBlock
    s.diagRan _ _ s.draws)) (ends_start rfl _ _ fun r t => ends_fastErased nodiag r t)

theorem ends_fastStep (nodiag : Bool) (s : State) : StepEnd s (fastStep nodiag s) := by
  unfold fastStep
  split
  · exact ends_resume rfl _ _ fun r t => ends_fastErased nodiag r t
  · exact ends_resume rfl _ _ fun r t =>
      .after (Parts.one (parts_fastProgrammed r t)) (ends_fastProgramLoop nodiag _ _)
  · exact ends_resume rfl _ _ fun r t => ends_diagPageDone nodiag r t
  · exact ends_resume rfl _ _ fun r t => ends_diagStdDone nodiag r t
  · exact ends_resume rfl _ _ fun r t => .quiet (parts_diagBlockDone r t)
  · unfold fastStart
    have he : Parts s (fastEnter s) :=
      Parts.one (.registers .fast s.orchPhase s.nbrPage s.eraseCnt s.cursor s.flashStatus s.verifyPassed
        s.verifyFlag s.pageIdx .complete .complete .complete false s.srcbuf s.srcWritten s.draws)
    have hu : Parts s (setPhase .unlocking (fastEnter s)) :=
      Parts.one (.registers .fast .unlocking s.nbrPage s.eraseCnt s.cursor s.flashStatus s.verifyPassed
        s.verifyFlag s.pageIdx .complete .complete .complete false s.srcbuf s.srcWritten s.draws)
    dsimp only
    split
    · exact .after hu (ends_unlockThen (ends_fastErase nodiag))
    · exact .quiet (he.tail (.fault _))

/-! ## Every command -/

/-- Every step of every command is a sequence of parts, or such a sequence and an issue. -/
theorem exec_ends {i : Instr} {s t : State} (h : exec i s = .next t) : StepEnd s t := by
  cases i with
  | unlock d => injection h with h; subst h; exact ends_unlockThen fun t => ends_finish _ t
  | lock d => injection h with h; subst h; exact .quiet ((Parts.one (.locked d)).tail (.finished _))
  | clearFlags => injection h with h; subst h; exact .quiet ((Parts.one .cleared).tail (.finished _))
  | wait => injection h with h; subst h; exact .quiet (parts_wait s)
  | erasePage => injection h with h; subst h; exact ends_flashCommand _ rfl s
  | programHalfword => injection h with h; subst h; exact ends_flashCommand _ rfl s
  | programWord => injection h with h; subst h; exact ends_flashCommand _ rfl s
  | resetBuffer =>
    injection h with h; subst h
    exact ends_bufGate (.quiet ((Parts.one (.buffer _ _ s.draws)).tail (.finished _)))
  | loadBuffer =>
    injection h with h; subst h
    split
    · exact ends_bufGate (.quiet ((Parts.one (.buffer _ _ s.draws)).tail (.finished _)))
    · exact .one (.fault _)
  | commitPageFast =>
    injection h with h; subst h
    unfold commitStep
    split
    · exact ends_resume rfl _ _ ends_finish
    · unfold commitStart
      split
      · split
        · exact ends_start rfl _ _ ends_finish
        · exact .one (.fault _)
      · exact .one (.fault _)
  | programPageFast =>
    injection h with h; subst h
    unfold programPageStep
    split
    · exact ends_resume rfl _ _ ends_finish
    · exact ends_programPage _ _ ends_finish
  | erasePageFast => injection h with h; subst h; exact ends_flashCommand _ rfl s
  | eraseBlock32kFast => injection h with h; subst h; exact ends_flashCommand _ rfl s
  | runStandard => injection h with h; subst h; exact ends_stdStep s
  | runFast nodiag => injection h with h; subst h; exact ends_fastStep nodiag s

/-- The sequencer's turn ends as a step does, with no command running too. -/
theorem sequencerTurn_ends {s t : State} (h : sequencerTurn s = .next t) : StepEnd s t := by
  unfold sequencerTurn at h
  split at h
  · injection h with h; subst h; exact .quiet .refl
  · exact exec_ends h
  · injection h with h; subst h; exact .quiet .refl

/-- No step of a command changes a cell (R110). -/
theorem StepEnd.flash_eq {s t : State} (h : StepEnd s t) : t.flash = s.flash := by
  have hp : ∀ {t}, Parts s t → t.flash = s.flash := by
    intro t h
    induction h with
    | refl => rfl
    | tail _ hb ih => cases hb <;> exact ih
  cases h with
  | quiet h => exact hp h
  | issued c i p h => simpa using hp h

end Sys2Proof.Machine
end

