-- ==== Sys2Proof/Laws/PerInstr.lean ====
section
/-!
SUPPORT. The family Encoded of LAWS.json, one lemma per command: a command is written with legal fields
(R80, R84), in the row of the opcode map that R82 gives it.
-/

namespace Sys2Proof.Laws.Encoded

/-- The fields of the command pass every check of WellFormed.lean, and its word holds them. -/
def Statement (i : Instr) : Prop := i.fields.wf = true ∧ fieldsOfWord (encode i) = i.fields

theorem unlock (d : Domain) : Statement (.unlock d) :=
  ⟨by cases d <;> rfl, fieldsOfWord_encode _⟩
theorem lock (d : Domain) : Statement (.lock d) := ⟨by cases d <;> rfl, fieldsOfWord_encode _⟩
theorem clearFlags : Statement .clearFlags := ⟨rfl, fieldsOfWord_encode _⟩
theorem wait : Statement .wait := ⟨rfl, fieldsOfWord_encode _⟩
theorem erasePage : Statement .erasePage := ⟨rfl, fieldsOfWord_encode _⟩
theorem programHalfword : Statement .programHalfword := ⟨rfl, fieldsOfWord_encode _⟩
theorem programWord : Statement .programWord := ⟨rfl, fieldsOfWord_encode _⟩
theorem resetBuffer : Statement .resetBuffer := ⟨rfl, fieldsOfWord_encode _⟩
theorem loadBuffer : Statement .loadBuffer := ⟨rfl, fieldsOfWord_encode _⟩
theorem commitPageFast : Statement .commitPageFast := ⟨rfl, fieldsOfWord_encode _⟩
theorem programPageFast : Statement .programPageFast := ⟨rfl, fieldsOfWord_encode _⟩
theorem erasePageFast : Statement .erasePageFast := ⟨rfl, fieldsOfWord_encode _⟩
theorem eraseBlock32kFast : Statement .eraseBlock32kFast := ⟨rfl, fieldsOfWord_encode _⟩
theorem runStandard : Statement .runStandard := ⟨rfl, fieldsOfWord_encode _⟩
theorem runFast (nodiag : Bool) : Statement (.runFast nodiag) :=
  ⟨by cases nodiag <;> rfl, fieldsOfWord_encode _⟩

end Sys2Proof.Laws.Encoded
end

