-- ==== Sys2Proof/Laws/Run.lean ====
section
/-!
SUPPORT. Runs of several steps, changes of the array, and the phases of the orchestrators, each said
once.
-/

namespace Sys2Proof.Machine

/-- Runs compose. -/
theorem steps_add {m n : Nat} {s t : State} (h : steps m s = .next t) : steps
    (m + n) s = steps n t := by
  induction m generalizing s with
  | zero => simp [steps] at h; subst h; simp
  | succ m ih =>
    rw [show m + 1 + n = (m + n) + 1 by omega]
    simp only [steps] at h ⊢
    cases hs : step s with
    | next u => simp only [hs] at h ⊢; exact ih h
    | fault r => simp [hs] at h
    | refused r => simp [hs] at h

/-- The first step of a run. -/
theorem steps_one {s t : State} {n : Nat} (h : step s = .next t) : steps (n + 1) s = steps n t := by
  simp [steps, h]

/-- The position of a running command. -/
theorem pos_of_exec {s : State} {i p} (h : s.seq = .exec i p) : s.pos = p := by simp [State.pos, h]

/-- The sequencer's turn with a command running (R102). -/
theorem step_sequencer {s : State} {i : Instr} {p : Point} {rest : List Turn}
    (hs : s.seq = .exec i p)
    (ha : s.agenda = .sequencer :: rest) : step s = exec i { s with agenda := rest } := by
  simp [step, ha, takeTurn, sequencerTurn, hs]

/-- CheckAddr as linear facts (R104). -/
theorem addrOk_iff {s : State} {a n al : Nat} : addrOk s a n al = true ↔ a % al = 0 ∧
    s.cfg.flashBase ≤ a ∧ a + n ≤ s.cfg.flashEnd := by
  simp [addrOk, Params.inFlash]

/-- A protected standard page overlaps a range exactly when some byte of the range lies in one
  (R10, R111). -/
theorem protects_iff {p : Params} {a n : Nat} (h : p.flashBase ≤ a) :
   p.protects a n = true ↔ ∃ x, a ≤ x ∧ x < a + n ∧ (x - p.flashBase) / 4096 ∈ p.wp := by
  simp only [Params.protects, List.any_eq_true, decide_eq_true_eq,
    Config.pageSize]
  constructor
  · rintro ⟨k, hk, h1⟩
    rcases Nat.lt_or_ge a (p.flashBase + 4096 * k) with hl | hl
    · refine ⟨p.flashBase + 4096 * k, by omega, by omega, ?_⟩
      rw [show (p.flashBase + 4096 * k - p.flashBase)/4096 = k by omega]; exact hk
    · exact ⟨a, by omega, by omega, by rw [show (a - p.flashBase)/4096 = k by omega]; exact hk⟩
  · rintro ⟨x, h1, h2, h3⟩
    exact ⟨_, h3, by omega⟩

/-- A part of an unprotected range is unprotected. -/
theorem protects_mono {p : Params} {a n b k : Nat} (h1 : a ≤ b) (h2 : b + k ≤ a + n)
    (h : p.protects a n = false) : p.protects b k = false := by
  rw [Bool.eq_false_iff] at h ⊢
  intro hx
  apply h
  simp only [Params.protects, List.any_eq_true, decide_eq_true_eq] at hx ⊢
  obtain ⟨q, hq, h3⟩ := hx
  exact ⟨q, hq, by omega⟩

/-- A write of cells changes exactly its range. -/
theorem changedTo_write (m : Memory) (a : Nat) (cs : List FlashCell) (n : Nat) (f : Nat →
    FlashCell) (hl : cs.length = n) (h : ∀ i < n, cs[i]? = some (f i)) : Memory.ChangedTo
      (m.write a cs) m a n f := by
  subst hl
  refine ⟨fun i hi => ?_, fun x hx => Memory.cell_write_outside hx⟩
  rw [Memory.cell_write_inside (by omega), Nat.add_sub_cancel_left, h i hi]; rfl

/-- Two changes of the array, one after the other. -/
theorem changedTo_trans {m m1 m0 : Memory} {a n b k : Nat} {f g h : Nat → FlashCell}
    (h1 : m1.ChangedTo m0 a n f) (h2 : m.ChangedTo m1 b k g) (N : Nat)
   (hN : ∀ x, (a ≤ x ∧ x < a + n) ∨ (b ≤ x ∧ x < b + k) → a ≤ x ∧ x < a + N)
   (hh : ∀ i < N, (b ≤ a + i ∧ a + i < b + k ∧ h i = g (a + i - b)) ∨ (¬(b ≤ a + i ∧
     a + i < b + k) ∧ i < n ∧ h i = f i)) : m.ChangedTo m0 a N h := by
  constructor
  · intro i hi
    rcases hh i hi with ⟨q1, q2, q3⟩ | ⟨q1, q2, q3⟩
    · rw [q3, ← h2.1 (a + i - b) (by omega)]; congr 1; omega
    · rw [h2.2 _ q1, q3]; exact h1.1 i q2
  · intro x hx
    rw [h2.2 x (fun hh => hx (hN x (.inr hh))), h1.2 x (fun hh => hx (hN x (.inl hh)))]

/-- An operation on an unprotected, writable, unfailing target succeeds (R111, R112). -/
theorem engineStep_success {op : Op} {s : State} (he : s.engine = .inFlight op false)
    (h1 : s.cfg.protects op.base op.size = false)
   (h2 : op.overwrites s.flash = false)
     (h3 : s.cfg.failing op.kind op.base = false) : engineStep s = succeedOp op s := by
  simp [engineStep, he, completeOp, h1, h2, h3]

/-- The engine completes an operation, then the sequencer steps. -/
theorem steps_engine_sequencer {u : State} {op : Op} {i : Instr} {p : Point} {rest : List Turn}
    (ha : u.agenda = .engine :: .sequencer :: rest)
   (he : u.engine = .inFlight op false) (hs : u.seq = .exec i p)
     (h1 : u.cfg.protects op.base op.size = false)
   (h2 : op.overwrites u.flash = false) (h3 : u.cfg.failing op.kind op.base = false) {t : State}
     (hx : exec i { succeedOp op u with agenda := rest } = .next t) :
   steps 2 u = .next t := by
  have e2 : step u = .next (succeedOp op { u with agenda := .sequencer :: rest }) := by
    simp only [step, ha, takeTurn]
    rw [engineStep_success (s := { u with agenda := .sequencer :: rest }) (op := op) he h1 h2 h3]
  have e3 : step (succeedOp op { u with agenda := .sequencer :: rest }) = .next t := by
    rw [step_sequencer (s := succeedOp op { u with agenda := .sequencer :: rest }) hs rfl]; exact hx
  simp only [steps, e2, e3]

/-- A final wait that finds the engine idle and no error flag answers Complete (R106, R107). -/
theorem resumeFlashOp_final_clear {u : State} {c : FlashCall} (he : u.engine = .idle)
    (h1 : u.pgerr = false)
      (h2 : u.wrprterr = false) : resumeFlashOp c .final u = .ret .complete u := by
  rw [resumeFlashOp_final_idle he, flagResult_of_clear h1 h2]

/-- Every loaded bit is set (R144). -/
theorem allLoaded_iff (l : BitVec 64) : l = allLoaded ↔ ∀ j < 64, l.getLsbD j = true := by
  constructor
  · rintro rfl j hj; rw [allLoaded, BitVec.getLsbD_allOnes]; simp [hj]
  · intro h; apply BitVec.eq_of_getLsbD_eq; intro i hi; rw [h i hi, allLoaded,
      BitVec.getLsbD_allOnes]; simp [hi]

/-- The fast page of ADDR (R81). -/
theorem fastPage_eq (s : State) : s.fastPage = s.addr.toNat - s.addr.toNat % 256 := by
  simp [State.fastPage]; omega

/-- Storing one word of a buffer. -/
theorem bufWord_setIfInBounds (v : Vector Word 64) (i j : Nat) (x : Word) : bufWord
    (v.setIfInBounds i x) j = if i = j ∧ i < 64 then x else bufWord v j := by
  simp only [bufWord, Vector.getElem?_setIfInBounds]
  split
  · next h => subst h; split <;> simp_all
  · next h => simp [h]

/-- The page count with its numbers (R173). -/
theorem pageCount_eq (a b : Nat) : pageCount a b = (b - a + 4095)/4096 := by
  show (b - a + 4096 - 1)/4096 = _; congr 1

/-- EntryCheckStd as linear facts (R171). -/
theorem stdEntryOk_iff (s : State) : stdEntryOk s = true ↔ (s.startAddr.toNat ≤ s.endAddr.toNat ∧
    s.startAddr.toNat % 4096 = 0 ∧ s.cfg.flashBase ≤ s.startAddr.toNat ∧
      s.startAddr.toNat +
        (s.endAddr.toNat - s.startAddr.toNat + 4095) / 4096 * 4096 ≤ s.cfg.flashEnd) := by
  simp [stdEntryOk, Params.inFlash, pageCount_eq, and_assoc, Nat.mul_comm]

/-- EntryCheckFast as linear facts (R179). -/
theorem fastEntryOk_iff (s : State) : fastEntryOk s = true ↔ s.startAddr.toNat % 32768 = 0 ∧
    s.cfg.flashBase ≤ s.startAddr.toNat ∧
      s.startAddr.toNat + 32768 ≤ s.cfg.flashEnd := by
  simp [fastEntryOk, Params.inFlash]

/-- What the verify loop looks at (R176). -/
theorem stdVerifyLoop_congr {s t : State} (h1 : s.engine = t.engine) (h2 : s.flash = t.flash)
    (h3 : s.cfg = t.cfg) (h4 : s.pattern = t.pattern) :
   ∀ n c k, stdVerifyLoop s n c k = stdVerifyLoop t n c k := by
  intro n
  induction n with
  | zero => intros; rfl
  | succ n ih => intro c k; simp only [stdVerifyLoop, arrRead_congr h1 h2 h3, h4, ih]

/-- The verifying and locking phases together (R176, R177). -/
theorem stdVerify_eq (s : State) : ∃ r, r = stdVerifyLoop s
    (halfCount s.startAddr.toNat s.endAddr.toNat) s.startAddr.toNat s.draws ∧
    stdVerify s = { s with
      orchPhase := .done, lockStd := true, verifyPassed := r.1, cursor := BitVec.ofNat 32 r.2.1,
      draws := r.2.2, result := s.flashStatus, seq := .idle } := by
  refine ⟨_, rfl, ?_⟩
  unfold stdVerify
  dsimp only
  rw [stdVerifyLoop_congr (s := setPhase .verifying s) (t := s) rfl rfl rfl rfl]
  simp [stdLock, finish, setLock, setPhase]

/-- What the erasing phase is entered with (R172 to R174). -/
theorem stdErase_eq (u : State) : stdErase u = stdEraseFrom { u with
      orchPhase := .erasing, eop := false, pgerr := false, wrprterr := false,
      nbrPage := BitVec.ofNat 32 (pageCount u.startAddr.toNat u.endAddr.toNat), eraseCnt := 0,
      flashStatus := .complete } := by
  simp [stdErase, setPhase, clearBody]

/-- After a failure the programming loop makes no write (R175). -/
theorem stdProgramLoop_failed {n : Nat} {s : State}
    (h : s.flashStatus ≠ .complete) : stdProgramLoop n s = stdVerify s := by
  cases n <;> simp [stdProgramLoop, h]

/-- After a failure the erasing loop goes no further (R174). -/
theorem stdEraseLoop_failed {n : Nat} {s : State}
    (h : s.flashStatus ≠ .complete) : stdEraseLoop n s = stdProgram s := by
  cases n <;> simp [stdEraseLoop, h]

/-- The verdict and CURSOR of the verify loop, where no byte reads a draw (R176). -/
theorem stdVerifyLoop_settled (s : State) (k : Nat) : ∀ (n c : Nat), (∀ x, c ≤ x → x < c + 2 * n →
    s.settledByte x ≠ none) →
   let reads := fun (i : Nat) => s.settledByte (c + 2 * i) = some (s.pattern.extractLsb' 0 8) ∧
      s.settledByte (c + 2 * i + 1) = some (s.pattern.extractLsb' 8 8)
   ((stdVerifyLoop s n c k).1 = true ↔ ∀ i < n, reads i) ∧ ((∀ i < n, reads i) →
     (stdVerifyLoop s n c k).2.1 = c + 2 * n) ∧
    ∀ i < n, (∀ j < i, reads j) → ¬reads i → (stdVerifyLoop s n c k).2.1 = c + 2 * (i + 1) := by
  intro n
  induction n with
  | zero => intro c h; simp [stdVerifyLoop]
  | succ n ih =>
    intro c h reads
    obtain ⟨b0, hb0⟩ := Option.ne_none_iff_exists'.1 (h c (by omega) (by omega))
    obtain ⟨b1, hb1⟩ := Option.ne_none_iff_exists'.1 (h (c+1) (by omega) (by omega))
    obtain ⟨i1, i2, i3⟩ := arrRead_settled (s := s) k 2 c (fun i => if i = 0 then b0 else b1)
      (by decide) (by intro i hi; interval_cases i <;> simp [hb0, hb1])
    have hr0 : reads 0 ↔ (arrRead s k c 2).1 = s.pattern.zeroExtend 32 := by
      rw [halfRead_eq_iff i2 i3]; simp [reads, hb0, hb1]
    obtain ⟨j1, j2, j3⟩ := ih (c+2) (fun x h1 h2 => h x (by omega) (by omega))
    have hshift : ∀ i, reads (i+1) ↔ (s.settledByte (c + 2 + 2 * i) = some
      (s.pattern.extractLsb' 0 8) ∧
      s.settledByte (c + 2 + 2 * i + 1) = some (s.pattern.extractLsb' 8 8)) := by
      intro i; simp only [reads]; rw [show c + 2 * (i + 1) = c + 2 + 2 * i by omega]
    have hun : stdVerifyLoop s (n+1) c k = if
      (arrRead s k c 2).1 = s.pattern.zeroExtend 32 then stdVerifyLoop s n (c + 2) k else (false,
        c + 2, k) := by
      simp only [stdVerifyLoop, i1]
    rw [hun]
    by_cases hr : reads 0
    · rw [if_pos (hr0.1 hr)]
      refine ⟨?_, ?_, ?_⟩
      · rw [j1]
        constructor
        · intro hh i hi
          rcases i with _ | i
          · exact hr
          · rw [hshift]; exact hh i (by omega)
        · intro hh i hi; rw [← hshift]; exact hh (i+1) (by omega)
      · intro hh; rw [j2 (fun i hi => (hshift i).1 (hh (i+1) (by omega)))]; omega
      · intro i hi h1 h2
        rcases i with _ | i
        · exact absurd hr h2
        · rw [j3 i (by omega) (fun j hj => (hshift j).1 (h1 (j+1) (by omega))) (fun h => h2 ((hshift i).2 h))]; omega
    · rw [if_neg (fun h => hr (hr0.2 h))]
      refine ⟨by simp; exact ⟨0, by omega, hr⟩, fun hh => absurd (hh 0 (by omega)) hr, ?_⟩
      intro i hi h1 h2
      rcases i with _ | i
      · simp
      · exact absurd (h1 0 (by omega)) hr

/-- What the verify of a page looks at (R183). -/
theorem fastVerifyPage_congr {s t : State} (h1 : s.engine = t.engine) (h2 : s.flash = t.flash)
    (h3 : s.cfg = t.cfg) (p : Nat) :
   ∀ n j c k, fastVerifyPage s p n j c k = fastVerifyPage t p n j c k := by
  intro n
  induction n with
  | zero => intros; rfl
  | succ n ih => intro j c k; simp only [fastVerifyPage, arrRead_congr h1 h2 h3, ih]

/-- What the verify of the block looks at (R183). -/
theorem fastVerifyLoop_congr {s t : State} (h1 : s.engine = t.engine) (h2 : s.flash = t.flash)
    (h3 : s.cfg = t.cfg) (h4 : s.startAddr = t.startAddr) :
   ∀ n i v, fastVerifyLoop s n i v = fastVerifyLoop t n i v := by
  intro n
  induction n with
  | zero => intros; rfl
  | succ n ih => intro i v; simp only [fastVerifyLoop, fastVerifyPage_congr h1 h2 h3, h4, ih]

/-- The verify of one page, where no byte reads a draw (R183). -/
theorem fastVerifyPage_settled (s : State) (p : Nat) : ∀ n j c k, j + n ≤ 64 → (∀ x,
    p + 4 * j ≤ x → x < p + 4 * (j + n) → s.settledByte x ≠ none) →
   ((fastVerifyPage s p n j c k).1 = true ↔ ∀ i < n, ∀ b < 4, s.settledByte (p + 4 *
     (j + i) + b) = some (wordByte (BitVec.ofNat 32 (j + i)) b)) ∧
   ((fastVerifyPage s p n j c k).1 = true → 0 < n → (fastVerifyPage s p n j c k).2.1 = p + 4 *
     (j + n - 1)) ∧
   (fastVerifyPage s p n j c k).2.2 = k := by
  intro n
  induction n with
  | zero => intros; simp [fastVerifyPage]
  | succ n ih =>
    intro j c k hj h
    have hb : ∀ b < 4, ∃ y, s.settledByte
      (p + 4 * j + b) = some y := fun b hb => Option.ne_none_iff_exists'.1 (h _ (by omega) (by omega))
    have hb' : ∃ f : Nat → Byte, ∀ b < 4, s.settledByte (p + 4 * j + b) = some (f b) := 
      ⟨fun b => (s.settledByte (p + 4 * j + b)).getD 0, fun b hb2 => by obtain ⟨y, hy⟩ := hb b hb2; simp [hy]⟩
    obtain ⟨f, hf⟩ := hb'
    obtain ⟨i1, i2, i3⟩ := arrRead_settled (s := s) k 4 (p + 4 * j) f (by decide) hf
    have heq : (arrRead s k (p + 4 * j) 4).1 = BitVec.ofNat 32 j ↔ ∀ b < 4, s.settledByte
      (p + 4 * j + b) = some (wordByte (BitVec.ofNat 32 j) b) := by
      constructor
      · intro h b hb; rw [hf b hb, ← i3 b hb, h]
      · intro h; apply word_of_bytes; intro b hb
        rw [i3 b hb]; have := h b hb; rw [hf b hb] at this; exact Option.some.inj this
    have hun : fastVerifyPage s p (n+1) j c k = if (arrRead s k
      (p + 4 * j) 4).1 = BitVec.ofNat 32 j then fastVerifyPage s p n (j+1) (p + 4*j) k else (false,
        p + 4*j, k) := by
      simp only [fastVerifyPage, i1]
    rw [hun]
    by_cases hr : (arrRead s k (p + 4 * j) 4).1 = BitVec.ofNat 32 j
    · rw [if_pos hr]
      obtain ⟨j1, j2, j3⟩ := ih (j+1) (p + 4*j) k (by omega) (fun x h1 h2 => h x (by omega) (by omega))
      refine ⟨?_, ?_, j3⟩
      · rw [j1]
        constructor
        · intro hh i hi
          rcases i with _ | i
          · exact heq.1 hr
          · have := hh i (by omega); rw [show j + (i + 1) = j + 1 + i by omega]; exact this
        · intro hh i hi; have := hh (i+1) (by omega); rw [show j + (i + 1) = j + 1 + i by omega] at this; exact this
      · intro h1 _
        rcases Nat.eq_zero_or_pos n with h0 | h0
        · subst h0; simp [fastVerifyPage]
        · rw [j2 h1 h0]; omega
    · rw [if_neg hr]
      refine ⟨by simp only [Bool.false_eq_true, false_iff]; intro hh; exact hr (heq.2 (hh 0
        (by omega))), by simp, rfl⟩

/-- A byte of a page of the block. -/
theorem page_within_block {a i n x : Nat} (h : x < a + 256 * i + 4 * 64) : x < a + 256 * (i +
    (n + 1)) := by linarith

/-- The verify of the block keeps the last page's result alone (R183). -/
theorem fastVerifyLoop_settled (s : State) : ∀ n i v, (∀ x, s.startAddr.toNat + 256 * i ≤ x →
    x < s.startAddr.toNat + 256 * (i + n) → s.settledByte x ≠ none) → 0 < n →
   ((fastVerifyLoop s n i v).1 = true ↔ ∀ j < 64, ∀ b < 4, s.settledByte
     (s.startAddr.toNat + 256 * (i + n - 1) + 4 * j + b) = some (wordByte (BitVec.ofNat 32 j) b)) ∧
   ((fastVerifyLoop s n i v).1 = true → (fastVerifyLoop s n i v).2.1 = s.startAddr.toNat + 256 *
     (i + n - 1) + 252) ∧ (fastVerifyLoop s n i v).2.2 = v.2.2 := by
  intro n
  induction n with
  | zero => intros; omega
  | succ n ih =>
    intro i v h _
    have hs2 : ∀ x, s.startAddr.toNat + 256 * i + 4 * 0 ≤ x →
      x < s.startAddr.toNat + 256 * i + 4 * (0 + 64) → s.settledByte x ≠ none := by
      intro x h1 h2
      simp only [Nat.mul_zero, Nat.add_zero, Nat.zero_add] at h1 h2
      exact h x h1 (page_within_block h2)
    have hp := fastVerifyPage_settled s (s.startAddr.toNat + 256 * i) 64 0 v.2.1 v.2.2
      (by decide) hs2
    simp only [Nat.zero_add] at hp
    unfold fastVerifyLoop
    rcases Nat.eq_zero_or_pos n with h0 | h0
    · subst h0
      simp only [fastVerifyLoop]
      rw [show i + (0+1) - 1 = i by omega]
      refine ⟨hp.1, fun h => hp.2.1 h (by omega), hp.2.2⟩
    · have := ih (i+1) (fastVerifyPage s
        (s.startAddr.toNat + Config.fastPageSize * i) Config.bufWords 0 v.2.1 v.2.2)
          (fun x h1 h2 => h x (by omega) (by omega)) h0
      rw [show i + 1 + n - 1 = i + (n+1) - 1 by omega] at this
      exact ⟨this.1, this.2.1, this.2.2.trans hp.2.2⟩

/-- What the diagnostic phase is entered with (R183). -/
theorem fastVerify_eq (nodiag : Bool) (s : State) : ∃ r, r = fastVerifyLoop s 128 0 (s.verifyFlag,
    s.cursor.toNat, s.draws) ∧
    fastVerify nodiag s = fastDiag nodiag { s with
      orchPhase := .verifying, pageIdx := 127, verifyFlag := r.1,
      cursor := BitVec.ofNat 32 r.2.1, draws := r.2.2 } := by
  refine ⟨_, rfl, ?_⟩
  unfold fastVerify
  dsimp only
  rw [fastVerifyLoop_congr (s := setPhase .verifying s) (t := s) rfl rfl rfl rfl]
  simp [setPhase, Config.fastRunPages]

/-- The locking phase (R185). -/
theorem fastLock_eq (s : State) : fastLock s = { s with
      orchPhase := .done, lockFast := true, result := s.flashStatus, seq := .idle } := by
  simp [fastLock, setLock, setPhase, finish]

/-- After a failure the programming loop goes no further (R182). -/
theorem fastProgramLoop_failed {nodiag : Bool} {n : Nat} {s : State}
    (h : s.flashStatus ≠ .complete) : fastProgramLoop nodiag n s = fastVerify nodiag s := by
  cases n <;> simp [fastProgramLoop, h]

/-- At a poll, an error with the engine idle, or the bound with the engine busy, is the call's result,
and nothing changes (R107, R109). -/
theorem resumeFlashOp_failed {c : FlashCall} {w : WaitKind} {s : State} {r : OpResult}
    (h : pollOnce s = (some r, s)) (hr : r ≠ .complete) : resumeFlashOp c w s = .ret r s := by
  cases w <;> simp [resumeFlashOp, h, preWait, finalWait, hr]

/-! ## The diagnostic phase -/

/-- [START, START + BLOCK_SIZE) is a block of the flash window (R179). -/
abbrev BlockAt (s : State) : Prop :=
  s.startAddr.toNat % 32768 = 0 ∧ s.cfg.flashBase ≤ s.startAddr.toNat ∧
    s.startAddr.toNat + 32768 ≤ s.cfg.flashEnd

/-- START is a right address for every granularity of a diagnostic erase (R104, R184). -/
theorem addrOk_block {s : State} {n : Nat} (h : BlockAt s) (hn : n ∣ 32768) :
    addrOk s s.startAddr.toNat n n = true := by
  have := Nat.le_of_dvd (by decide) hn
  rw [addrOk_iff]
  exact ⟨Nat.mod_eq_zero_of_dvd (hn.trans (Nat.dvd_of_mod_eq_zero h.1)), h.2.1, by have := h.2.2; omega⟩

/-- The diagnostic phase leaves FLASH_STATUS, PAGE_IDX, CURSOR, VERIFY.FLAG and the cells (R184). -/
abbrev DiagKeeps (s t : State) : Prop :=
  t.flashStatus = s.flashStatus ∧ t.pageIdx = s.pageIdx ∧ t.cursor = s.cursor ∧
    t.verifyFlag = s.verifyFlag ∧ t.flash = s.flash

theorem DiagKeeps.trans {s t u : State} (h : DiagKeeps s t) (h' : DiagKeeps t u) : DiagKeeps s u := by
  obtain ⟨a, b, c, d, e⟩ := h
  obtain ⟨a', b', c', d', e'⟩ := h'
  exact ⟨a'.trans a, b'.trans b, c'.trans c, d'.trans d, e'.trans e⟩

theorem diagKeeps_andThen {c : FlashCall} {s : State} {e : Call} (h : CallEnd c s e) (i : Instr)
    (p : WaitKind → Point) {k : OpResult → State → State} (hk : ∀ r t, DiagKeeps t (k r t)) :
    DiagKeeps s (e.andThen i p k) := by
  cases h with
  | locked q _ =>
    exact DiagKeeps.trans (t := flagLocked (setPolls q s)) ⟨rfl, rfl, rfl, rfl, rfl⟩ (hk _ _)
  | result r q _ => exact DiagKeeps.trans (t := setPolls q s) ⟨rfl, rfl, rfl, rfl, rfl⟩ (hk _ _)
  | _ => exact ⟨rfl, rfl, rfl, rfl, rfl⟩

theorem diagKeeps_unlockThen {d : Domain} {s : State} {k : State → State}
    (hk : ∀ t, DiagKeeps t (k t)) : DiagKeeps s (unlockThen d k s) := by
  unfold unlockThen
  split
  · exact ⟨rfl, rfl, rfl, rfl, rfl⟩
  · exact DiagKeeps.trans (t := openDomain d s) ⟨rfl, rfl, rfl, rfl, rfl⟩ (hk _)

theorem diagKeeps_fastLock (s : State) : DiagKeeps s (fastLock s) := by
  rw [fastLock_eq]; exact ⟨rfl, rfl, rfl, rfl, rfl⟩

theorem diagKeeps_blockDone (r : OpResult) (s : State) : DiagKeeps s (diagBlockDone r s) :=
  DiagKeeps.trans (t := { s with diagBlock := r, diagRan := true }) ⟨rfl, rfl, rfl, rfl, rfl⟩
    (diagKeeps_fastLock _)

theorem diagKeeps_stdDone (nodiag : Bool) (r : OpResult) (s : State) :
    DiagKeeps s (diagStdDone nodiag r s) :=
  DiagKeeps.trans (t := setLock .std true { s with diagStd := r }) ⟨rfl, rfl, rfl, rfl, rfl⟩
    (diagKeeps_unlockThen fun _ => diagKeeps_andThen (startFlashOp_end _ _) _ _ diagKeeps_blockDone)

theorem diagKeeps_pageDone (nodiag : Bool) (r : OpResult) (s : State) :
    DiagKeeps s (diagPageDone nodiag r s) :=
  DiagKeeps.trans (t := setLock .fast true { s with diagPage := r }) ⟨rfl, rfl, rfl, rfl, rfl⟩
    (diagKeeps_unlockThen fun _ =>
      diagKeeps_andThen (startFlashOp_end _ _) _ _ (diagKeeps_stdDone nodiag))

theorem diagKeeps_fastDiag (nodiag : Bool) (s : State) : DiagKeeps s (fastDiag nodiag s) := by
  unfold fastDiag
  split
  · exact diagKeeps_fastLock s
  · exact DiagKeeps.trans (t := setPhase .diagnostic s) ⟨rfl, rfl, rfl, rfl, rfl⟩
      (diagKeeps_andThen (startFlashOp_end _ _) _ _ (diagKeeps_pageDone nodiag))

/-- A stale error is the result of the third diagnostic erase too, and the run ends (R184, R185). -/
theorem diagStdDone_stale {s : State} {nodiag : Bool} {r : OpResult} (he : s.engine = .idle)
    (h : flagResult s ≠ .complete) (hb : BlockAt s) : diagStdDone nodiag r s = { s with
      diagStd := r, diagBlock := flagResult s, diagRan := true, lockStd := true, lockFast := true,
      polls := 0, orchPhase := .done, result := s.flashStatus, seq := .idle } := by
  rw [diagStdDone, unlockThen_of_locked _ rfl]
  generalize hw : openDomain .fast (setLock .std true { s with diagStd := r }) = w
  have hf : flagResult w = flagResult s := by rw [← hw]; rfl
  have hok : addrOk w w.startAddr.toNat 32768 32768 = true :=
    addrOk_block (by rw [← hw]; exact hb) (by decide)
  rw [startFlashOp_stale (c := blockCall w) hok (by rw [← hw]; exact he) (by rw [hf]; exact h),
    andThen_ret, diagBlockDone, fastLock_eq, hf]
  subst hw
  simp [setPolls, openDomain, setLock]

/-- A stale error is the result of the second and third diagnostic erases too (R184). -/
theorem diagPageDone_stale {s : State} {nodiag : Bool} {r : OpResult} (he : s.engine = .idle)
    (h : flagResult s ≠ .complete) (hb : BlockAt s) : ∃ l, diagPageDone nodiag r s = { s with
      diagPage := r, diagStd := flagResult s, diagBlock := flagResult s, diagRan := true,
      lockStd := true, lockFast := true, polls := 0, orchPhase := .done, result := s.flashStatus,
      seq := .idle, lastProg := l } := by
  rw [diagPageDone, unlockThen_of_locked _ rfl]
  generalize hw : openDomain .std (setLock .fast true { s with diagPage := r }) = w
  have hf : flagResult w = flagResult s := by rw [← hw]; rfl
  have hf0 : flagResult (setPolls 0 w) = flagResult s := hf
  have hok : addrOk w w.startAddr.toNat 4096 4096 = true :=
    addrOk_block (by rw [← hw]; exact hb) (by decide)
  rw [startFlashOp_stale (c := diagStdCall w) hok (by rw [← hw]; exact he) (by rw [hf]; exact h),
    andThen_ret, diagStdDone_stale (by rw [← hw]; exact he) (by rw [hf0]; exact h)
      (by rw [← hw]; exact hb), hf0, hf]
  subst hw
  exact ⟨_, rfl⟩

/-- "A stale error from the run makes each diagnostic erase return that error without erasing" (R178),
and the run ends in the same step. -/
theorem fastDiag_stale {s : State} (he : s.engine = .idle) (h : flagResult s ≠ .complete)
    (hb : BlockAt s) : ∃ l, fastDiag false s = { s with
      diagPage := flagResult s, diagStd := flagResult s, diagBlock := flagResult s, diagRan := true,
      lockStd := true, lockFast := true, polls := 0, orchPhase := .done, result := s.flashStatus,
      seq := .idle, lastProg := l } := by
  rw [fastDiag, if_neg (by simp)]
  generalize hw : setPhase .diagnostic s = w
  have hf : flagResult w = flagResult s := by rw [← hw]; rfl
  have hf0 : flagResult (setPolls 0 w) = flagResult s := hf
  have hc : diagPageCall s = diagPageCall w := by rw [← hw]; rfl
  have hok : addrOk w w.startAddr.toNat 256 256 = true :=
    addrOk_block (by rw [← hw]; exact hb) (by decide)
  rw [hc, startFlashOp_stale (c := diagPageCall w) hok (by rw [← hw]; exact he)
    (by rw [hf]; exact h), andThen_ret]
  obtain ⟨l, e⟩ := diagPageDone_stale (s := setPolls 0 w) (nodiag := false) (r := flagResult w)
    (by rw [← hw]; exact he) (by rw [hf0]; exact h) (by rw [← hw]; exact hb)
  rw [e, hf0, hf]
  subst hw
  exact ⟨l, rfl⟩

end Sys2Proof.Machine
end

