-- ==== Sys2Proof/Tests/Slice0.lean ====
section
/-!
SUPPORT. Our own tests. Expected results are from the encodings of 30_encoding.md and the vectors of
95_test_vectors.md, whose names the tests carry; each runs one step. After them, for every obligation
with hypotheses, a state that meets them, for each clause at a boundary value.
-/

namespace Sys2Proof.Tests

open Sys2Proof.Machine

/-! ## Well-formed fields -/

theorem test_wf_legal : (Cmd32.mk 0x21 false true 0).wf = true := by decide
theorem test_wf_rsv : (Cmd32.mk 0x05 false false 1).rsvOk = false := by decide
theorem test_wf_opc : (Cmd32.mk 0x08 false false 0).opcOk = false := by decide
theorem test_wf_dom : (Cmd32.mk 0x03 true false 0).domOk = false := by decide
theorem test_wf_nodiag : (Cmd32.mk 0x20 false true 0).nodiagOk = false := by decide
theorem test_wf_refuses :
    (Cmd32.mk 0x05 false false 1).wf = false ∧ (Cmd32.mk 0x08 false false 0).wf = false ∧
    (Cmd32.mk 0x03 true false 0).wf = false ∧ (Cmd32.mk 0x20 false true 0).wf = false := by decide

/-! ## Decoding, from words written out: RSV [31:10], NODIAG, DOM, OPC -/

theorem test_decode_unlock_std : decode 0b0000000000000000000000_0_0_00000001 = .command (.unlock .std) := by decide
theorem test_decode_unlock_fast : decode 0b0000000000000000000000_0_1_00000001 = .command (.unlock .fast) := by decide
theorem test_decode_lock_std : decode 0b0000000000000000000000_0_0_00000010 = .command (.lock .std) := by decide
theorem test_decode_lock_fast : decode 0b0000000000000000000000_0_1_00000010 = .command (.lock .fast) := by decide
theorem test_decode_clearFlags : decode 0b0000000000000000000000_0_0_00000011 = .command .clearFlags := by decide
theorem test_decode_wait : decode 0b0000000000000000000000_0_0_00000100 = .command .wait := by decide
theorem test_decode_erasePage : decode 0b0000000000000000000000_0_0_00000101 = .command .erasePage := by decide
theorem test_decode_programHalfword : decode 0b0000000000000000000000_0_0_00000110 = .command .programHalfword := by decide
theorem test_decode_programWord : decode 0b0000000000000000000000_0_0_00000111 = .command .programWord := by decide
theorem test_decode_resetBuffer : decode 0b0000000000000000000000_0_0_00010000 = .command .resetBuffer := by decide
theorem test_decode_loadBuffer : decode 0b0000000000000000000000_0_0_00010001 = .command .loadBuffer := by decide
theorem test_decode_commitPageFast : decode 0b0000000000000000000000_0_0_00010010 = .command .commitPageFast := by decide
theorem test_decode_programPageFast : decode 0b0000000000000000000000_0_0_00010011 = .command .programPageFast := by decide
theorem test_decode_erasePageFast : decode 0b0000000000000000000000_0_0_00010100 = .command .erasePageFast := by decide
theorem test_decode_eraseBlock32kFast : decode 0b0000000000000000000000_0_0_00010101 = .command .eraseBlock32kFast := by decide
theorem test_decode_runStandard : decode 0b0000000000000000000000_0_0_00100000 = .command .runStandard := by decide
theorem test_decode_runFast : decode 0b0000000000000000000000_0_0_00100001 = .command (.runFast false) := by decide
theorem test_decode_runFast_nodiag : decode 0b0000000000000000000000_1_0_00100001 = .command (.runFast true) := by decide

/-- The illegal words of section 2 of 95_test_vectors.md. -/
theorem test_decode_illegal :
    ∀ w ∈ [0x00000301#32, 0x00000103#32, 0x00000121#32, 0x00000220#32, 0x00000000#32, 0x00000008#32,
      0x00000016#32, 0x000000FF#32, 0x00000405#32, 0x80000005#32],
    ∃ r, decode w = .illegal r := by
  simp only [List.forall_mem_cons]
  refine ⟨⟨_, rfl⟩, ⟨_, rfl⟩, ⟨_, rfl⟩, ⟨_, rfl⟩, ⟨_, rfl⟩, ⟨_, rfl⟩, ⟨_, rfl⟩, ⟨_, rfl⟩, ⟨_, rfl⟩,
    ⟨_, rfl⟩, by simp⟩

/-! ## States -/

/-- The conventions of 95_test_vectors.md: reset, with CLK_SAFE = 1. -/
def base : State := { State.reset with clkSafe := true }

/-- Command i at its start. -/
def running (i : Instr) : State := { base with seq := .exec i .start, result := .busy }

/-- Command i at its start with LOCKR = 0x2 and ADDR = a. -/
def stdAt (i : Instr) (a : Word) : State := { running i with lockStd := false, addr := a }

/-- Command i at its start with LOCKR = 0x1 and ADDR = a. -/
def fastAt (i : Instr) (a : Word) : State := { running i with lockFast := false, addr := a }

/-- The state a step answers. -/
def after : Host.Outcome State Fault Refusal → State
  | .next s    => s
  | .fault _   => State.reset
  | .refused _ => State.reset

/-- n Erased cells at a, and nothing else listed. -/
def erasedAt (a n : Nat) : Memory := Memory.write [] a (List.replicate n .erased)

/-- An operation in flight. -/
def busyWith (op : Op) (s : State) : State := { s with engine := .inFlight op false }

theorem erasedAt_cell {a n i : Nat} (h : i < n) : (erasedAt a n).cell (a + i) = .erased := by
  rw [erasedAt, Memory.cell_write_inside (by simp; omega)]
  simp [h]

theorem flashEnd_default : Params.default.flashEnd = 0x08010000 := by decide

/-! ## One step of each command -/

theorem test_C1 : (after (exec (.unlock .std) (running (.unlock .std)))).lockr = 0x2 := by decide
theorem test_C3 : (after (exec (.unlock .fast) (stdAt (.unlock .fast) 0))).statr = 0x400 ∧
    (after (exec (.unlock .fast) (stdAt (.unlock .fast) 0))).lockr = 0x3 ∧
    (after (exec (.unlock .fast) (stdAt (.unlock .fast) 0))).result = .busy := by decide
theorem test_C6 : (after (exec (.lock .fast) (stdAt (.lock .fast) 0))).lockr = 0x2 := by decide
theorem test_C7 : (after (exec .clearFlags { running .clearFlags with
    pgerr := true, wrprterr := true, eop := true, ovr := true, illcmd := true })).statr = 0x300 := by
  decide
theorem test_C8 : (after (step { base with
    pgerr := true, wrprterr := true, eop := true, ovr := true, illcmd := true,
    agenda := [base.wr 0x018 0x00000224] })).statr = 0x110 := by decide
theorem test_C11 : (after (exec .wait { running .wait with
    pgerr := true, wrprterr := true })).result.code = 2 := by decide
theorem test_C12 : (after (exec .wait { running .wait with eop := true })).result.code = 0 := by decide
theorem test_C14 : (after (exec .erasePage { running .erasePage with
    addr := 0x08008000, clkSafe := false })).faults = [.clk] := by decide
theorem test_C17 : (after (exec .erasePage (stdAt .erasePage 0x0800F000))).engine =
    .inFlight (.eraseRange 0x0800F000 4096 .page4K) false := by decide
theorem test_C21 : (after (exec .programHalfword
      { stdAt .programHalfword 0x08008000 with data0 := 0x1234ABCD })).engine =
    .inFlight (.program 0x08008000 [0xCD, 0xAB]) false := by decide
theorem test_C23 : (after (exec .programHalfword
      { stdAt .programHalfword 0x08008002 with lastProg := 0x08008004 })).faults = [.order] := by decide
theorem test_C27 : (after (exec .programWord
      { stdAt .programWord 0x08008004 with data0 := 0x11223344 })).engine =
    .inFlight (.program 0x08008004 [0x44, 0x33, 0x22, 0x11]) false := by decide
theorem test_C31 : (after (exec .programWord (stdAt .programWord 0x0800FFFE))).faults = [.addr] := by
  decide
theorem test_F1 : (after (exec .resetBuffer (running .resetBuffer))).result.code = 3 ∧
    (after (exec .resetBuffer (running .resetBuffer))).statr = 0x10 := by decide
theorem test_F3 : regRead (after (exec .loadBuffer { fastAt .loadBuffer 0x08008010 with
    data0 := 4, data1 := 5, data2 := 6, data3 := 7 })) 0x058 = 0x000000F0 := by decide
theorem test_F4 : regRead (after (exec .loadBuffer (fastAt .loadBuffer 0x080080F0))) 0x05C =
    0xF0000000 := by decide
theorem test_F8 : (after (exec .commitPageFast { fastAt .commitPageFast 0x08008000 with
    loaded := 0x7FFFFFFFFFFFFFFF })).faults = [.buf] := by decide
theorem test_F9 : (after (exec .commitPageFast { fastAt .commitPageFast 0x080080FF with
    loaded := allLoaded })).engine = .inFlight (.pageProgram 0x08008000 base.pbuf) false := by decide
theorem test_F14 : (after (exec .programPageFast
    { running .programPageFast with addr := 0x08008000 })).result.code = 3 := by decide
theorem test_F16 : (after (exec .erasePageFast (fastAt .erasePageFast 0x08008100))).engine =
    .inFlight (.eraseRange 0x08008100 256 .fastPage) false := by decide
theorem test_F17 : (after (exec .erasePageFast (fastAt .erasePageFast 0x08008080))).faults =
    [.addr] := by decide
theorem test_F19 : (after (exec .eraseBlock32kFast (fastAt .eraseBlock32kFast 0x08009000))).faults =
    [.addr] := by decide
theorem test_O4 : (after (exec .runStandard { running .runStandard with
    startAddr := 0x08009000, endAddr := 0x08008000 })).faults = [.range] := by decide
theorem test_O6 : (after (exec .runStandard { running .runStandard with
    startAddr := 0x0800F000, endAddr := 0x08010001 })).faults = [.range] := by decide
theorem test_O14 : (after (exec (.runFast false) { running (.runFast false) with
    startAddr := 0x08008100 })).orch = 0x100 := by decide
theorem test_O16 : (after (exec (.runFast false) { running (.runFast false) with
    startAddr := 0x08008000, lockStd := false })).faults = [.unlockOther] := by decide

/-- R9: "above which", so not at the threshold itself. -/
theorem test_threshold : let p := { Params.default with clkThreshold := 60 }
    p.mustHalveClock 60 = false ∧ p.mustHalveClock 61 = true := by decide

/-! ## One step of the host, the engine and the platform -/

theorem test_X1 : (after (step { base with
    agenda := [.host (.read 0x08008001 2)] })).faults = [.bus] := by decide
theorem test_X3 : (after (step { base with
    agenda := [.host (.write 0x08008000 4 0)] })).faults = [.flashWrite] := by decide
/-- C-29: one cell of the word is programmed, so all four become Indet. -/
theorem test_C29 : (after (step { busyWith (.program 0x08008004 [0x44, 0x33, 0x22, 0x11]) base with
    flash  := Memory.write [] 0x08008004 [.erased, .erased, .val 0, .erased]
    agenda := [.engine] })).flash = [] := by decide
theorem test_T7 : (after (step { busyWith (.eraseRange 0x08008000 4096 .page4K) base with
    agenda := [.host (.clk false)] })).faults = [.clk] := by decide
theorem test_reset_statr : (after (step { base with
    pgerr := true, ovr := true, seq := .faulted, proterr := true, agenda := [.reset] })).statr = 0 := by
  decide

/-! ## Witnesses: states that meet the hypotheses of the obligations -/

/-- A state whose next turn is t. -/
def turn (t : Turn) (s : State) : State := { s with agenda := [t] }

/-- A Faulted state. -/
def faultedState : State := raiseFault .bus base

/-- The half-open flash window of the default parameters ends here. -/
theorem default_flashEnd : base.cfg.flashEnd = 0x08010000 := by decide

theorem ready_std (i : Instr) (a : Word) : (stdAt i a).Ready .std := ⟨rfl, rfl, rfl, rfl, rfl, rfl⟩
theorem ready_fast (i : Instr) (a : Word) : (fastAt i a).Ready .fast := ⟨rfl, rfl, rfl, rfl, rfl, rfl⟩

theorem witness_IllegalWordsOnlySetIllcmd :
    ∀ w ∈ [0x00000000#32, 0x00000008#32, 0x0000000F#32, 0x00000016#32, 0x0000001F#32, 0x00000022#32,
      0x000000FF#32, 0x00000400#32, 0x00000103#32, 0x00000220#32],
    (turn (base.wr 0x000 w) base).cfg.wf = true ∧ base.seq = .idle ∧ (∃ r, decode w = .illegal r) ∧
      (turn (base.wr 0x000 w) base).agenda = base.wr 0x000 w :: [] := by
  simp only [List.forall_mem_cons]
  refine ⟨?_, ?_, ?_, ?_, ?_, ?_, ?_, ?_, ?_, ?_, by simp⟩ <;>
    exact ⟨by decide, rfl, ⟨_, rfl⟩, rfl⟩

theorem witness_StepRunsTheCurrentCommand :
    (turn .sequencer (running .wait)).seq = .exec .wait .start ∧
      (turn .sequencer (running .wait)).agenda = .sequencer :: [] := ⟨rfl, rfl⟩

theorem witness_CmdWriteAcceptsOrRejects :
    base.cfg.wf = true ∧
    (turn (faultedState.wr 0x000 3) faultedState).seq = .faulted ∧
    ((turn (base.wr 0x000 0) base).seq = .idle ∧ decode 0 = .illegal .reservedOpcode) ∧
    ∃ t, exec .clearFlags { base with seq := .exec .clearFlags .start, result := .busy, polls := 0 } =
      .next t ∧ decode 3 = .command .clearFlags :=
  ⟨by decide, rfl, ⟨rfl, by decide⟩, _, rfl, by decide⟩

theorem witness_WritesDuringACommandAreDropped :
    (running .wait).cfg.wf = true ∧ (running .wait).seq = .exec .wait .start ∧
    0x1FC < 0x200 ∧ 0x1FC % 4 = 0 ∧ 0x000 < 0x200 ∧
    (turn ((running .wait).wr 0x1FC 1) (running .wait)).agenda = (running .wait).wr 0x1FC 1 :: [] :=
  ⟨by decide, rfl, by decide, by decide, by decide, rfl⟩

theorem witness_OperandRegistersReadBack :
    base.cfg.wf = true ∧ base.seqbsy = false ∧
    (0x034 ∈ [0x004, 0x008, 0x00C, 0x010, 0x014, 0x024, 0x02C, 0x030, 0x034]) ∧
    (0x100 ≤ 0x1FC ∧ 0x1FC < 0x200 ∧ 0x1FC % 4 = 0) ∧
    { base with agenda := [base.wr 0x1FC 1, base.rd 0x1FC] }.agenda =
      base.wr 0x1FC 1 :: base.rd 0x1FC :: [] :=
  ⟨by decide, by decide, by decide, by decide, rfl⟩

theorem witness_ReadOnlyRegistersIgnoreWrites :
    base.cfg.wf = true ∧ base.seqbsy = false ∧ faultedState.seqbsy = false ∧
    0x01C ∈ [0x01C, 0x020, 0x028, 0x038, 0x03C, 0x040, 0x044, 0x048, 0x04C, 0x050, 0x054, 0x058, 0x05C] ∧
    (0x060 ≤ 0x060 ∧ 0x060 < 0x100 ∧ 0x060 % 4 = 0) ∧
    (0x060 ≤ 0x0FC ∧ 0x0FC < 0x100 ∧ 0x0FC % 4 = 0) :=
  ⟨by decide, by decide, by decide, by decide, by decide, by decide⟩

theorem witness_StatusRegistersReadTheirBits :
    base.cfg.wf = true ∧ ∀ off ∈ [0x018, 0x01C, 0x020, 0x028, 0x048, 0x038, 0x03C, 0x040, 0x04C, 0x054,
      0x044, 0x050, 0x058, 0x05C, 0x000, 0x060, 0x0FC],
      ∃ t, step (turn (base.rd off) base) = .next t := by
  refine ⟨by decide, ?_⟩
  simp only [List.forall_mem_cons]
  refine ⟨?_, ?_, ?_, ?_, ?_, ?_, ?_, ?_, ?_, ?_, ?_, ?_, ?_, ?_, ?_, ?_, ?_, by simp⟩ <;> exact ⟨_, rfl⟩

theorem witness_HostReadsHaveNoSideEffects :
    (∃ t, step (turn (.host (.read 0x0800FFFF 1)) base) = .next t) ∧
    ∃ t, step (turn (.host (.read 0x08008001 2)) base) = .next t := ⟨⟨_, rfl⟩, ⟨_, rfl⟩⟩

theorem witness_StatrWriteClearsOnes :
    base.cfg.wf = true ∧ base.seqbsy = false ∧ (running .wait).cfg.wf = true ∧
    (running .wait).seqbsy = true ∧
    (turn (base.wr 0x018 0x334) base).agenda = base.wr 0x018 0x334 :: [] :=
  ⟨by decide, by decide, by decide, by decide, rfl⟩

/-- The last word of the window, four settled bytes. -/
theorem witness_FlashReadsAreLittleEndian :
    let s := turn (.host (.read 0x0800FFFC 4)) { base with flash := erasedAt 0x0800FFFC 4 }
    4 ∈ [1, 2, 4] ∧ (0x0800FFFC#32).toNat % 4 = 0 ∧ s.cfg.inWindow (0x0800FFFC#32).toNat = false ∧
    s.cfg.flashBase ≤ (0x0800FFFC#32).toNat ∧ (0x0800FFFC#32).toNat + 4 ≤ s.cfg.flashEnd ∧
    ∀ i < 4, s.settledByte ((0x0800FFFC#32).toNat + i) = some 0xFF := by decide

/-- The first and the last byte of the window, in each case of the cell. -/
theorem witness_ByteReadsFollowTheCell :
    (∀ a ∈ [0x08000000#32, 0x0800FFFF#32], base.cfg.inWindow a.toNat = false ∧
      base.cfg.flashBase ≤ a.toNat ∧ a.toNat < base.cfg.flashEnd ∧
      (erasedAt a.toNat 1).cell a.toNat = .erased ∧
      (Memory.write [] a.toNat [.val 1]).cell a.toNat = .val 1 ∧ base.flash.cell a.toNat = .indet) ∧
    (busyWith (.eraseRange 0x08008000 4096 .page4K) base).engine =
      .inFlight (.eraseRange 0x08008000 4096 .page4K) false := by
  refine ⟨?_, rfl⟩
  simp only [List.forall_mem_cons]
  exact ⟨by decide, by decide, by simp⟩

theorem witness_HostFlashWriteTakesTheFault :
    ∀ a ∈ [0x08000000#32, 0x0800FFFF#32], base.cfg.inWindow a.toNat = false ∧
      base.cfg.flashBase ≤ a.toNat ∧ a.toNat < base.cfg.flashEnd := by
  simp only [List.forall_mem_cons]
  exact ⟨by decide, by decide, by simp⟩

theorem witness_BadHostAccessesRaiseBusFault :
    (base.cfg.seqBase ≤ 0x40000000 ∧ 0x400001FF < base.cfg.seqBase + 0x200 ∧ 0x400001FF % 4 ≠ 0) ∧
    (base.cfg.inWindow 0x0800FFFE = false ∧ base.cfg.flashBase ≤ 0x0800FFFE ∧
      0x0800FFFE < base.cfg.flashEnd ∧ base.cfg.flashEnd < 0x0800FFFE + 4 ∧ 3 ∉ [1, 2, 4]) := by decide

theorem witness_OnlyResetLeavesFaulted :
    (∃ t, step (turn .sequencer faultedState) = .next t) ∧ faultedState.seq = .faulted :=
  ⟨⟨_, rfl⟩, rfl⟩

theorem witness_FaultRecordOnlyGrows : ∃ t, step (turn .reset faultedState) = .next t := ⟨_, rfl⟩

theorem witness_ResetGivesTheResetValues :
    (turn .reset faultedState).agenda = .reset :: [] ∧ faultedState.engine = .idle := ⟨rfl, rfl⟩

theorem witness_ResetKeepsTheArray :
    (turn .reset base).engine = .idle ∧
    (turn .reset (busyWith (.eraseRange 0x08008000 4096 .page4K) base)).engine =
      .inFlight (.eraseRange 0x08008000 4096 .page4K) false := ⟨rfl, rfl⟩

/-- The last page of the window, in each outcome. -/
theorem witness_EraseCompletesByItsOutcome :
    base.cfg.flashBase ≤ 0x0800F000 ∧
    (∃ x, 0x0800F000 ≤ x ∧ x < 0x0800F000 + 4096 ∧ (x - 0x08000000) / 4096 ∈ [15]) ∧
    (¬∃ x, 0x0800F000 ≤ x ∧ x < 0x0800F000 + 4096 ∧ (x - 0x08000000) / 4096 ∈ ([14] : List Nat)) ∧
    (OpKind.page4K, 0x0800F000) ∈ [(OpKind.page4K, 0x0800F000)] ∧
    (OpKind.page4K, 0x0800F000) ∉ base.cfg.fails := by
  refine ⟨by decide, ⟨0x0800F000, by decide, by decide, by decide⟩, ?_, by decide, by decide⟩
  rintro ⟨x, h1, h2, h3⟩
  simp only [List.mem_singleton] at h3
  omega

/-- A page program and a program at the top of the window, protected, on programmed and on erased
cells. -/
theorem witness_ProgramCompletesByItsOutcome :
    base.cfg.flashBase ≤ 0x0800FF00 ∧
    (∀ j < 64, ∀ k < 4, (pageBytes base.srcbuf)[4 * j + k]? =
      some ((bufWord base.srcbuf j).extractLsb' (8 * k) 8)) ∧
    (∃ x, 0x0800FFFE ≤ x ∧ x < 0x0800FFFE + 2 ∧ (x - 0x08000000) / 4096 ∈ [15]) ∧
    (∀ x, ¬(x - 0x08000000) / 4096 ∈ base.cfg.wp) ∧
    (¬∀ i < 2, base.flash.cell (0x0800FFFE + i) = .erased) ∧
    (∀ i < 2, (erasedAt 0x0800FFFE 2).cell (0x0800FFFE + i) = .erased) ∧
    (OpKind.prog, 0x0800FFFE) ∉ base.cfg.fails := by
  refine ⟨by decide, ?_, ⟨0x0800FFFE, by decide, by decide, by decide⟩, fun x => by simp [base, State.reset, Params.default], by decide,
    by decide, by decide⟩
  intro j hj k hk
  rw [pageBytes_getElem _ (by omega)]
  rw [show (4 * j + k) / 4 = j by omega, show (4 * j + k) % 4 = k by omega]
  rfl

/-- CLK_SAFE driven to 1 in an operation, to 0 with the engine idle, and to 0 in an operation. -/
theorem witness_ClockFallSpoilsTheOperation :
    let op : Op := .program 0x0800FFFE [1, 2]
    (turn (.host (.clk true)) (busyWith op base)).agenda = .host (.clk true) :: [] ∧
    ((turn (.host (.clk false)) base).agenda = .host (.clk false) :: [] ∧
      (turn (.host (.clk false)) base).engine = .idle) ∧
    { busyWith op base with agenda := [.host (.clk false), .engine] }.engine = .inFlight op false :=
  ⟨rfl, ⟨rfl, rfl⟩, rfl⟩

/-- A poll with an operation in flight; the step that issues the erase of the last page. -/
theorem witness_NoOperationIssuedWhileBusy :
    (∃ t, step (turn .sequencer (busyWith (.program 0x0800FFFE [1, 2]) (stdAt .erasePage 0x0800F000))) =
      .next t) ∧
    (turn .sequencer (stdAt .erasePage 0x0800F000)).engine = .idle ∧
    ∃ t, step (turn .sequencer (stdAt .erasePage 0x0800F000)) = .next t ∧
      t.engine = .inFlight (.eraseRange 0x0800F000 4096 .page4K) false := ⟨⟨_, rfl⟩, rfl, _, rfl, rfl⟩

theorem witness_UnlockOpensItsDomain :
    base.lockFast = true ∧ base.lockStd = true ∧ (stdAt .wait 0).lockStd = false ∧
    (fastAt .wait 0).lockFast = false := by decide

theorem witness_WaitPollsUntilIdleOrBound :
    let atPoll : State := { running .wait with seq := .exec .wait (.wait .final) }
    let busy := busyWith (.program 0x0800FFFE [1, 2])
    ((running .wait).seq = .exec .wait .start ∧ (running .wait).engine = .idle) ∧
    ((busy (running .wait)).seq = .exec .wait .start ∧ (busy (running .wait)).engine ≠ .idle) ∧
    (atPoll.seq = .exec .wait (.wait .final) ∧ atPoll.engine = .idle) ∧
    ({ busy atPoll with timeout := 1, polls := 1 }.timeout ≠ 0 ∧
      { busy atPoll with timeout := 1, polls := 1 }.polls = { busy atPoll with timeout := 1, polls := 1 }.timeout) ∧
    ¬((busy atPoll).timeout ≠ 0 ∧ (busy atPoll).polls = (busy atPoll).timeout) := by decide

/-- The last page of the window. -/
theorem witness_ErasePageIssuesItsErase :
    let s := stdAt .erasePage 0x0800F000
    s.seq = .exec .erasePage .start ∧ s.Ready .std ∧ s.addr.toNat % 4096 = 0 ∧
    s.cfg.flashBase ≤ s.addr.toNat ∧ s.addr.toNat + 4096 ≤ s.cfg.flashEnd :=
  ⟨rfl, ready_std _ _, by decide, by decide, by decide⟩

/-- The last half-word of the window, at LASTPROG (C-24, C-30). -/
theorem witness_ProgramHalfwordIssuesItsBytes :
    let s := { stdAt .programHalfword 0x0800FFFE with lastProg := 0x0800FFFE }
    s.seq = .exec .programHalfword .start ∧ s.Ready .std ∧ s.addr.toNat % 2 = 0 ∧
    s.cfg.flashBase ≤ s.addr.toNat ∧ s.addr.toNat + 2 ≤ s.cfg.flashEnd ∧
    s.lastProg.toNat ≤ s.addr.toNat :=
  ⟨rfl, ⟨rfl, rfl, rfl, rfl, rfl, rfl⟩, by decide, by decide, by decide, by decide⟩

theorem witness_ProgramWordIssuesItsBytes :
    let s := { stdAt .programWord 0x0800FFFC with lastProg := 0x0800FFFC }
    s.seq = .exec .programWord .start ∧ s.Ready .std ∧ s.addr.toNat % 4 = 0 ∧
    s.cfg.flashBase ≤ s.addr.toNat ∧ s.addr.toNat + 4 ≤ s.cfg.flashEnd ∧
    s.lastProg.toNat ≤ s.addr.toNat :=
  ⟨rfl, ⟨rfl, rfl, rfl, rfl, rfl, rfl⟩, by decide, by decide, by decide, by decide⟩

theorem witness_FlashCommandChecksInOrder :
    ∀ i ∈ [Instr.erasePage, .programHalfword, .programWord, .erasePageFast, .eraseBlock32kFast],
      (running i).seq = .exec i .start ∧ ∃ c, callAt i (.wait .pre) (running i) = some c := by
  simp only [List.forall_mem_cons]
  exact ⟨⟨rfl, _, rfl⟩, ⟨rfl, _, rfl⟩, ⟨rfl, _, rfl⟩, ⟨rfl, _, rfl⟩, ⟨rfl, _, rfl⟩, by simp⟩

/-- A poll at the bound and one below it, a stale error, and a clean pre-wait before each later check. -/
theorem witness_FlashCommandsGoOnFromTheirPolls :
    let s (w : WaitKind) : State := { stdAt .programHalfword 0x0800FFFE with seq := .exec .programHalfword (.wait w) }
    let busy := busyWith (.program 0x0800FFFE [1, 2]) (s .pre)
    let clean (s : State) := s.seq = .exec .programHalfword (.wait .pre) ∧ s.engine = .idle ∧
      s.pgerr = false ∧ s.wrprterr = false ∧
      callAt .programHalfword (.wait .pre) s = some (programHalfwordCall s)
    callAt .programHalfword (.wait .final) (s .final) = some (programHalfwordCall (s .final)) ∧
    ({ busy with timeout := 3, polls := 3 }.timeout ≠ 0 ∧ { busy with timeout := 3, polls := 3 }.polls = 3) ∧
    ¬({ busy with timeout := 3, polls := 2 }.polls = 3) ∧
    ((s .final).engine = .idle ∧ { s .pre with pgerr := true }.pgerr = true) ∧
    clean { s .pre with clkSafe := false } ∧ clean { s .pre with lockFast := false } ∧
    clean { s .pre with lockStd := true } ∧ clean { s .pre with lastProg := 0x08010000 } ∧
    outOfOrder (programHalfwordCall (s .pre)) { s .pre with lastProg := 0x08010000 } = true ∧
    (clean (s .pre) ∧ (s .pre).Ready .std ∧ outOfOrder (programHalfwordCall (s .pre)) (s .pre) = false) := by
  refine ⟨rfl, ⟨by decide, rfl⟩, by decide, ⟨rfl, rfl⟩, ⟨rfl, rfl, rfl, rfl, rfl⟩, ⟨rfl, rfl, rfl, rfl, rfl⟩,
    ⟨rfl, rfl, rfl, rfl, rfl⟩, ⟨rfl, rfl, rfl, rfl, rfl⟩, by decide, ⟨rfl, rfl, rfl, rfl, rfl⟩,
    ⟨rfl, rfl, rfl, rfl, rfl, rfl⟩, by decide⟩

theorem witness_EraseCommandsEraseTheirTarget :
    let s : State := { fastAt .eraseBlock32kFast 0x08008000 with agenda := [.sequencer, .engine, .sequencer] }
    s.seq = .exec .eraseBlock32kFast .start ∧ s.Ready .fast ∧ s.addr.toNat % 32768 = 0 ∧
    s.cfg.flashBase ≤ s.addr.toNat ∧ s.addr.toNat + 32768 ≤ s.cfg.flashEnd ∧
    s.cfg.protects s.addr.toNat 32768 = false ∧ s.cfg.failing .block32K s.addr.toNat = false :=
  ⟨rfl, ⟨rfl, rfl, rfl, rfl, rfl, rfl⟩, by decide, by decide, by decide, by decide, by decide⟩

theorem witness_ProgramCommandsWriteTheirBytes :
    let s : State := { stdAt .programWord 0x0800FFFC with
      flash := erasedAt 0x0800FFFC 4, agenda := [.sequencer, .engine, .sequencer] }
    s.seq = .exec .programWord .start ∧ s.Ready .std ∧ s.addr.toNat % 4 = 0 ∧
    s.cfg.flashBase ≤ s.addr.toNat ∧ s.addr.toNat + 4 ≤ s.cfg.flashEnd ∧ s.cfg.flashEnd < 2 ^ 32 ∧
    s.lastProg.toNat ≤ s.addr.toNat ∧ (∀ k < 4, s.flash.cell (s.addr.toNat + k) = .erased) ∧
    s.cfg.protects s.addr.toNat 4 = false ∧ s.cfg.failing .prog s.addr.toNat = false :=
  ⟨rfl, ⟨rfl, rfl, rfl, rfl, rfl, rfl⟩, by decide, by decide, by decide, by decide, by decide,
    by decide, by decide, by decide⟩

theorem witness_TimedOutDoesNotCancelTheErase :
    let s : State := { stdAt .erasePage 0x0800F000 with
      timeout := 1, agenda := [.sequencer, .sequencer, .engine] }
    s.seq = .exec .erasePage .start ∧ s.Ready .std ∧ s.timeout = 1 ∧ s.addr.toNat % 4096 = 0 ∧
    s.cfg.flashBase ≤ s.addr.toNat ∧ s.addr.toNat + 4096 ≤ s.cfg.flashEnd ∧
    s.cfg.protects s.addr.toNat 4096 = false ∧ s.cfg.failing .page4K s.addr.toNat = false :=
  ⟨rfl, ⟨rfl, rfl, rfl, rfl, rfl, rfl⟩, rfl, by decide, by decide, by decide, by decide, by decide⟩

theorem witness_EraseThenProgramReadsBack :
    let a := 0x0800F000#32
    base.cfg.wf = true ∧ base.seq = .idle ∧ base.engine = .idle ∧ base.pgerr = false ∧
    base.wrprterr = false ∧ base.clkSafe = true ∧ base.lockStd = true ∧ base.lockFast = true ∧
    base.cfg.inWindow a.toNat = false ∧ a.toNat % 4096 = 0 ∧ base.cfg.flashBase ≤ a.toNat ∧
    a.toNat + 4096 ≤ base.cfg.flashEnd ∧ base.cfg.protects a.toNat 4096 = false ∧
    base.cfg.failing .page4K a.toNat = false ∧ base.cfg.failing .prog a.toNat = false := by decide

theorem witness_ResetBufferUnloadsEveryWord :
    base.lockFast = true ∧ (fastAt .resetBuffer 0).lockFast = false := by decide

theorem witness_LoadBufferLoadsFourWords :
    let ok (s : State) := s.addr.toNat % 16 = 0 ∧ s.cfg.flashBase ≤ s.addr.toNat ∧
      s.addr.toNat + 16 ≤ s.cfg.flashEnd
    ¬ok (fastAt .loadBuffer 0x08010000) ∧
    (ok { running .loadBuffer with addr := 0x0800FFF0 } ∧ (running .loadBuffer).lockFast = true) ∧
    (ok (fastAt .loadBuffer 0x0800FFF0) ∧ (fastAt .loadBuffer 0x0800FFF0).lockFast = false) := by decide

/-- The first and the last byte of the window, the byte past it, one word not loaded, and F-11, F-13. -/
theorem witness_CommitIssuesTheLoadedBuffer :
    let s (a : Word) : State := { fastAt .commitPageFast a with loaded := BitVec.allOnes 64 }
    let inside (s : State) := s.cfg.flashBase ≤ s.addr.toNat - s.addr.toNat % 256 ∧
      s.addr.toNat - s.addr.toNat % 256 + 256 ≤ s.cfg.flashEnd
    (∀ a, (s a).seq = .exec .commitPageFast .start) ∧
    inside (s 0x08000000) ∧ inside (s 0x0800FFFF) ∧ ¬inside (s 0x08010000) ∧
    (0x7FFFFFFFFFFFFFFF#64) ≠ BitVec.allOnes 64 ∧ { s 0x08000000 with wrprterr := true }.pgerr = false ∧
    { s 0x08000000 with lockFast := true }.seq = .exec .commitPageFast .start ∧
    (s 0x0800FFFF).Ready .fast :=
  ⟨fun _ => rfl, by decide, by decide, by decide, by decide, rfl, rfl, rfl, rfl, rfl, rfl, rfl, rfl⟩

theorem witness_ProgramPageFastIssuesTheSource :
    let s := fastAt .programPageFast
    let inside (s : State) := s.cfg.flashBase ≤ s.addr.toNat - s.addr.toNat % 256 ∧
      s.addr.toNat - s.addr.toNat % 256 + 256 ≤ s.cfg.flashEnd
    (∀ a, (s a).seq = .exec .programPageFast .start) ∧
    inside (s 0x08000000) ∧ inside (s 0x0800FFFF) ∧ ¬inside (s 0x08010000) ∧
    { s 0x08000000 with lockFast := true }.seq = .exec .programPageFast .start ∧
    (s 0x0800FFFF).Ready .fast :=
  ⟨fun _ => rfl, by decide, by decide, by decide, rfl, ready_fast _ _⟩

theorem witness_FastErasesIssueTheirRange :
    let s := fastAt .erasePageFast 0x0800FF00
    let b := fastAt .eraseBlock32kFast 0x08008000
    (s.seq = .exec .erasePageFast .start ∧ s.Ready .fast ∧ s.addr.toNat % 256 = 0 ∧
      s.cfg.flashBase ≤ s.addr.toNat ∧ s.addr.toNat + 256 ≤ s.cfg.flashEnd) ∧
    (b.seq = .exec .eraseBlock32kFast .start ∧ b.Ready .fast ∧ b.addr.toNat % 32768 = 0 ∧
      b.cfg.flashBase ≤ b.addr.toNat ∧ b.addr.toNat + 32768 ≤ b.cfg.flashEnd) :=
  ⟨⟨rfl, ready_fast _ _, by decide, by decide, by decide⟩,
    ⟨rfl, ready_fast _ _, by decide, by decide, by decide⟩⟩

/-- Both commits, on the last page of the window. -/
theorem witness_PageCommitsWriteSixtyFourWords :
    let f (i : Instr) : State := { fastAt i 0x0800FFFF with
      flash := erasedAt 0x0800FF00 256, loaded := BitVec.allOnes 64, srcWritten := BitVec.allOnes 64,
      agenda := [.sequencer, .engine, .sequencer] }
    ∀ i ∈ [Instr.commitPageFast, .programPageFast],
      (f i).seq = .exec i .start ∧ (f i).Ready .fast ∧
      0x0800FF00 = (f i).addr.toNat - (f i).addr.toNat % 256 ∧ (f i).loaded = BitVec.allOnes 64 ∧
      (f i).srcWritten = BitVec.allOnes 64 ∧ (f i).cfg.flashBase ≤ 0x0800FF00 ∧
      0x0800FF00 + 256 ≤ (f i).cfg.flashEnd ∧
      (∀ k < 256, (f i).flash.cell (0x0800FF00 + k) = .erased) ∧
      (f i).cfg.protects 0x0800FF00 256 = false ∧ (f i).cfg.failing .pageProg 0x0800FF00 = false := by
  intro f i _
  have ha : (f i).addr = 0x0800FFFF#32 := rfl
  have hb : (f i).cfg.flashBase = 0x08000000 := rfl
  have he : (f i).cfg.flashEnd = 0x08010000 := flashEnd_default
  refine ⟨rfl, ⟨rfl, rfl, rfl, rfl, rfl, rfl⟩, by rw [ha]; decide, rfl, rfl, by omega, by omega,
    fun k hk => erasedAt_cell hk, rfl, rfl⟩

/-- A sequencer turn, a host turn, the two turns that can change a cell, and a step of a command. -/
theorem witness_CommandsKeepOperandsAndCells :
    (∃ t, step (turn .sequencer (stdAt .erasePage 0x0800F000)) = .next t) ∧
    (∃ t, step (turn (.host (.read 0x0800FFFF 1)) base) = .next t) ∧
    (∃ t, step (turn .engine (busyWith (.program 0x0800FFFE [1, 2])
      { base with flash := erasedAt 0x0800FFFE 2 })) = .next t ∧ t.flash ≠ erasedAt 0x0800FFFE 2) ∧
    (∃ t, step (turn .reset (busyWith (.program 0x0800FFFE [1, 2])
      { base with flash := erasedAt 0x0800FFFE 2 })) = .next t ∧ t.flash ≠ erasedAt 0x0800FFFE 2) ∧
    ∃ t, exec .erasePage (stdAt .erasePage 0x0800F000) = .next t ∧
      (stdAt .erasePage 0x0800F000).underOp 0x08000000 = false ∧ t.underOp 0x08000000 = false :=
  ⟨⟨_, rfl⟩, ⟨_, rfl⟩, ⟨_, rfl, by decide⟩, ⟨_, rfl, by decide⟩, _, rfl, by decide, by decide⟩

theorem witness_PrimitivesKeepOrchestratorRegisters :
    Instr.loadBuffer ≠ .runStandard ∧ (∀ n, Instr.loadBuffer ≠ .runFast n) ∧
    ∃ t, exec .loadBuffer (fastAt .loadBuffer 0x08008010) = .next t :=
  ⟨by decide, by decide, _, rfl⟩

theorem witness_FlashCommandFrame :
    ∀ i ∈ [Instr.wait, .erasePage, .programHalfword, .programWord, .commitPageFast, .programPageFast,
      .erasePageFast, .eraseBlock32kFast],
    let s : State := { running i with seq := .exec i (.wait .final) }
    ∃ t, exec i s = .next t ∧ t.faults = s.faults := by
  simp only [List.forall_mem_cons]
  exact ⟨⟨_, rfl, rfl⟩, ⟨_, rfl, rfl⟩, ⟨_, rfl, rfl⟩, ⟨_, rfl, rfl⟩, ⟨_, rfl, rfl⟩, ⟨_, rfl, rfl⟩,
    ⟨_, rfl, rfl⟩, ⟨_, rfl, rfl⟩, by simp⟩

/-- RUN_STANDARD at its start over [a, e). -/
def stdRun (a e : Word) : State := { running .runStandard with startAddr := a, endAddr := e }

/-- RUN_FAST at its start on the block at a. -/
def fastRun (nodiag : Bool) (a : Word) : State := { running (.runFast nodiag) with startAddr := a }

theorem witness_RunStandardChecksItsRange :
    let ok (s : State) := s.startAddr.toNat ≤ s.endAddr.toNat ∧ s.startAddr.toNat % 4096 = 0 ∧
      s.cfg.flashBase ≤ s.startAddr.toNat ∧
      s.startAddr.toNat + (s.endAddr.toNat - s.startAddr.toNat + 4095) / 4096 * 4096 ≤ s.cfg.flashEnd
    ¬ok (stdRun 0x0800F000 0x08010001) ∧ ok (stdRun 0x0800F000 0x08010000) ∧
    { stdRun 0x0800F000 0x08010000 with lockFast := false }.lockFast = false := by decide

/-- At the very end of the window. -/
theorem witness_RunStandardOfNothingPasses :
    let s := stdRun 0x08010000 0x08010000
    s.seq = .exec .runStandard .start ∧ s.endAddr = s.startAddr ∧ s.startAddr.toNat % 4096 = 0 ∧
    s.cfg.flashBase ≤ s.startAddr.toNat ∧ s.startAddr.toNat ≤ s.cfg.flashEnd ∧ s.lockFast = true := by
  decide

/-- One byte past a page boundary: two pages. -/
theorem witness_RunStandardBeginsErasing :
    let s := stdRun 0x0800E000 0x0800F001
    s.seq = .exec .runStandard .start ∧ s.engine = .idle ∧ s.clkSafe = true ∧ s.lockFast = true ∧
    s.startAddr.toNat < s.endAddr.toNat ∧ s.startAddr.toNat % 4096 = 0 ∧
    s.cfg.flashBase ≤ s.startAddr.toNat ∧
    s.startAddr.toNat + (s.endAddr.toNat - s.startAddr.toNat + 4095) / 4096 * 4096 ≤ s.cfg.flashEnd := by
  decide

/-- O-2 on the last page: one erase, one program. -/
theorem witness_RunStandardProgramsAndVerifies :
    let s := { stdRun 0x0800F000 0x0800F001 with
      agenda := .sequencer :: (List.replicate 2 [Turn.engine, Turn.sequencer]).flatten }
    s.seq = .exec .runStandard .start ∧ s.engine = .idle ∧ s.clkSafe = true ∧ s.lockFast = true ∧
    s.cfg.flashEnd < 2 ^ 32 ∧ s.startAddr.toNat ≤ s.endAddr.toNat ∧ s.startAddr.toNat % 4096 = 0 ∧
    s.cfg.flashBase ≤ s.startAddr.toNat ∧ s.startAddr.toNat + 4096 * 1 ≤ s.cfg.flashEnd ∧
    (s.endAddr.toNat - s.startAddr.toNat + 4095) / 4096 = 1 ∧
    (s.endAddr.toNat - s.startAddr.toNat + 1) / 2 = 1 ∧
    s.cfg.protects s.startAddr.toNat (4096 * 1) = false ∧
    (∀ i < 1, s.cfg.failing .page4K (s.startAddr.toNat + 4096 * i) = false) ∧
    (∀ j < 1, s.cfg.failing .prog (s.startAddr.toNat + 2 * j) = false) ∧
    s.agenda = .sequencer :: ((List.replicate (1 + 1) [Turn.engine, Turn.sequencer]).flatten ++ []) := by
  decide

/-- An erase and a program of the range, each with an error and at the bound. -/
theorem witness_FailedEraseStartsNoProgramming :
    ∀ p ∈ [Point.stdErase .pre, .stdErase .final, .stdProgram .pre, .stdProgram .final],
    let s := { stdRun 0x0800F000 0x08010000 with seq := .exec .runStandard p, cursor := 0x0800FFFE }
    let bound := { busyWith (.program 0x0800FFFE [1, 2]) s with timeout := 3, polls := 3 }
    s.seq = .exec .runStandard p ∧ s.engine = .idle ∧ { s with wrprterr := true }.pgerr = false ∧
    (bound.engine ≠ .idle ∧ bound.timeout ≠ 0 ∧ bound.polls = bound.timeout) := by
  simp only [List.forall_mem_cons]
  exact ⟨by decide, by decide, by decide, by decide, by simp⟩

/-- The last half-word of the window has just been programmed. -/
theorem witness_StandardVerdictIsTheReadback :
    let s := { stdRun 0x0800F000 0x0800F002 with
      seq := .exec .runStandard (.stdProgram .final), cursor := 0x0800F000, flash := erasedAt 0x0800F000 2 }
    s.seq = .exec .runStandard (.stdProgram .final) ∧ s.engine = .idle ∧ s.cursor.toNat + 2 < 2 ^ 32 ∧
    s.endAddr.toNat ≤ s.cursor.toNat + 2 ∧
    ∀ x, s.startAddr.toNat ≤ x →
      x < s.startAddr.toNat + 2 * ((s.endAddr.toNat - s.startAddr.toNat + 1) / 2) →
      s.settledByte x ≠ none := by
  refine ⟨rfl, rfl, by decide, by decide, fun x h1 h2 => ?_⟩
  have h1 : 0x0800F000 ≤ x := h1
  have h2 : x < 0x0800F000 + 2 := h2
  have hx : x = 0x0800F000 ∨ x = 0x0800F001 := by omega
  rcases hx with rfl | rfl <;> decide

theorem witness_RunFastChecksItsBlock :
    let ok (s : State) := s.startAddr.toNat % 32768 = 0 ∧ s.cfg.flashBase ≤ s.startAddr.toNat ∧
      s.startAddr.toNat + 32768 ≤ s.cfg.flashEnd
    ¬ok (fastRun false 0x08010000) ∧ ok (fastRun false 0x08008000) ∧
    { fastRun false 0x08008000 with lockStd := false }.lockStd = false := by decide

theorem witness_RunFastBeginsErasing :
    let s := fastRun false 0x08008000
    s.seq = .exec (.runFast false) .start ∧ s.engine = .idle ∧ s.clkSafe = true ∧ s.lockStd = true ∧
    s.startAddr.toNat % 32768 = 0 ∧ s.cfg.flashBase ≤ s.startAddr.toNat ∧
    s.startAddr.toNat + 32768 ≤ s.cfg.flashEnd := by decide

theorem witness_RunFastProgramsAndVerifies :
    ∀ nodiag : Bool, let s := fastRun nodiag 0x08008000
    s.seq = .exec (.runFast nodiag) .start ∧ s.engine = .idle ∧ s.clkSafe = true ∧ s.lockStd = true ∧
    s.cfg.flashEnd < 2 ^ 32 ∧ s.startAddr.toNat % 32768 = 0 ∧ s.cfg.flashBase ≤ s.startAddr.toNat ∧
    s.startAddr.toNat + 32768 ≤ s.cfg.flashEnd ∧ s.cfg.protects s.startAddr.toNat 32768 = false ∧
    s.cfg.failing .block32K s.startAddr.toNat = false ∧
    s.cfg.failing .fastPage s.startAddr.toNat = false ∧ s.cfg.failing .page4K s.startAddr.toNat = false ∧
    ∀ i < 128, s.cfg.failing .pageProg (s.startAddr.toNat + 256 * i) = false := by
  intro nodiag s
  have ha : s.startAddr.toNat = 0x08008000 := rfl
  have hb : s.cfg.flashBase = 0x08000000 := rfl
  have he : s.cfg.flashEnd = 0x08010000 := flashEnd_default
  exact ⟨rfl, rfl, rfl, rfl, by omega, by omega, by omega, by omega, rfl, rfl, rfl, rfl,
    fun _ _ => rfl⟩

/-- RUN_FAST on the last block of an erased window, about to end its programming: a failed block erase,
a failed page, page 127 done. -/
theorem witness_FastVerdictIsTheLastPage :
    ∀ nodiag : Bool,
    let s (p : Point) : State := { fastRun nodiag 0x08008000 with
      seq := .exec (.runFast nodiag) p, lockFast := false, flash := erasedAt 0x08008000 32768 }
    (s (.fastErase .final)).seq = .exec (.runFast nodiag) (.fastErase .final) ∧
    ({ s (.fastErase .final) with wrprterr := true }.wrprterr = true) ∧
    ({ s (.fastProgram .final) with pgerr := true, pageIdx := 0 }.pgerr = true) ∧
    ({ s (.fastProgram .final) with pageIdx := 127 }.pageIdx = 127) ∧
    (s (.fastProgram .final)).Ready .fast ∧ (s (.fastProgram .final)).startAddr.toNat % 32768 = 0 ∧
    (s (.fastProgram .final)).cfg.flashBase ≤ 0x08008000 ∧
    0x08008000 + 32768 ≤ (s (.fastProgram .final)).cfg.flashEnd ∧
    ∀ p x, (s p).startAddr.toNat ≤ x → x < (s p).startAddr.toNat + 32768 → (s p).settledByte x ≠ none := by
  intro nodiag s
  have he : ∀ p, (s p).cfg.flashEnd = 0x08010000 := fun _ => flashEnd_default
  have hb : ∀ p, (s p).cfg.flashBase = 0x08000000 := fun _ => rfl
  have ha : ∀ p, (s p).startAddr.toNat = 0x08008000 := fun _ => rfl
  refine ⟨rfl, rfl, rfl, rfl, ⟨rfl, rfl, rfl, rfl, rfl, rfl⟩, by rw [ha], by rw [hb]; decide,
    by rw [he], fun p x h1 h2 => ?_⟩
  rw [ha] at h1 h2
  have hc : (s p).flash.cell x = .erased := by
    have := erasedAt_cell (a := 0x08008000) (n := 32768) (i := x - 0x08008000) (by omega)
    rwa [show 0x08008000 + (x - 0x08008000) = x by omega] at this
  have hu : (s p).underOp x = false := rfl
  simp [State.settledByte, hu, hc]

/-- The invariant on a state where RUN_STANDARD stands at the poll of an erase. -/
theorem witness_invariant_running :
    (turn .engine (after (exec .runStandard (stdRun 0x0800F000 0x08010000)))).Inv where
  cfg_wf          := by decide
  flash_wf        := by decide
  flash_inside    := by decide
  domains         := by decide
  target_inside   := by intro op b h; cases h; decide
  proterr_faulted := by decide
  faulted_locked  := by decide
  busy_exec       := by intro i p _; decide
  idle_not_busy   := by decide
  status_not_busy := by decide
  spoiled_faulted := by intro op h; cases h
  position        := by intro i p h; cases h; decide
  run_domain      := by intro i p d h hd; cases h; cases hd; decide
  pending_checked := by intro i p c h hc; cases h; cases hc; decide
  last_program    := by decide

theorem witness_OrchestratorsLeaveDomainsLocked :
    let s := { after (exec .runStandard (stdRun 0x0800F000 0x08010000)) with engine := .idle, pgerr := true }
    s.seq = .exec .runStandard (.stdErase .final) ∧
    ∃ t, exec .runStandard s = .next t ∧ t.seq = .idle := ⟨rfl, _, rfl, rfl⟩

theorem witness_StepKeepsTheInvariant :
    let s := turn .engine (after (exec .runStandard (stdRun 0x0800F000 0x08010000)))
    s.Inv ∧ ∃ t, step s = .next t := ⟨witness_invariant_running, _, rfl⟩

theorem witness_AtMostOneDomainIsEverOpen :
    let s := turn .engine (after (exec .runStandard (stdRun 0x0800F000 0x08010000)))
    s.Inv ∧ ∃ t, steps 2 s = .next t := ⟨witness_invariant_running, _, rfl⟩

end Sys2Proof.Tests
end

/-! ## The invariant inside a step of a command -/

namespace Sys2Proof.Machine

/-- The clauses of the invariant that do not look at the sequencer. -/
structure State.Sound (s : State) : Prop where
  cfg_wf          : s.cfg.wf = true
  flash_wf        : s.flash.wf
  flash_inside    : ∀ e ∈ s.flash, s.cfg.inFlash e.1 1 = true
  domains         : s.DomainsExclusive
  target_inside   : ∀ op b, s.engine = .inFlight op b → s.cfg.inFlash op.base op.size = true
  status_not_busy : s.flashStatus ≠ .busy
  last_program    : s.lastProg.toNat ≤ s.cfg.flashEnd

/-- What holds inside the step of a running command, between any two of its parts. -/
structure State.Mid (s : State) : Prop extends s.Sound where
  no_proterr : s.proterr = false
  busy       : s.result = .busy
  unspoiled  : ∀ op, s.engine ≠ .inFlight op true

/-- `Mid` inside a step of an orchestrator that has domain d open and the other one locked. -/
structure State.Runs (d : Domain) (s : State) : Prop extends s.Mid where
  opened : s.lock d = false
  shut   : s.lock d.other = true

/-- The fields `Mid` looks at, FLASH_STATUS apart. -/
def State.guarded (s : State) :=
  (s.cfg, s.flash, s.engine, s.lockStd, s.lockFast, s.lastProg, s.proterr, s.result)

/-! ### From the invariant and back -/

theorem State.Inv.sound {s : State} (h : s.Inv) : s.Sound where
  cfg_wf          := h.cfg_wf
  flash_wf        := h.flash_wf
  flash_inside    := h.flash_inside
  domains         := h.domains
  target_inside   := h.target_inside
  status_not_busy := h.status_not_busy
  last_program    := h.last_program

theorem State.Inv.mid {s : State} {i : Instr} {p : Point} (h : s.Inv) (hs : s.seq = .exec i p) :
    s.Mid where
  toSound    := h.sound
  no_proterr := Bool.eq_false_iff.2 fun hp => by simpa [hs] using h.proterr_faulted.1 hp
  busy       := h.busy_exec i p hs
  unspoiled  := fun op he => by simpa [hs] using h.spoiled_faulted op he

/-- An orchestrator that stands at a poll has its domain open (R170, R178). -/
theorem State.Inv.runs {s : State} {i : Instr} {p : Point} {d : Domain} (h : s.Inv)
    (hs : s.seq = .exec i p) (hd : p.openDomain = some d) : s.Runs d where
  toMid  := h.mid hs
  opened := (h.run_domain i p d hs hd).1
  shut   := (h.run_domain i p d hs hd).2

/-- The invariant looks at the guarded fields, the sequencer, the record and the call at a poll. -/
theorem State.Inv.congr {s t : State} (h : s.Inv) (hg : t.guarded = s.guarded)
    (hst : t.flashStatus = s.flashStatus) (hseq : t.seq = s.seq) (hf : t.faults = s.faults)
    (hcall : ∀ i p, s.seq = .exec i p → callAt i p t = callAt i p s) : t.Inv := by
  simp only [State.guarded, Prod.mk.injEq] at hg
  obtain ⟨hcfg, hflash, heng, hstd, hfast, hlast, hprot, hres⟩ := hg
  have hlock (d : Domain) : t.lock d = s.lock d := by cases d <;> assumption
  constructor
  case cfg_wf => simpa only [hcfg] using h.cfg_wf
  case flash_wf => simpa only [hflash] using h.flash_wf
  case flash_inside => simpa only [hcfg, hflash] using h.flash_inside
  case domains => simpa only [State.DomainsExclusive, hstd, hfast] using h.domains
  case target_inside => simpa only [hcfg, heng] using h.target_inside
  case proterr_faulted => simpa only [hprot, hseq] using h.proterr_faulted
  case faulted_locked => simpa only [hseq, hstd, hfast, hf] using h.faulted_locked
  case busy_exec => simpa only [hseq, hres] using h.busy_exec
  case idle_not_busy => simpa only [hseq, hres] using h.idle_not_busy
  case status_not_busy => simpa only [hst] using h.status_not_busy
  case spoiled_faulted => simpa only [heng, hseq] using h.spoiled_faulted
  case position => simpa only [hseq] using h.position
  case run_domain => simpa only [hseq, hlock] using h.run_domain
  case pending_checked =>
    intro i p c hs hc
    rw [hseq] at hs
    simpa only [addrOk, hcfg] using h.pending_checked i p c hs (hcall i p hs ▸ hc)
  case last_program => simpa only [hlast, hcfg] using h.last_program

/-- `Mid` looks at the guarded fields, and asks that FLASH_STATUS is not Busy. -/
theorem State.Mid.congr {s t : State} (h : s.Mid) (hg : t.guarded = s.guarded)
    (hst : t.flashStatus ≠ .busy) : t.Mid := by
  simp only [State.guarded, Prod.mk.injEq] at hg
  obtain ⟨hcfg, hflash, heng, hstd, hfast, hlast, hprot, hres⟩ := hg
  constructor
  case toSound =>
    constructor
    case cfg_wf => simpa only [hcfg] using h.cfg_wf
    case flash_wf => simpa only [hflash] using h.flash_wf
    case flash_inside => simpa only [hcfg, hflash] using h.flash_inside
    case domains => simpa only [State.DomainsExclusive, hstd, hfast] using h.domains
    case target_inside => simpa only [hcfg, heng] using h.target_inside
    case status_not_busy => exact hst
    case last_program => simpa only [hlast, hcfg] using h.last_program
  case no_proterr => simpa only [hprot] using h.no_proterr
  case busy => simpa only [hres] using h.busy
  case unspoiled => simpa only [heng] using h.unspoiled

theorem State.Runs.congr {d : Domain} {s t : State} (h : s.Runs d) (hg : t.guarded = s.guarded)
    (hst : t.flashStatus ≠ .busy) : t.Runs d := by
  have hlock (d : Domain) : t.lock d = s.lock d := by
    simp only [State.guarded, Prod.mk.injEq] at hg
    obtain ⟨-, -, -, hstd, hfast, -⟩ := hg
    cases d
    · exact hstd
    · exact hfast
  exact ⟨h.toMid.congr hg hst, (hlock _).trans h.opened, (hlock _).trans h.shut⟩

/-! ### How a step of a command ends -/

/-- A protocol fault keeps the invariant, whatever it interrupts (R215). -/
theorem State.Sound.raiseFault {s : State} (r : FaultReason) (h : s.Sound) :
    (raiseFault r s).Inv where
  cfg_wf          := h.cfg_wf
  flash_wf        := h.flash_wf
  flash_inside    := h.flash_inside
  domains         := .inl rfl
  target_inside   := h.target_inside
  proterr_faulted := by simp
  faulted_locked  := by simp
  busy_exec       := by simp
  idle_not_busy   := by simp
  status_not_busy := h.status_not_busy
  spoiled_faulted := by simp
  position        := by simp
  run_domain      := by simp
  pending_checked := by simp
  last_program    := h.last_program

/-- A command finishes with a result that is not Busy (R103). -/
theorem State.Mid.finish {s : State} (h : s.Mid) {r : OpResult} (hr : r ≠ .busy) :
    (finish r s).Inv where
  cfg_wf          := h.cfg_wf
  flash_wf        := h.flash_wf
  flash_inside    := h.flash_inside
  domains         := h.domains
  target_inside   := h.target_inside
  proterr_faulted := by simp [h.no_proterr]
  faulted_locked  := by simp
  busy_exec       := by simp
  idle_not_busy   := by simpa using hr
  status_not_busy := h.status_not_busy
  spoiled_faulted := fun op he => absurd he (h.unspoiled op)
  position        := by simp
  run_domain      := by simp
  pending_checked := by simp
  last_program    := h.last_program

/-- The call at a poll reads no field the suspension or the busy-wait writes. -/
theorem callAt_suspend (i j : Instr) (p q : Point) (n : Word) (s : State) :
    callAt i p (suspend j q (setPolls n s)) = callAt i p s := by
  cases p with
  | wait w => cases i <;> rfl
  | _ => rfl

theorem callAt_issue (i : Instr) (p : Point) (c : FlashCall) (s : State) :
    callAt i p (issue c s) = callAt i p s := by
  cases p with
  | wait w => cases i <;> rfl
  | _ => rfl

/-- A command stands at a poll of its own, in its domain, with its address checked (R102). -/
theorem State.Mid.suspend {s : State} (h : s.Mid) {i : Instr} {p : Point} (n : Word)
    (hpos : p.belongsTo i = true)
    (hdom : ∀ d, p.openDomain = some d → s.lock d = false ∧ s.lock d.other = true)
    (hcall : ∀ c, callAt i p s = some c → addrOk s c.op.base c.op.size c.align = true) :
    (suspend i p (setPolls n s)).Inv where
  cfg_wf          := h.cfg_wf
  flash_wf        := h.flash_wf
  flash_inside    := h.flash_inside
  domains         := h.domains
  target_inside   := h.target_inside
  proterr_faulted := by simp [h.no_proterr]
  faulted_locked  := by simp
  busy_exec       := fun _ _ _ => h.busy
  idle_not_busy   := by simp
  status_not_busy := h.status_not_busy
  spoiled_faulted := fun op he => absurd he (h.unspoiled op)
  position        := by rintro _ _ ⟨⟩; exact hpos
  run_domain      := by rintro _ _ d ⟨⟩ hd; exact hdom d hd
  pending_checked := by
    rintro _ _ c ⟨⟩ hc
    rw [callAt_suspend] at hc
    exact hcall c hc
  last_program    := h.last_program

/-- LASTPROG stays within the flash window where the address has passed CheckAddr (R36, R122). -/
theorem lastProgAfter_le {c : FlashCall} {s : State} (h : s.lastProg.toNat ≤ s.cfg.flashEnd)
    (ha : addrOk s c.op.base c.op.size c.align = true) :
    (lastProgAfter c s).toNat ≤ s.cfg.flashEnd := by
  obtain ⟨-, -, hend⟩ := addrOk_iff.1 ha
  unfold lastProgAfter
  split
  · exact Nat.zero_le _
  · next a bytes hop =>
    have hend : a + bytes.length ≤ s.cfg.flashEnd := by
      simpa only [hop, Op.base, Op.size] using hend
    split
    · exact (Nat.mod_le _ _).trans hend
    · exact h
  · exact h

/-- The issue of an operation whose address has passed CheckAddr (R104, R109). -/
theorem State.Mid.issue {s : State} (h : s.Mid) {c : FlashCall}
    (ha : addrOk s c.op.base c.op.size c.align = true) : (issue c s).Mid where
  cfg_wf          := h.cfg_wf
  flash_wf        := h.flash_wf
  flash_inside    := h.flash_inside
  domains         := h.domains
  target_inside   := by
    rintro _ _ ⟨⟩
    exact (Bool.and_eq_true_iff.1 ha).2
  status_not_busy := h.status_not_busy
  last_program    := lastProgAfter_le h.last_program ha
  no_proterr      := h.no_proterr
  busy            := h.busy
  unspoiled       := by rintro op ⟨⟩

/-! ### DoFlashOp and the lock domains -/

/-- Command i may stand in s at the polls p of the busy-waits of the call c. -/
structure MayStand (i : Instr) (p : WaitKind → Point) (c : FlashCall) (s : State) : Prop
    extends s.Mid where
  position : ∀ w, (p w).belongsTo i = true
  call     : ∀ w, callAt i (p w) s = some c
  domain   : ∀ w d, (p w).openDomain = some d → s.lock d = false ∧ s.lock d.other = true

/-- A primitive command may stand at its polls. The default proofs evaluate its position and call. -/
theorem State.Mid.mayStand {s : State} (h : s.Mid) {i : Instr} {c : FlashCall}
    (hpos : ∀ w, (Point.wait w).belongsTo i = true := by rintro (_ | _) <;> rfl)
    (hcall : ∀ w, callAt i (.wait w) s = some c := by intro w; rfl) : MayStand i .wait c s :=
  ⟨h, hpos, hcall, by rintro _ _ ⟨⟩⟩

/-- So may an orchestrator that has the domain of its position open (R170, R178). -/
theorem State.Runs.mayStand {d : Domain} {s : State} (h : s.Runs d) {i : Instr}
    {p : WaitKind → Point} {c : FlashCall}
    (hd : ∀ w, (p w).openDomain = some d := by intro w; rfl)
    (hpos : ∀ w, (p w).belongsTo i = true := by rintro (_ | _) <;> rfl)
    (hcall : ∀ w, callAt i (p w) s = some c := by intro w; rfl) : MayStand i p c s := by
  refine ⟨h.toMid, hpos, hcall, fun w e he => ?_⟩
  obtain rfl : d = e := Option.some.inj ((hd w).symm.trans he)
  exact ⟨h.opened, h.shut⟩

/-- One step inside DoFlashOp keeps the invariant where what the command goes on with does. That
finds the guarded fields as they were. -/
theorem inv_andThen {i : Instr} {p : WaitKind → Point} {c : FlashCall} {s : State} {e : Call}
    (h : MayStand i p c s) (ha : addrOk s c.op.base c.op.size c.align = true) (he : CallEnd c s e)
    {k : OpResult → State → State}
    (hk : ∀ r t, t.guarded = s.guarded → t.flashStatus ≠ .busy → r ≠ .busy → (k r t).Inv) :
    (e.andThen i p k).Inv := by
  have hchecked (w : WaitKind) (c' : FlashCall) (hc : callAt i (p w) s = some c') :
      addrOk s c'.op.base c'.op.size c'.align = true := by
    obtain rfl : c = c' := Option.some.inj ((h.call w).symm.trans hc)
    exact ha
  cases he with
  | fault r n =>
    exact State.Sound.raiseFault r (h.toMid.congr (t := setPolls n s) rfl h.status_not_busy).toSound
  | waiting w n _ => exact h.toMid.suspend n (h.position w) (h.domain w) (hchecked w)
  | issued n =>
    refine (h.toMid.issue ha).suspend 1 (h.position _) (h.domain _) fun c' hc => ?_
    rw [callAt_issue] at hc
    exact hchecked _ c' hc
  | locked n _ => exact hk _ (flagLocked (setPolls n s)) rfl h.status_not_busy (by decide)
  | result r n hr => exact hk r (setPolls n s) rfl h.status_not_busy hr

/-- DoFlashOp from its beginning: it checks the address itself (R104, R109). -/
theorem inv_start {i : Instr} {p : WaitKind → Point} {c : FlashCall} {s : State}
    (h : MayStand i p c s) {k : OpResult → State → State}
    (hk : ∀ r t, t.guarded = s.guarded → t.flashStatus ≠ .busy → r ≠ .busy → (k r t).Inv) :
    ((startFlashOp c s).andThen i p k).Inv := by
  by_cases ha : addrOk s c.op.base c.op.size c.align = true
  · exact inv_andThen h ha (startFlashOp_end c s) hk
  · rw [startFlashOp, if_neg ha]
    exact h.toSound.raiseFault .addr

/-- DoFlashOp from a poll: the invariant holds its address checked (R102, R109). -/
theorem inv_resume {i : Instr} {p : WaitKind → Point} {w : WaitKind} {c : FlashCall} {s : State}
    (h : s.Inv) (hs : s.seq = .exec i (p w)) (hstand : MayStand i p c s)
    {k : OpResult → State → State}
    (hk : ∀ r t, t.guarded = s.guarded → t.flashStatus ≠ .busy → r ≠ .busy → (k r t).Inv) :
    ((resumeFlashOp c w s).andThen i p k).Inv :=
  inv_andThen hstand (h.pending_checked i (p w) c hs (hstand.call w)) (resumeFlashOp_end c w s) hk

/-- UnlockBody keeps the invariant where what follows does, from the domain just opened (R115). -/
theorem inv_unlockThen {d : Domain} {s : State} {k : State → State} (h : s.Mid)
    (hk : (openDomain d s).Runs d → (k (openDomain d s)).Inv) : (unlockThen d k s).Inv := by
  cases ho : s.lock d.other with
  | false =>
    rw [unlockThen_of_open k ho]
    exact h.toSound.raiseFault .unlockOther
  | true =>
    rw [unlockThen_of_locked k ho]
    apply hk
    have hlast : (openDomain d s).lastProg.toNat ≤ s.cfg.flashEnd := by
      simp only [openDomain]
      split
      · exact Nat.zero_le _
      · exact h.last_program
    cases d <;>
      exact { h with
        domains := by simp_all [State.DomainsExclusive, State.lock, Domain.other]
        last_program := hlast
        opened := rfl
        shut := ho }

/-- Locking a domain keeps `Mid` (R116). -/
theorem State.Mid.lock {s : State} (h : s.Mid) (d : Domain) : (setLock d true s).Mid :=
  { h with domains := by cases d <;> simp [State.DomainsExclusive, setLock] }

/-- BufGate keeps the invariant where what follows does (R141). -/
theorem inv_bufGate {s : State} {k : State → State} (h : s.Mid) (hk : (k s).Inv) :
    (bufGate k s).Inv := by
  unfold bufGate
  split
  · exact (h.congr (t := flagLocked s) rfl h.status_not_busy).finish (by decide)
  · exact hk

end Sys2Proof.Machine

/-! ## The primitive commands -/

namespace Sys2Proof.Machine

/-- A primitive command finishes from every state its call can return. -/
theorem State.Mid.finish_result {s : State} (h : s.Mid) (r : OpResult) (t : State)
    (hg : t.guarded = s.guarded) (hst : t.flashStatus ≠ .busy) (hr : r ≠ .busy) :
    (Machine.finish r t).Inv :=
  (h.congr hg hst).finish hr

/-- A primitive erase or program command, at its start and at a poll (R119). -/
theorem inv_flashCommand {s : State} {i : Instr} {p : Point} {c : FlashCall} (h : s.Inv)
    (hs : s.seq = .exec i p)
    (hpos : ∀ w, (Point.wait w).belongsTo i = true := by rintro (_ | _) <;> rfl)
    (hcall : ∀ w, callAt i (.wait w) s = some c := by intro w; rfl) : (flashCommand i c s).Inv := by
  have hm := h.mid hs
  have hstand := hm.mayStand hpos hcall
  unfold flashCommand
  split
  · next w hw =>
    obtain rfl : p = .wait w := (pos_of_exec hs).symm.trans hw
    exact inv_resume h hs hstand hm.finish_result
  · exact inv_start hstand hm.finish_result

/-- Filling the page buffer and what DoFlashOp does with it (R145). -/
theorem inv_programPage {i : Instr} {p : WaitKind → Point} {n : Nat} {s : State} (h : s.Mid)
    (hstand : MayStand i p (pageCall n (fillFromSource s)) (fillFromSource s))
    {k : OpResult → State → State} (hk : ∀ r t, t.guarded = s.guarded →
      t.flashStatus ≠ .busy → r ≠ .busy → (k r t).Inv) :
    ((programPageStart n s).andThen i p k).Inv := by
  unfold programPageStart
  split
  · split
    · exact hk _ (flagLocked s) rfl h.status_not_busy (by decide)
    · exact inv_start hstand hk
  · exact h.toSound.raiseFault .addr

/-- The step of WAIT (R118). -/
theorem inv_wait {s : State} (h : s.Mid) : ((waitStep s).andThen .wait .wait finish).Inv := by
  have hloop (n : Word) :
      ((finalWait (pollOnce (setPolls n s))).andThen .wait .wait finish).Inv := by
    have hp : (setPolls n s).Mid := h.congr rfl h.status_not_busy
    rcases pollOnce_cases (setPolls n s) with ⟨_, e⟩ | ⟨_, e⟩ | ⟨_, e⟩ <;> rw [e]
    · exact hp.finish (flagResult_ne_busy _)
    · exact hp.finish (by decide)
    · exact hp.suspend _ rfl (by rintro d ⟨⟩) (by rintro c ⟨⟩)
  unfold waitStep
  split
  · exact hloop s.polls
  · exact hloop 0

/-- The step of COMMIT_PAGE_FAST (R144). -/
theorem inv_commitPage {s : State} {p : Point} (h : s.Inv)
    (hs : s.seq = .exec .commitPageFast p) :
    ((commitStep s).andThen .commitPageFast .wait finish).Inv := by
  have hm := h.mid hs
  have hstand : MayStand .commitPageFast .wait (pageCall s.fastPage s) s := hm.mayStand
  unfold commitStep
  split
  · next w hw =>
    obtain rfl : p = .wait w := (pos_of_exec hs).symm.trans hw
    exact inv_resume h hs hstand hm.finish_result
  · unfold commitStart
    split
    · split
      · exact inv_start hstand hm.finish_result
      · exact hm.toSound.raiseFault .buf
    · exact hm.toSound.raiseFault .addr

/-- The step of PROGRAM_PAGE_FAST (R145). -/
theorem inv_programPageFast {s : State} {p : Point} (h : s.Inv)
    (hs : s.seq = .exec .programPageFast p) :
    ((programPageStep s).andThen .programPageFast .wait finish).Inv := by
  have hm := h.mid hs
  unfold programPageStep
  split
  · next w hw =>
    obtain rfl : p = .wait w := (pos_of_exec hs).symm.trans hw
    exact inv_resume h hs hm.mayStand hm.finish_result
  · have hfill : (fillFromSource s).Mid := hm.congr rfl hm.status_not_busy
    exact inv_programPage hm hfill.mayStand hm.finish_result

/-! ## RUN_STANDARD -/

/-- The verifying and locking phases (R176, R177). -/
theorem inv_stdVerify {s : State} (h : s.Mid) : (stdVerify s).Inv := by
  obtain ⟨r, -, e⟩ := stdVerify_eq s
  rw [e]
  have hl : (setLock .std true s).Mid := h.lock .std
  exact (hl.congr (t := { s with
      orchPhase := .done, lockStd := true, verifyPassed := r.1, cursor := BitVec.ofNat 32 r.2.1,
      draws := r.2.2 }) rfl h.status_not_busy).finish h.status_not_busy

/-- The programming loop (R175). -/
theorem inv_stdProgramLoop (n : Nat) : ∀ s : State, s.Runs .std → (stdProgramLoop n s).Inv := by
  induction n with
  | zero => exact fun s h => inv_stdVerify h.toMid
  | succ n ih =>
    intro s h
    unfold stdProgramLoop
    split
    · exact inv_start h.mayStand fun r t hg _ hr => ih (stdProgrammed r t) (h.congr hg hr)
    · exact inv_stdVerify h.toMid

theorem inv_stdProgram {s : State} (h : s.Runs .std) : (stdProgram s).Inv :=
  inv_stdProgramLoop _ { setPhase .programming s with cursor := s.startAddr }
    (h.congr rfl h.status_not_busy)

/-- The erasing loop and what follows it (R174). -/
theorem inv_stdEraseLoop (n : Nat) : ∀ s : State, s.Runs .std → (stdEraseLoop n s).Inv := by
  induction n with
  | zero => exact fun s h => inv_stdProgram h
  | succ n ih =>
    intro s h
    unfold stdEraseLoop
    split
    · exact inv_start h.mayStand fun r t hg _ hr => ih (stdErased r t) (h.congr hg hr)
    · exact inv_stdProgram h

/-- RUN_STANDARD from its beginning (R171 to R174). -/
theorem inv_stdStart {s : State} (h : s.Mid) : (stdStart s).Inv := by
  have hk (ph : Phase) : { s with orchKind := .standard, orchPhase := ph }.Mid :=
    h.congr rfl h.status_not_busy
  unfold stdStart
  dsimp only
  split
  · refine inv_unlockThen (hk .unlocking) fun hr => ?_
    generalize openDomain .std _ = u at hr ⊢
    rw [stdErase_eq]
    exact inv_stdEraseLoop _ _ (hr.congr rfl nofun)
  · exact (hk s.orchPhase).toSound.raiseFault .range

/-- The step of RUN_STANDARD (R170). -/
theorem inv_stdStep {s : State} {p : Point} (h : s.Inv) (hs : s.seq = .exec .runStandard p) :
    (stdStep s).Inv := by
  unfold stdStep
  split
  · next w hw =>
    obtain rfl : p = .stdErase w := (pos_of_exec hs).symm.trans hw
    have hr : s.Runs .std := h.runs hs rfl
    exact inv_resume h hs hr.mayStand fun r t hg _ hb =>
      inv_stdEraseLoop _ (stdErased r t) (hr.congr hg hb)
  · next w hw =>
    obtain rfl : p = .stdProgram w := (pos_of_exec hs).symm.trans hw
    have hr : s.Runs .std := h.runs hs rfl
    exact inv_resume h hs hr.mayStand fun r t hg _ hb =>
      inv_stdProgramLoop _ (stdProgrammed r t) (hr.congr hg hb)
  · exact inv_stdStart (h.mid hs)

/-! ## RUN_FAST -/

/-- The locking phase (R185). -/
theorem inv_fastLock {s : State} (h : s.Mid) : (fastLock s).Inv := by
  rw [fastLock_eq]
  have hl : (setLock .fast true s).Mid := h.lock .fast
  exact (hl.congr (t := { s with orchPhase := .done, lockFast := true }) rfl
    h.status_not_busy).finish h.status_not_busy

theorem inv_diagBlockDone {s : State} (r : OpResult) (h : s.Mid) : (diagBlockDone r s).Inv :=
  inv_fastLock (h.congr (t := { s with diagBlock := r, diagRan := true }) rfl h.status_not_busy)

/-- After the second diagnostic erase the open domain is Fast again (R184). -/
theorem inv_diagStdDone {s : State} (nodiag : Bool) (r : OpResult) (h : s.Mid) :
    (diagStdDone nodiag r s).Inv := by
  have hd : { s with diagStd := r }.Mid := h.congr rfl h.status_not_busy
  exact inv_unlockThen (hd.lock .std) fun hr =>
    inv_start hr.mayStand fun r _ hg hst _ => inv_diagBlockDone r (hr.toMid.congr hg hst)

/-- After the first diagnostic erase the open domain is Std (R184). -/
theorem inv_diagPageDone {s : State} (nodiag : Bool) (r : OpResult) (h : s.Mid) :
    (diagPageDone nodiag r s).Inv := by
  have hd : { s with diagPage := r }.Mid := h.congr rfl h.status_not_busy
  exact inv_unlockThen (hd.lock .fast) fun hr =>
    inv_start hr.mayStand fun r _ hg hst _ =>
      inv_diagStdDone nodiag r (hr.toMid.congr hg hst)

/-- The diagnostic phase (R184). -/
theorem inv_fastDiag {s : State} (nodiag : Bool) (h : s.Runs .fast) : (fastDiag nodiag s).Inv := by
  have hd : (setPhase .diagnostic s).Runs .fast := h.congr rfl h.status_not_busy
  unfold fastDiag
  split
  · exact inv_fastLock h.toMid
  · exact inv_start hd.mayStand fun r _ hg hst _ =>
      inv_diagPageDone nodiag r (h.toMid.congr hg hst)

/-- The verifying phase and what follows it (R183). -/
theorem inv_fastVerify {s : State} (nodiag : Bool) (h : s.Runs .fast) :
    (fastVerify nodiag s).Inv := by
  obtain ⟨r, -, e⟩ := fastVerify_eq nodiag s
  rw [e]
  exact inv_fastDiag nodiag (h.congr rfl h.status_not_busy)

/-- The programming loop and what follows it (R182). -/
theorem inv_fastProgramLoop (nodiag : Bool) (n : Nat) :
    ∀ s : State, s.Runs .fast → (fastProgramLoop nodiag n s).Inv := by
  induction n with
  | zero => exact fun s h => inv_fastVerify nodiag h
  | succ n ih =>
    intro s h
    have hfill : (fillFromSource s).Runs .fast := h.congr rfl h.status_not_busy
    unfold fastProgramLoop
    split
    · exact inv_programPage h.toMid hfill.mayStand fun r t hg _ hr =>
        ih (fastProgrammed r t) (h.congr hg hr)
    · exact inv_fastVerify nodiag h

theorem inv_fastErased {s : State} (nodiag : Bool) {r : OpResult} (hr : r ≠ .busy)
    (h : s.Runs .fast) : (fastErased nodiag r s).Inv :=
  inv_fastProgramLoop nodiag _ { setPhase .programming s with flashStatus := r, pageIdx := 0 }
    (h.congr rfl hr)

/-- RUN_FAST from its beginning (R179 to R181). -/
theorem inv_fastStart {s : State} (h : s.Mid) (nodiag : Bool) : (fastStart nodiag s).Inv := by
  have hk (ph : Phase) : { fastEnter s with orchPhase := ph }.Mid := h.congr rfl h.status_not_busy
  unfold fastStart
  dsimp only
  split
  · refine inv_unlockThen (hk .unlocking) fun hr => ?_
    generalize openDomain .fast _ = u at hr ⊢
    have he : (setPhase .erasing (writePattern (clearBody u))).Runs .fast :=
      hr.congr rfl hr.status_not_busy
    exact inv_start he.mayStand fun _ _ hg hst hb =>
      inv_fastErased nodiag hb (he.congr hg hst)
  · exact (hk s.orchPhase).toSound.raiseFault .range

/-- The step of RUN_FAST (R178). -/
theorem inv_fastStep {s : State} {nodiag : Bool} {p : Point} (h : s.Inv)
    (hs : s.seq = .exec (.runFast nodiag) p) : (fastStep nodiag s).Inv := by
  unfold fastStep
  split
  · next w hw =>
    obtain rfl : p = .fastErase w := (pos_of_exec hs).symm.trans hw
    have hr : s.Runs .fast := h.runs hs rfl
    exact inv_resume h hs hr.mayStand fun _ _ hg hst hb =>
      inv_fastErased nodiag hb (hr.congr hg hst)
  · next w hw =>
    obtain rfl : p = .fastProgram w := (pos_of_exec hs).symm.trans hw
    have hr : s.Runs .fast := h.runs hs rfl
    exact inv_resume h hs hr.mayStand fun r t hg _ hb =>
      inv_fastProgramLoop nodiag _ (fastProgrammed r t) (hr.congr hg hb)
  · next w hw =>
    obtain rfl : p = .diagPage w := (pos_of_exec hs).symm.trans hw
    have hr : s.Runs .fast := h.runs hs rfl
    exact inv_resume h hs hr.mayStand fun r _ hg hst _ =>
      inv_diagPageDone nodiag r (hr.toMid.congr hg hst)
  · next w hw =>
    obtain rfl : p = .diagStd w := (pos_of_exec hs).symm.trans hw
    have hr : s.Runs .std := h.runs hs rfl
    exact inv_resume h hs hr.mayStand fun r _ hg hst _ =>
      inv_diagStdDone nodiag r (hr.toMid.congr hg hst)
  · next w hw =>
    obtain rfl : p = .diagBlock w := (pos_of_exec hs).symm.trans hw
    have hr : s.Runs .fast := h.runs hs rfl
    exact inv_resume h hs hr.mayStand fun r _ hg hst _ =>
      inv_diagBlockDone r (hr.toMid.congr hg hst)
  · exact inv_fastStart (h.mid hs) nodiag

end Sys2Proof.Machine

/-! ## Every command -/

namespace Sys2Proof.Machine

/-- Loading four words writes no guarded field (R143). -/
theorem State.Mid.loadBuffer {s : State} (h : s.Mid) : (loadBuffer s).Mid :=
  h.congr (by simp only [State.guarded, Machine.loadBuffer])
    (by simpa only [Machine.loadBuffer] using h.status_not_busy)

/-- A step of the running command keeps the invariant (R102). -/
theorem inv_exec {s t : State} {i : Instr} {p : Point} (h : s.Inv) (hs : s.seq = .exec i p)
    (he : exec i s = .next t) : t.Inv := by
  have hm := h.mid hs
  have hst := hm.status_not_busy
  cases i with
  | unlock d =>
    injection he with he; subst he
    exact inv_unlockThen hm fun hr => hr.toMid.finish (by decide)
  | lock d => injection he with he; subst he; exact (hm.lock d).finish (by decide)
  | clearFlags =>
    injection he with he; subst he
    exact (hm.congr (t := clearBody s) rfl hst).finish (by decide)
  | wait => injection he with he; subst he; exact inv_wait hm
  | erasePage => injection he with he; subst he; exact inv_flashCommand h hs
  | programHalfword => injection he with he; subst he; exact inv_flashCommand h hs
  | programWord => injection he with he; subst he; exact inv_flashCommand h hs
  | resetBuffer =>
    injection he with he; subst he
    exact inv_bufGate hm ((hm.congr (t := resetBuffer s) rfl hst).finish (by decide))
  | loadBuffer =>
    injection he with he; subst he
    split
    · exact inv_bufGate hm (hm.loadBuffer.finish (by decide))
    · exact hm.toSound.raiseFault .addr
  | commitPageFast => injection he with he; subst he; exact inv_commitPage h hs
  | programPageFast => injection he with he; subst he; exact inv_programPageFast h hs
  | erasePageFast => injection he with he; subst he; exact inv_flashCommand h hs
  | eraseBlock32kFast => injection he with he; subst he; exact inv_flashCommand h hs
  | runStandard => injection he with he; subst he; exact inv_stdStep h hs
  | runFast nodiag => injection he with he; subst he; exact inv_fastStep h hs

theorem inv_sequencerTurn {s t : State} (h : s.Inv) (ht : sequencerTurn s = .next t) : t.Inv := by
  cases hs : s.seq with
  | exec i p =>
    rw [sequencerTurn_exec hs] at ht
    exact inv_exec h hs ht
  | idle =>
    simp only [sequencerTurn, hs] at ht
    injection ht with ht; subst ht; exact h
  | faulted =>
    simp only [sequencerTurn, hs] at ht
    injection ht with ht; subst ht; exact h

/-! ## The engine and the reset -/

/-- A write inside the flash window lists no cell outside it (R40). -/
theorem write_inside {m : Memory} {cfg : Params} {a : Nat} {cs : List FlashCell}
    (hm : ∀ e ∈ m, cfg.inFlash e.1 1 = true) (ha : cfg.inFlash a cs.length = true) :
    ∀ e ∈ m.write a cs, cfg.inFlash e.1 1 = true := by
  intro e he
  rcases Memory.mem_write he with he | ⟨hlo, hhi⟩
  · exact hm e he
  · simp only [Params.inFlash, Bool.and_eq_true, decide_eq_true_eq] at ha ⊢
    omega

/-- The call at a poll reads no field a completion writes. -/
theorem callAt_complete (i : Instr) (p : Point) (s : State) (m : Memory) (pg wr eo : Bool) :
    callAt i p { s with pgerr := pg, wrprterr := wr, eop := eo, flash := m, engine := .idle }
      = callAt i p s := by
  cases p with
  | wait w => cases i <;> rfl
  | _ => rfl

/-- A completion keeps the invariant where the array it leaves is as the invariant asks (R110). -/
theorem State.Inv.complete {s : State} (h : s.Inv) {m : Memory} {pg wr eo : Bool} (hw : m.wf)
    (hi : ∀ e ∈ m, s.cfg.inFlash e.1 1 = true) :
    { s with pgerr := pg, wrprterr := wr, eop := eo, flash := m, engine := .idle }.Inv where
  cfg_wf          := h.cfg_wf
  flash_wf        := hw
  flash_inside    := hi
  domains         := h.domains
  target_inside   := nofun
  proterr_faulted := h.proterr_faulted
  faulted_locked  := h.faulted_locked
  busy_exec       := h.busy_exec
  idle_not_busy   := h.idle_not_busy
  status_not_busy := h.status_not_busy
  spoiled_faulted := nofun
  position        := h.position
  run_domain      := h.run_domain
  pending_checked := fun i p c hs hc =>
    h.pending_checked i p c hs (by rwa [callAt_complete] at hc)
  last_program    := h.last_program

/-- The engine's turn keeps the invariant (R110 to R113). -/
theorem inv_engineStep {s : State} (h : s.Inv) : (engineStep s).Inv := by
  cases he : s.engine with
  | idle => rw [engineStep_idle he]; exact h
  | inFlight op b =>
    have hin := h.target_inside op b he
    have hwrite (cs : List FlashCell) (hl : cs.length = op.size) :
        ∀ e ∈ s.flash.write op.base cs, s.cfg.inFlash e.1 1 = true :=
      write_inside h.flash_inside (hl ▸ hin)
    rw [engineStep_busy he]
    rcases completeOp_cases op b s with e | e | e <;> rw [e]
    · exact h.complete (Memory.write_wf h.flash_wf _ _) (hwrite _ (indetCells_length op))
    · exact h.complete h.flash_wf h.flash_inside
    · exact h.complete (Memory.write_wf h.flash_wf _ _) (hwrite _ (cells_length op))

/-- A system reset keeps the invariant (R240 to R243). -/
theorem inv_systemReset {s : State} (h : s.Inv) : (systemReset s).Inv := by
  have hflash : (flashAfterReset s).wf ∧ ∀ e ∈ flashAfterReset s, s.cfg.inFlash e.1 1 = true := by
    unfold flashAfterReset
    split
    · exact ⟨h.flash_wf, h.flash_inside⟩
    · next op b he =>
      exact ⟨Memory.write_wf h.flash_wf _ _, write_inside h.flash_inside
        ((indetCells_length op).symm ▸ h.target_inside op b he)⟩
  have hexec (i : Instr) (p : Point) : (systemReset s).seq ≠ .exec i p := by
    simp [systemReset, State.reset]
  exact
    { cfg_wf          := h.cfg_wf
      flash_wf        := hflash.1
      flash_inside    := hflash.2
      domains         := .inl rfl
      target_inside   := nofun
      proterr_faulted := by simp [systemReset, State.reset]
      faulted_locked  := nofun
      busy_exec       := fun i p hs => absurd hs (hexec i p)
      idle_not_busy   := fun _ => nofun
      status_not_busy := nofun
      spoiled_faulted := nofun
      position        := fun i p hs => absurd hs (hexec i p)
      run_domain      := fun i p _ hs => absurd hs (hexec i p)
      pending_checked := fun i p _ hs => absurd hs (hexec i p)
      last_program    := Nat.zero_le _ }

/-! ## The host -/

/-- How a move of the host can end, from state s (R14, R63, R64, R113). -/
inductive HostEnd (s : State) : State → Prop
  | latched (v : Word) (k : Nat) : HostEnd s (latch v k s)
  | fault (r : FaultReason) : HostEnd s (raiseFault r s)
  | dropped : s.seqbsy = true → HostEnd s { s with ovr := true }
  | written (off : Nat) (v : Word) : s.seqbsy = false → HostEnd s (regWrite off v s)
  | clock (b : Bool) : HostEnd s { s with clkSafe := b }
  | clockFell : HostEnd s (raiseFault .clk { s with clkSafe := false, engine := spoil s.engine })

theorem memRead_ends {a n : Nat} {s t : State} (h : memRead a n s = .next t) : HostEnd s t := by
  unfold memRead at h
  split at h
  · split at h <;> (injection h with h; subst h)
    · exact .latched _ _
    · exact .fault .bus
  · split at h
    · split at h <;> (injection h with h; subst h)
      · exact .latched _ _
      · exact .fault .bus
    · cases h

theorem memWrite_ends {a n : Nat} {v : Word} {s t : State} (h : memWrite a n v s = .next t) :
    HostEnd s t := by
  unfold memWrite at h
  split at h
  · split at h
    · split at h <;> (injection h with h; subst h)
      · next hb => exact .dropped hb
      · next hb => exact .written _ v (Bool.eq_false_iff.2 hb)
    · injection h with h; subst h
      exact .fault .bus
  · split at h
    · injection h with h; subst h
      exact .fault .flashWrite
    · cases h

theorem driveClk_ends (b : Bool) (s : State) : HostEnd s (driveClk b s) := by
  unfold driveClk
  split
  · exact .clockFell
  · exact .clock b

theorem hostAct_ends {a : HostAct} {s t : State} (h : hostAct a s = .next t) : HostEnd s t := by
  cases a with
  | read a n => exact memRead_ends h
  | write a n v => exact memWrite_ends h
  | clk b => injection h with h; subst h; exact driveClk_ends b s

/-- A register write touches what the invariant looks at in one case only: a write to CMD, which may
be the acceptance of a command (R22, R23). -/
theorem regWrite_keeps {off : Nat} (v : Word) (s : State) (h0 : off ≠ 0) :
    (regWrite off v s).guarded = s.guarded ∧ (regWrite off v s).flashStatus = s.flashStatus ∧
      (regWrite off v s).seq = s.seq ∧ (regWrite off v s).faults = s.faults ∧
      (regWrite off v s).agenda = s.agenda := by
  unfold regWrite
  split
  · exact absurd rfl h0
  all_goals repeat' split
  all_goals exact ⟨rfl, rfl, rfl, rfl, rfl⟩

/-- The acceptance of a command (R100). -/
theorem inv_acceptCmd {s : State} (h : s.Inv) (hs : s.seqbsy = false) (w : Word) :
    (acceptCmd w s).Inv := by
  have hno (i : Instr) (p : Point) : s.seq ≠ .exec i p := by
    intro he
    simp [State.seqbsy, he] at hs
  have hovr : { s with ovr := true }.Inv :=
    h.congr rfl rfl rfl rfl fun i p hsq => absurd hsq (hno i p)
  unfold acceptCmd
  split
  · exact hovr
  · exact hovr
  · next hidle =>
    split
    · exact h.congr rfl rfl rfl rfl fun i p hsq => absurd hsq (hno i p)
    · next i _ =>
      have hprot : s.proterr = false :=
        Bool.eq_false_iff.2 fun hp => by simpa [hidle] using h.proterr_faulted.1 hp
      exact
        { h with
          proterr_faulted := by simp [hprot]
          faulted_locked  := nofun
          busy_exec       := fun _ _ _ => rfl
          idle_not_busy   := nofun
          spoiled_faulted := fun op he => by simpa [hidle] using h.spoiled_faulted op he
          position        := by rintro _ _ ⟨⟩; cases i <;> rfl
          run_domain      := by rintro _ _ _ ⟨⟩ ⟨⟩
          pending_checked := by rintro _ _ _ ⟨⟩ ⟨⟩ }

theorem inv_regWrite {s : State} (h : s.Inv) (hs : s.seqbsy = false) (off : Nat) (v : Word) :
    (regWrite off v s).Inv := by
  by_cases h0 : off = 0
  · subst h0; exact inv_acceptCmd h hs v
  · obtain ⟨hg, hst, hseq, hf, -⟩ := regWrite_keeps v s h0
    refine h.congr hg hst hseq hf fun i p he => ?_
    simp [State.seqbsy, he] at hs

/-- Nor a field of the host's own or the model's. -/
theorem callAt_modelFields (i : Instr) (p : Point) (s : State) (ovr clk : Bool) (g : List Turn)
    (k : Nat) (v : Word) :
    callAt i p { s with ovr := ovr, clkSafe := clk, agenda := g, draws := k, busData := v }
      = callAt i p s := by
  cases p with
  | wait w => cases i <;> rfl
  | _ => rfl

/-- The host's own fields and the model's are none the invariant looks at. -/
theorem State.Inv.host_fields {s : State} (h : s.Inv) (ovr clk : Bool) (g : List Turn) (k : Nat)
    (v : Word) :
    { s with ovr := ovr, clkSafe := clk, agenda := g, draws := k, busData := v }.Inv :=
  h.congr rfl rfl rfl rfl fun i p _ => callAt_modelFields i p s _ _ _ _ _

/-- The mark of a broken clock window leaves an operation its target (R113). -/
theorem spoil_target {e : Engine} {op : Op} {b : Bool} (h : spoil e = .inFlight op b) :
    ∃ b', e = .inFlight op b' := by
  cases e with
  | idle => cases h
  | inFlight op' b' => cases h; exact ⟨b', rfl⟩

/-- A move of the host keeps the invariant. -/
theorem inv_hostEnd {s t : State} (h : s.Inv) (ht : HostEnd s t) : t.Inv := by
  cases ht with
  | latched v k => exact h.host_fields s.ovr s.clkSafe s.agenda k v
  | fault r => exact h.sound.raiseFault r
  | dropped _ => exact h.host_fields true s.clkSafe s.agenda s.draws s.busData
  | written off v hb => exact inv_regWrite h hb off v
  | clock b => exact h.host_fields s.ovr b s.agenda s.draws s.busData
  | clockFell =>
    refine State.Sound.raiseFault .clk { h.sound with target_inside := fun op b he => ?_ }
    obtain ⟨b', hs⟩ := spoil_target he
    exact h.target_inside op b' hs

/-! ## The settled statements -/

theorem inv_takeTurn {x : Turn} {s t : State} (h : s.Inv) (ht : takeTurn x s = .next t) :
    t.Inv := by
  cases x with
  | host a => exact inv_hostEnd h (hostAct_ends ht)
  | sequencer => exact inv_sequencerTurn h ht
  | engine => injection ht with ht; subst ht; exact inv_engineStep h
  | reset => injection ht with ht; subst ht; exact inv_systemReset h

/-- Settles O58: each turn of each agent keeps the invariant. -/
theorem stepKeepsTheInvariant : Obligations.StepKeepsTheInvariant := by
  intro s t h hstep
  obtain ⟨x, g, d, hx⟩ := step_is_turn s
  exact inv_takeTurn (h.host_fields s.ovr s.clkSafe g d s.busData) (hx ▸ hstep)

/-- Any number of steps keeps the invariant. -/
theorem inv_steps (k : Nat) {s t : State} (h : s.Inv) (ht : steps k s = .next t) : t.Inv := by
  induction k generalizing s with
  | zero => injection ht with ht; subst ht; exact h
  | succ k ih =>
    cases hs : step s with
    | next u =>
      rw [steps_one hs] at ht
      exact ih (stepKeepsTheInvariant s u h hs) ht
    | fault r => simp [steps, hs] at ht
    | refused r => simp [steps, hs] at ht

/-- Settles O60: it is a clause of the invariant, which every step keeps. -/
theorem atMostOneDomainIsEverOpen : Obligations.AtMostOneDomainIsEverOpen :=
  fun k _ _ h ht => (inv_steps k h ht).domains

end Sys2Proof.Machine

/-! ## What commands and turns leave unchanged -/

namespace Sys2Proof.Machine

/-- What no command writes: the host's registers and flags, the parameters, the model's own agenda
and bus data, and the array. -/
def State.hostSide (s : State) :=
  (s.addr, s.data0, s.data1, s.data2, s.data3, s.timeout, s.startAddr, s.endAddr, s.pattern, s.ovr,
    s.illcmd, s.clkSafe, s.cfg, s.agenda, s.busData, s.flash)

theorem Part.hostSide_eq {s t : State} (h : Part s t) : t.hostSide = s.hostSide := by
  cases h <;> rfl

theorem Parts.hostSide_eq {s t : State} (h : Parts s t) : t.hostSide = s.hostSide := by
  induction h with
  | refl => rfl
  | tail _ h ih => exact h.hostSide_eq.trans ih

/-- A step of a command writes nothing of the host's side, nor does an issue. -/
theorem StepEnd.hostSide_eq {s t : State} (h : StepEnd s t) : t.hostSide = s.hostSide := by
  cases h with
  | quiet h => exact h.hostSide_eq
  | issued c i p h => exact h.hostSide_eq

/-- A byte under no operation reads from the array and the parameters alone (R66). -/
theorem byteRead_of_not_underOp {s t : State} {k x : Nat} (hs : s.underOp x = false)
    (ht : t.underOp x = false) (hflash : t.flash = s.flash) (hcfg : t.cfg = s.cfg) :
    byteRead t k x = byteRead s k x := by
  simp only [byteRead, hs, ht, hflash, hcfg]

/-! ### The fault record -/

/-- The fault record of t begins with that of s, and the parameters are the same (R20, R45). -/
abbrev RecordGrows (s t : State) : Prop := s.faults <+: t.faults ∧ t.cfg = s.cfg

theorem RecordGrows.trans {s t u : State} (h : RecordGrows s t) (h' : RecordGrows t u) :
    RecordGrows s u :=
  ⟨h.1.trans h'.1, h'.2.trans h.2⟩

theorem Part.recordGrows {s t : State} (h : Part s t) : RecordGrows s t := by
  cases h with
  | fault r => exact ⟨List.prefix_append _ _, rfl⟩
  | _ => exact ⟨List.prefix_rfl, rfl⟩

theorem Parts.recordGrows {s t : State} (h : Parts s t) : RecordGrows s t := by
  induction h with
  | refl => exact ⟨List.prefix_rfl, rfl⟩
  | tail _ h ih => exact ih.trans h.recordGrows

theorem StepEnd.recordGrows {s t : State} (h : StepEnd s t) : RecordGrows s t := by
  cases h with
  | quiet h => exact h.recordGrows
  | issued c i p h => exact h.recordGrows

theorem acceptCmd_recordGrows (w : Word) (s : State) : RecordGrows s (acceptCmd w s) := by
  unfold acceptCmd
  repeat' split
  all_goals exact ⟨List.prefix_rfl, rfl⟩

theorem HostEnd.recordGrows {s t : State} (h : HostEnd s t) : RecordGrows s t := by
  cases h with
  | fault r => exact ⟨List.prefix_append _ _, rfl⟩
  | clockFell => exact ⟨List.prefix_append _ _, rfl⟩
  | written off v _ =>
    by_cases h0 : off = 0
    · subst h0; exact acceptCmd_recordGrows v s
    · obtain ⟨hg, -, -, hf, -⟩ := regWrite_keeps v s h0
      exact ⟨hf ▸ List.prefix_rfl, congrArg Prod.fst hg⟩
  | _ => exact ⟨List.prefix_rfl, rfl⟩

theorem engineStep_recordGrows (s : State) : RecordGrows s (engineStep s) := by
  cases he : s.engine with
  | idle => exact ⟨by rw [engineStep_idle he], by rw [engineStep_idle he]⟩
  | inFlight op b =>
    rw [engineStep_busy he]
    rcases completeOp_cases op b s with e | e | e <;> rw [e] <;> exact ⟨List.prefix_rfl, rfl⟩

/-- Settles O18: by the turn taken, with the parts of a command's step and the ends of a host
move. -/
theorem faultRecordOnlyGrows : Obligations.FaultRecordOnlyGrows := by
  intro s t hstep
  obtain ⟨x, g, d, hx⟩ := step_is_turn s
  rw [hx] at hstep
  have key : RecordGrows { s with agenda := g, draws := d } t := by
    cases x with
    | host a => exact (hostAct_ends hstep).recordGrows
    | sequencer => exact (sequencerTurn_ends hstep).recordGrows
    | engine => injection hstep with h; subst h; exact engineStep_recordGrows _
    | reset => injection hstep with h; subst h; exact ⟨List.prefix_rfl, rfl⟩
  exact key

/-! ### The cells -/

/-- The turn a step takes: the agenda's first, or the engine's or the sequencer's where the agenda
is silent (R14). -/
theorem step_turn_cases (s : State) :
    (∃ x rest, s.agenda = x :: rest ∧ step s = takeTurn x { s with agenda := rest }) ∨
    (∃ x d, (x = .engine ∨ x = .sequencer) ∧ step s = takeTurn x { s with draws := d }) := by
  unfold step
  split
  · refine .inr ?_
    unfold silentTurn
    split
    · split
      · exact ⟨.engine, s.draws + 1, .inl rfl, rfl⟩
      · exact ⟨.sequencer, s.draws + 1, .inr rfl, rfl⟩
    · split
      · exact ⟨.sequencer, s.draws, .inr rfl, rfl⟩
      · exact ⟨.engine, s.draws, .inl rfl, rfl⟩
  · next x rest ha => exact .inl ⟨x, rest, ha, rfl⟩

/-- Only the engine's completion and the reset change cells (R70, R110, R242). -/
theorem takeTurn_flash {x : Turn} {s t : State} (h : takeTurn x s = .next t)
    (hne : t.flash ≠ s.flash) : x = .reset ∨ (s.engine ≠ .idle ∧ t.engine = .idle) := by
  cases x with
  | host a => exact absurd (hostAct_keeps h).1 hne
  | sequencer => exact absurd (sequencerTurn_ends h).flash_eq hne
  | reset => exact .inl rfl
  | engine =>
    injection h with h; subst h
    cases he : s.engine with
    | idle => exact absurd (by rw [engineStep_idle he]) hne
    | inFlight op b => exact .inr ⟨nofun, by rw [engineStep_busy he, completeOp_engine]⟩

/-- Settles O44: cells by the turn taken, the host's side by the parts of a command's step. -/
theorem commandsKeepOperandsAndCells : Obligations.CommandsKeepOperandsAndCells := by
  refine ⟨fun s t x rest ha hx hstep => ?_, fun s t hstep hne => ?_, fun i s t h => ?_⟩
  · simp only [step, ha] at hstep
    by_contra hne
    rcases takeTurn_flash hstep hne with rfl | ⟨hbusy, hidle⟩
    · simp at hx
    · rcases hx with rfl | ⟨a, rfl⟩
      · exact hne (sequencerTurn_ends hstep).flash_eq
      · exact hne (hostAct_keeps hstep).1
  · rcases step_turn_cases s with ⟨x, rest, ha, hx⟩ | ⟨x, d, hd, hx⟩ <;> rw [hx] at hstep
    · rcases takeTurn_flash hstep hne with rfl | hdone
      · exact .inl ⟨rest, ha⟩
      · exact .inr hdone
    · rcases takeTurn_flash hstep hne with rfl | hdone
      · simp at hd
      · exact .inr hdone
  · have hkeep := (exec_ends h).hostSide_eq
    simp only [State.hostSide, Prod.mk.injEq] at hkeep
    obtain ⟨h1, h2, h3, h4, h5, h6, h7, h8, h9, h10, h11, h12, hcfg, h14, h15, hflash⟩ := hkeep
    exact ⟨h1, h2, h3, h4, h5, h6, h7, h8, h9, h10, h11, h12, hcfg, h14, h15, hflash,
      fun x k hs ht => byteRead_of_not_underOp hs ht hflash hcfg⟩

/-! ### The orchestrators' registers -/

/-- The registers the orchestrators alone write, and SRCBUF. -/
def State.orchSide (s : State) :=
  (s.orchPhase, s.orchKind, s.nbrPage, s.eraseCnt, s.cursor, s.flashStatus, s.verifyPassed,
    s.verifyFlag, s.pageIdx, s.diagPage, s.diagStd, s.diagBlock, s.diagRan, s.srcbuf, s.srcWritten)

/-- A primitive command that finishes with its call's result writes none of them. -/
theorem orchSide_finishCall {c : FlashCall} {s : State} {e : Call} (h : CallEnd c s e) (i : Instr) :
    (e.andThen i .wait finish).orchSide = s.orchSide := by
  cases h <;> rfl

theorem orchSide_flashCommand (i : Instr) (c : FlashCall) (s : State) :
    (flashCommand i c s).orchSide = s.orchSide := by
  unfold flashCommand
  split
  · exact orchSide_finishCall (resumeFlashOp_end _ _ s) i
  · exact orchSide_finishCall (startFlashOp_end _ s) i

theorem orchSide_wait (s : State) :
    ((waitStep s).andThen .wait .wait finish).orchSide = s.orchSide := by
  have hloop (n : Word) :
      ((finalWait (pollOnce (setPolls n s))).andThen .wait .wait finish).orchSide = s.orchSide := by
    rcases pollOnce_cases (setPolls n s) with ⟨_, e⟩ | ⟨_, e⟩ | ⟨_, e⟩ <;> rw [e] <;>
      simp [State.orchSide, finalWait]
  unfold waitStep
  split
  · exact hloop s.polls
  · exact hloop 0

theorem orchSide_bufGate {s : State} {k : State → State} (hk : (k s).orchSide = s.orchSide) :
    (bufGate k s).orchSide = s.orchSide := by
  unfold bufGate
  split
  · rfl
  · exact hk

theorem orchSide_commitPage (s : State) :
    ((commitStep s).andThen .commitPageFast .wait finish).orchSide = s.orchSide := by
  unfold commitStep
  split
  · exact orchSide_finishCall (resumeFlashOp_end _ _ s) _
  · unfold commitStart
    split
    · split
      · exact orchSide_finishCall (startFlashOp_end _ s) _
      · rfl
    · rfl

theorem orchSide_programPageFast (s : State) :
    ((programPageStep s).andThen .programPageFast .wait finish).orchSide = s.orchSide := by
  unfold programPageStep
  split
  · exact orchSide_finishCall (resumeFlashOp_end _ _ s) _
  · unfold programPageStart
    split
    · split
      · rfl
      · exact orchSide_finishCall (startFlashOp_end _ (fillFromSource s)) _
    · rfl

/-- A step of a primitive command writes none of the orchestrators' registers. -/
theorem orchSide_exec {i : Instr} {s t : State} (hstd : i ≠ .runStandard)
    (hfast : ∀ n, i ≠ .runFast n) (h : exec i s = .next t) : t.orchSide = s.orchSide := by
  cases i with
  | unlock d =>
    injection h with h; subst h
    unfold unlockThen
    split <;> rfl
  | lock d => injection h with h; subst h; rfl
  | clearFlags => injection h with h; subst h; rfl
  | wait => injection h with h; subst h; exact orchSide_wait s
  | erasePage => injection h with h; subst h; exact orchSide_flashCommand _ _ s
  | programHalfword => injection h with h; subst h; exact orchSide_flashCommand _ _ s
  | programWord => injection h with h; subst h; exact orchSide_flashCommand _ _ s
  | resetBuffer =>
    injection h with h; subst h
    refine orchSide_bufGate ?_
    rfl
  | loadBuffer =>
    injection h with h; subst h
    split
    · refine orchSide_bufGate ?_
      simp [State.orchSide, loadBuffer]
    · rfl
  | commitPageFast => injection h with h; subst h; exact orchSide_commitPage s
  | programPageFast => injection h with h; subst h; exact orchSide_programPageFast s
  | erasePageFast => injection h with h; subst h; exact orchSide_flashCommand _ _ s
  | eraseBlock32kFast => injection h with h; subst h; exact orchSide_flashCommand _ _ s
  | runStandard => exact absurd rfl hstd
  | runFast n => exact absurd rfl (hfast n)

/-- Settles O45: command by command. -/
theorem primitivesKeepOrchestratorRegisters : Obligations.PrimitivesKeepOrchestratorRegisters := by
  intro i s t hstd hfast h
  have hkeep := orchSide_exec hstd hfast h
  simpa only [State.orchSide, Prod.mk.injEq] using hkeep

end Sys2Proof.Machine

/-! ## The register window -/

namespace Sys2Proof.Machine

/-! ### Operand registers -/

/-- The offsets of the operand registers and of SRCBUF (R22). -/
abbrev OperandOffset (off : Nat) : Prop :=
  off ∈ [0x004, 0x008, 0x00C, 0x010, 0x014, 0x024, 0x02C, 0x030, 0x034] ∨
    (0x100 ≤ off ∧ off < 0x200 ∧ off % 4 = 0)

theorem OperandOffset.in_window {off : Nat} (h : OperandOffset off) :
    off ≠ 0 ∧ off < 0x200 ∧ off % 4 = 0 := by
  simp only [OperandOffset, List.mem_cons, List.not_mem_nil, or_false] at h
  omega

/-- A word of SRCBUF reads what was written to it (R38). -/
theorem srcWord_writeSource {s : State} {j : Nat} (k : Nat) (v : Word) (hj : j < 64) :
    srcWord (writeSource j v s) k j = v := by
  have hbit : (s.srcWritten ||| 1#64 <<< j).getLsbD j = true := by simp [hj]
  simp only [srcWord, writeSource, hbit, if_true, bufWord_setIfInBounds]
  simp [hj]

/-- An operand register reads what was written to it; PATTERN holds its low half (R23, R31). -/
theorem regRead_regWrite {off : Nat} (h : OperandOffset off) (v : Word) (s : State) :
    regRead (regWrite off v s) off = if off = 0x034 then v &&& 0x0000FFFF else v := by
  rcases h with h | ⟨hlo, hhi, -⟩
  · simp only [List.mem_cons, List.not_mem_nil, or_false] at h
    rcases h with rfl | rfl | rfl | rfl | rfl | rfl | rfl | rfl | rfl
    case inr.inr.inr.inr.inr.inr.inr.inr => exact half_zeroExtend v
    all_goals rfl
  · rw [regRead_source _ hlo, regWrite_source s v hlo, srcWord_writeSource _ v (by omega),
      if_neg (by omega)]

/-- The host writes a register and reads it in the next step, with no command running (R64, R63). -/
theorem steps_write_read {s : State} {off : Nat} {v : Word} {rest : List Turn}
    (hwf : s.cfg.wf = true) (hidle : s.seqbsy = false) (h0 : off ≠ 0) (hlt : off < 0x200)
    (h4 : off % 4 = 0) (ha : s.agenda = s.wr off v :: s.rd off :: rest) :
    ∃ u t, steps 2 s = .next t ∧ t.agenda = rest ∧ t.flash = s.flash ∧ t.seq = s.seq ∧
      t.busData = regRead (regWrite off v u) off := by
  have hwrite := step_hostWrite hwf hlt h4 ha
  rw [if_neg (by simp [hidle])] at hwrite
  generalize hu : { s with agenda := s.rd off :: rest } = u at hwrite
  obtain ⟨hg, -, hseq, -, hag⟩ := regWrite_keeps v u h0
  simp only [State.guarded, Prod.mk.injEq] at hg
  obtain ⟨hcfg, hflash, -⟩ := hg
  have hwf' : (regWrite off v u).cfg.wf = true := by rw [hcfg, ← hu]; exact hwf
  have hread : (regWrite off v u).agenda = (regWrite off v u).rd off :: rest := by
    rw [hag, State.rd, hcfg, ← hu]; rfl
  refine ⟨u, _, (steps_one hwrite).trans (steps_one (step_hostRead hwf' hlt h4 hread)), rfl, ?_, ?_,
    rfl⟩
  · exact hflash.trans (by rw [← hu])
  · exact hseq.trans (by rw [← hu])

/-- Settles O8: the write is the host's step, and the read the next one. -/
theorem operandRegistersReadBack : Obligations.OperandRegistersReadBack := by
  intro s off v rest hwf hidle (hoff : OperandOffset off) ha
  obtain ⟨h0, hlt, h4⟩ := hoff.in_window
  obtain ⟨u, t, hsteps, hag, hflash, hseq, hdata⟩ := steps_write_read hwf hidle h0 hlt h4 ha
  exact ⟨t, hsteps, hag, hflash, hseq, hdata.trans (regRead_regWrite hoff v u)⟩

/-! ### Read-only registers -/

/-- The offsets of the read-only registers, STATR apart, and the reserved ones (R22, R39). -/
abbrev ReadOnlyOffset (off : Nat) : Prop :=
  off ∈ [0x01C, 0x020, 0x028, 0x038, 0x03C, 0x040, 0x044, 0x048, 0x04C, 0x050, 0x054, 0x058,
      0x05C] ∨
    (0x060 ≤ off ∧ off < 0x100 ∧ off % 4 = 0)

theorem ReadOnlyOffset.in_window {off : Nat} (h : ReadOnlyOffset off) :
    off < 0x200 ∧ off % 4 = 0 := by
  simp only [ReadOnlyOffset, List.mem_cons, List.not_mem_nil, or_false] at h
  omega

theorem regWrite_readOnly {off : Nat} (h : ReadOnlyOffset off) (v : Word) (s : State) :
    regWrite off v s = s := by
  simp only [ReadOnlyOffset, List.mem_cons, List.not_mem_nil, or_false] at h
  have hsrc : ¬0x100 ≤ off := by omega
  unfold regWrite
  split
  case h_12 => exact if_neg hsrc
  all_goals omega

/-- Settles O9: the host's write leaves the register file as it was. -/
theorem readOnlyRegistersIgnoreWrites : Obligations.ReadOnlyRegistersIgnoreWrites := by
  intro s off v rest hwf hidle (hoff : ReadOnlyOffset off) ha
  obtain ⟨hlt, h4⟩ := hoff.in_window
  rw [step_hostWrite hwf hlt h4 ha, if_neg (by simp [hidle]), regWrite_readOnly hoff]

/-! ### Status registers -/

theorem bsy_eq (s : State) : s.bsy = (s.engine != .idle) := by
  cases h : s.engine <;> simp [State.bsy, h]

/-- STATR bit by bit (R26). -/
theorem statr_getLsbD (s : State) (k : Nat) : s.statr.getLsbD k =
    ((k == 0 && s.engine != .idle) || (k == 1 && s.seqbsy) || (k == 2 && s.pgerr) ||
      (k == 4 && s.wrprterr) || (k == 5 && s.eop) || (k == 8 && s.ovr) || (k == 9 && s.illcmd) ||
      (k == 10 && s.proterr)) := by
  simp only [State.statr, BitVec.getLsbD_or, bitAt_getLsbD, bsy_eq, Nat.reduceLT, Bool.and_comm]

theorem lockr_getLsbD (s : State) (k : Nat) :
    s.lockr.getLsbD k = ((k == 0 && s.lockStd) || (k == 1 && s.lockFast)) := by
  simp only [State.lockr, BitVec.getLsbD_or, bitAt_getLsbD, Nat.reduceLT, Bool.and_comm]

theorem verify_getLsbD (s : State) (k : Nat) :
    s.verify.getLsbD k = ((k == 0 && s.verifyPassed) || (k == 1 && s.verifyFlag)) := by
  simp only [State.verify, BitVec.getLsbD_or, bitAt_getLsbD, Nat.reduceLT, Bool.and_comm]

/-- Two fields of a word that do not overlap. -/
theorem toNat_or_field {a b : Word} {k : Nat} (ha : a.toNat < 2 ^ k)
    (hb : b.toNat * 2 ^ k < 2 ^ 32) :
    (a ||| b <<< k).toNat = a.toNat + b.toNat * 2 ^ k := by
  rw [BitVec.toNat_or, BitVec.toNat_shiftLeft, Nat.shiftLeft_eq, Nat.mod_eq_of_lt hb, Nat.or_comm,
    Nat.mul_comm, ← Nat.two_pow_add_eq_or_of_lt ha, Nat.add_comm]

theorem code_lt (r : OpResult) : r.code.toNat < 8 := by
  cases r <;> decide

theorem phaseCode_lt (p : Phase) : p.code.toNat < 8 := by
  cases p <;> decide

/-- A word and one bit above it. -/
theorem toNat_or_bitAt {a : Word} {b : Bool} {k : Nat} (hk : k < 32) (ha : a.toNat < 2 ^ k) :
    (a ||| bitAt b k).toNat = a.toNat + if b then 2 ^ k else 0 := by
  have hlt : 2 ^ k < 2 ^ 32 := Nat.pow_lt_pow_right (by decide) hk
  cases b
  · simp [bitAt]
  · simpa [bitAt] using toNat_or_field (b := 1#32) ha (by simpa using hlt)

/-- ORCH packs the phase and the kind (R30). -/
theorem orch_toNat (s : State) :
    s.orch.toNat = s.orchPhase.code.toNat + if s.orchKind = .fast then 256 else 0 := by
  have := phaseCode_lt s.orchPhase
  rw [State.orch, toNat_or_bitAt (by decide) (by omega)]
  simp

/-- DIAG packs three codes and RAN (R35). -/
theorem diag_toNat (s : State) :
    s.diag.toNat = s.diagPage.code.toNat + 8 * s.diagStd.code.toNat + 64 * s.diagBlock.code.toNat +
      if s.diagRan then 512 else 0 := by
  have h1 := code_lt s.diagPage
  have h2 := code_lt s.diagStd
  have h3 := code_lt s.diagBlock
  have e1 := toNat_or_field (a := s.diagPage.code) (b := s.diagStd.code) (k := 3) h1 (by omega)
  have e2 := toNat_or_field (a := s.diagPage.code ||| s.diagStd.code <<< 3) (b := s.diagBlock.code)
    (k := 6) (by omega) (by omega)
  rw [State.diag, toNat_or_bitAt (by decide) (by omega), e2, e1]
  simp only [Nat.reducePow]
  omega

/-- CMD and the reserved offsets read 0 (R24, R39). -/
theorem regRead_zero {off : Nat} (s : State)
    (h : off = 0x000 ∨ (0x060 ≤ off ∧ off < 0x100 ∧ off % 4 = 0)) : regRead s off = 0 := by
  have hsrc : ¬0x100 ≤ off := by omega
  unfold regRead
  split
  case h_1 => rfl
  case h_25 => exact if_neg hsrc
  all_goals omega

/-- Settles O10: the read latches the register, and each register reads as its lemma says. -/
theorem statusRegistersReadTheirBits : Obligations.StatusRegistersReadTheirBits := by
  intro s t off rest hwf ha hstep code
  have hread (hlt : off < 0x200) (h4 : off % 4 = 0) : t.busData = regRead s off := by
    rw [step_hostRead hwf hlt h4 ha] at hstep
    injection hstep with hstep; subst hstep; rfl
  have hcode (r : OpResult) : r.code.toNat = code r := by cases r <;> rfl
  refine ⟨?_, ?_, ?_, ?_, ?_, ?_, ?_, ?_, ?_, ?_, ?_, ?_, ?_, ?_, fun h => ?reserved⟩
  case reserved => rw [hread (by omega) (by omega), regRead_zero s h]
  all_goals
    rintro rfl
    rw [hread (by decide) (by decide)]
  · exact fun k _ => statr_getLsbD s k
  · exact fun k _ => lockr_getLsbD s k
  · exact hcode _
  · refine (orch_toNat s).trans (congrArg (· + _) ?_)
    cases s.orchPhase <;> rfl
  · exact fun k _ => verify_getLsbD s k
  · rfl
  · rfl
  · rfl
  · rfl
  · rfl
  · exact hcode _
  · exact (diag_toNat s).trans (by simp only [hcode])
  · intro k hk
    simp [regRead, hk]
  · intro k hk
    simp [regRead, hk]

/-! ## The clock window -/

/-- Settles O23: the fall faults in the host's step, and the completion of a spoiled operation
fails. -/
theorem clockFallSpoilsTheOperation : Obligations.ClockFallSpoilsTheOperation := by
  refine ⟨fun s v rest ha h => ?_, fun s op b rest he ha => ?_⟩
  · have hquiet : ¬(v = false ∧ ({ s with agenda := rest } : State).bsy = true) := by
      rintro ⟨hv, hb⟩
      rcases h with h | h
      · simp [h] at hv
      · simp [bsy_eq, h] at hb
    simp only [step, ha, takeTurn, hostAct, driveClk, if_neg hquiet]
  · have hfall : step s = .next { s with
        agenda := .engine :: rest, clkSafe := false, engine := .inFlight op true,
        faults := s.faults ++ [.clk], proterr := true, lockStd := true, lockFast := true,
        seq := .faulted } := by
      simp [step, ha, takeTurn, hostAct, driveClk, bsy_eq, he, spoil, raiseFault]
    refine ⟨hfall, _, (steps_one hfall).trans (steps_one rfl), rfl, rfl, rfl, rfl, ?_⟩
    exact changedTo_write s.flash op.base op.indetCells op.size _ (indetCells_length op)
      fun i hi => by simp [Op.indetCells, hi]

end Sys2Proof.Machine

/-! ## Host accesses of the two windows -/

namespace Sys2Proof.Machine

/-- The host's turn is its move, on the state with the turn taken from the agenda (R14). -/
theorem step_hostAct {s : State} {x : HostAct} {rest : List Turn}
    (ha : s.agenda = .host x :: rest) : step s = hostAct x { s with agenda := rest } := by
  simp only [step, ha, takeTurn]

/-! ### One access of each window -/

/-- R63, R69. -/
theorem flashReadOk_iff {s : State} {a n : Nat} :
    flashReadOk s a n = true ↔ n ∈ [1, 2, 4] ∧ a % n = 0 ∧ a + n ≤ s.cfg.flashEnd := by
  simp [flashReadOk, and_assoc, or_assoc]

theorem memRead_window {a : Nat} {s : State} (n : Nat) (hw : s.cfg.inWindow a = true) :
    memRead a n s = .next (if n = 4 ∧ a % 4 = 0 then
      latch (regRead s (a - s.cfg.seqBase)) (s.draws + regDraws (a - s.cfg.seqBase)) s
      else raiseFault .bus s) := by
  rw [memRead, if_pos hw]
  split <;> rfl

theorem memRead_flash {a : Nat} {s : State} (n : Nat) (hw : s.cfg.inWindow a = false)
    (hf : s.cfg.inFlashWindow a = true) :
    memRead a n s = .next (if flashReadOk s a n then
      latch (arrRead s s.draws a n).1 (arrRead s s.draws a n).2 s else raiseFault .bus s) := by
  rw [memRead, if_neg (by simp [hw]), if_pos hf]
  split <;> rfl

theorem memRead_outside {a : Nat} {s : State} (n : Nat) (hw : s.cfg.inWindow a = false)
    (hf : s.cfg.inFlashWindow a = false) : memRead a n s = .fault (.outsideBlock a) := by
  rw [memRead, if_neg (by simp [hw]), if_neg (by simp [hf])]

/-- A read that the block answers latches its data or raises F_BUS (R63). -/
theorem memRead_latches_or_faults {a n : Nat} {s t : State} (h : memRead a n s = .next t) :
    (∃ v k, t = latch v k s) ∨ t = raiseFault .bus s := by
  cases hw : s.cfg.inWindow a with
  | true =>
    rw [memRead_window n hw] at h
    injection h with h; subst h
    split
    · exact .inl ⟨_, _, rfl⟩
    · exact .inr rfl
  | false =>
    cases hf : s.cfg.inFlashWindow a with
    | true =>
      rw [memRead_flash n hw hf] at h
      injection h with h; subst h
      split
      · exact .inl ⟨_, _, rfl⟩
      · exact .inr rfl
    | false => simp [memRead_outside n hw hf] at h

/-- A register access is of one aligned word (R63, R64). -/
theorem memWrite_window_bad {a n : Nat} {s : State} (v : Word) (hw : s.cfg.inWindow a = true)
    (hbad : ¬(n = 4 ∧ a % 4 = 0)) : memWrite a n v s = .next (raiseFault .bus s) := by
  rw [memWrite, if_pos hw, if_neg hbad]

theorem memWrite_flash {a : Nat} {s : State} (n : Nat) (v : Word) (hw : s.cfg.inWindow a = false)
    (hf : s.cfg.inFlashWindow a = true) :
    memWrite a n v s = .next (raiseFault .flashWrite s) := by
  rw [memWrite, if_neg (by simp [hw]), if_pos hf]

/-! ### Legal reads of the array -/

/-- A legal host read of the array, in the host's turn (R63, R66). -/
theorem step_flashRead {s : State} {a : Word} {n : Nat} {rest : List Turn}
    (ha : s.agenda = .host (.read a n) :: rest) (hn : n ∈ [1, 2, 4]) (halign : a.toNat % n = 0)
    (hw : s.cfg.inWindow a.toNat = false) (hlo : s.cfg.flashBase ≤ a.toNat)
    (hhi : a.toNat + n ≤ s.cfg.flashEnd) :
    step s = .next { s with
      agenda  := rest
      busData := (arrRead s s.draws a.toNat n).1
      draws   := (arrRead s s.draws a.toNat n).2 } := by
  have hpos : 0 < n := Nat.pos_of_ne_zero (by rintro rfl; simp at hn)
  have hf : s.cfg.inFlashWindow a.toNat = true := inFlashWindow_iff.2 ⟨hlo, by omega⟩
  have hok : flashReadOk { s with agenda := rest } a.toNat n = true :=
    flashReadOk_iff.2 ⟨hn, halign, hhi⟩
  rw [step_hostAct ha, hostAct, memRead_flash (s := { s with agenda := rest }) n hw hf, if_pos hok,
    arrRead_congr (s := { s with agenda := rest }) (t := s) rfl rfl rfl]
  rfl

/-- Settles O13: the read is of settled bytes, so it draws nothing. -/
theorem flashReadsAreLittleEndian : Obligations.FlashReadsAreLittleEndian := by
  intro s a n b rest ha hn halign hw hlo hhi hb
  have hn4 : n ≤ 4 := by
    simp only [List.mem_cons, List.not_mem_nil, or_false] at hn
    omega
  obtain ⟨hdraws, hlt, hbytes⟩ := arrRead_settled s.draws n a.toNat b hn4 hb
  refine ⟨_, ?_, hlt, hbytes⟩
  rw [step_flashRead ha hn halign hw hlo hhi, hdraws]

/-- R67. -/
theorem underOp_iff {s : State} {a : Nat} : s.underOp a = true ↔
    ∃ op b, s.engine = .inFlight op b ∧ op.base ≤ a ∧ a < op.base + op.size := by
  cases he : s.engine with
  | idle => simp [State.underOp, he]
  | inFlight op b => simp [State.underOp, he, Op.targets]

/-- A read of one byte is ByteRead, zero-extended (R66). -/
theorem arrRead_one (s : State) (k a : Nat) :
    arrRead s k a 1 = ((byteRead s k a).1.zeroExtend 32, (byteRead s k a).2) := by
  simp [arrRead]

/-- A host byte read of the array, in the host's turn, is ByteRead (R63, R66). -/
theorem step_byteRead {s : State} {a : Word} {rest : List Turn}
    (ha : s.agenda = .host (.read a 1) :: rest) (hw : s.cfg.inWindow a.toNat = false)
    (hlo : s.cfg.flashBase ≤ a.toNat) (hhi : a.toNat < s.cfg.flashEnd) :
    step s = .next { s with
      agenda  := rest
      busData := (byteRead s s.draws a.toNat).1.zeroExtend 32
      draws   := (byteRead s s.draws a.toNat).2 } := by
  rw [step_flashRead ha (by decide) (Nat.mod_one _) hw hlo hhi, arrRead_one]

/-- Settles O14: by the three cases of ByteRead. -/
theorem byteReadsFollowTheCell : Obligations.ByteReadsFollowTheCell := by
  intro s a rest ha hw hlo hhi under
  have hunder : s.underOp a.toNat = true ↔ under := underOp_iff
  have hfree (h : ¬under) : s.underOp a.toNat = false := Bool.eq_false_iff.2 (mt hunder.1 h)
  rw [step_byteRead ha hw hlo hhi]
  refine ⟨fun hu hc => ?_, fun v hu hc => ?_, fun h => ?_⟩
  · rw [byteRead_erased _ (hfree hu) hc]
  · rw [byteRead_val _ (hfree hu) hc]
  · rw [byteRead_draw _ (h.imp_left hunder.2)]

/-! ### Side effects and bus faults -/

/-- Settles O11: a latch writes the model's own fields alone. -/
theorem hostReadsHaveNoSideEffects : Obligations.HostReadsHaveNoSideEffects := by
  intro s t a n rest ha hstep
  rw [step_hostAct ha] at hstep
  rcases memRead_latches_or_faults hstep with ⟨v, k, rfl⟩ | rfl
  · exact .inl rfl
  · exact .inr rfl

/-- Settles O15: fault entry written out. -/
theorem hostFlashWriteTakesTheFault : Obligations.HostFlashWriteTakesTheFault := by
  intro s a n v rest ha hw hlo hhi
  have hf : s.cfg.inFlashWindow a.toNat = true := inFlashWindow_iff.2 ⟨hlo, hhi⟩
  rw [step_hostAct ha, hostAct, memWrite_flash (s := { s with agenda := rest }) n v hw hf]
  rfl

/-- Settles O16: by the window, and in the register window by the direction. -/
theorem badHostAccessesRaiseBusFault : Obligations.BadHostAccessesRaiseBusFault := by
  intro s a n rest
  refine ⟨fun hlo hhi hbad => ?_, fun hw hlo hhi hbad ha => ?_⟩
  · have hw : s.cfg.inWindow a.toNat = true := inWindow_iff.2 ⟨hlo, hhi⟩
    have hbad' : ¬(n = 4 ∧ a.toNat % 4 = 0) := by omega
    refine ⟨fun ha => ?_, fun v ha => ?_⟩
    · rw [step_hostAct ha, hostAct, memRead_window (s := { s with agenda := rest }) n hw,
        if_neg hbad']
    · rw [step_hostAct ha, hostAct, memWrite_window_bad (s := { s with agenda := rest }) v hw
        hbad']
  · have hf : s.cfg.inFlashWindow a.toNat = true := inFlashWindow_iff.2 ⟨hlo, hhi⟩
    have hbad' : ¬flashReadOk { s with agenda := rest } a.toNat n = true := by
      rw [flashReadOk_iff]
      rintro ⟨hn, halign, hend⟩
      exact hbad.elim (· hn) (·.elim (· halign) (Nat.not_lt.2 hend))
    rw [step_hostAct ha, hostAct, memRead_flash (s := { s with agenda := rest }) n hw hf,
      if_neg hbad']

end Sys2Proof.Machine

/-! ## The encoding of commands -/

namespace Sys2Proof

/-! ### The decoder and the encoder on the fields of a word -/

@[simp] theorem bitOfDomain_domainOfBit (b : Bool) : bitOfDomain (domainOfBit b) = b := by
  cases b <;> rfl

theorem decodePlain_eq_command_iff {f : Cmd32} {i j : Instr} :
    decodePlain f i = .command j ↔ f.dom = false ∧ f.nodiag = false ∧ i = j := by
  cases hdom : f.dom <;> cases hnodiag : f.nodiag <;> simp [decodePlain, hdom, hnodiag]

theorem decodeDomain_eq_command_iff {f : Cmd32} {c : Domain → Instr} {j : Instr} :
    decodeDomain f c = .command j ↔ f.nodiag = false ∧ c (domainOfBit f.dom) = j := by
  cases hnodiag : f.nodiag <;> simp [decodeDomain, hnodiag]

theorem decodeRunFast_eq_command_iff {f : Cmd32} {j : Instr} :
    decodeRunFast f = .command j ↔ f.dom = false ∧ .runFast f.nodiag = j := by
  cases hdom : f.dom <;> simp [decodeRunFast, hdom]

theorem Cmd32.eq_fields_iff {f : Cmd32} {i : Instr} : f = i.fields ↔
    f.rsv = 0 ∧ f.opc.toNat = i.opc.toNat ∧ f.dom = i.domBit ∧ f.nodiag = i.nodiagBit := by
  obtain ⟨opc, dom, nodiag, rsv⟩ := f
  simp only [Instr.fields, Cmd32.mk.injEq, BitVec.toNat_inj]
  tauto

/-- A row of R82 with DOM = 0 and NODIAG = 0. -/
theorem fields_of_decodePlain {f : Cmd32} {i j : Instr} (h : decodePlain f i = .command j)
    (hrsv : f.rsv = 0) (hopc : f.opc.toNat = i.opc.toNat) (hdom : i.domBit = false)
    (hnodiag : i.nodiagBit = false) : f = j.fields := by
  obtain ⟨hfdom, hfnodiag, rfl⟩ := decodePlain_eq_command_iff.1 h
  exact Cmd32.eq_fields_iff.2 ⟨hrsv, hopc, hfdom.trans hdom.symm, hfnodiag.trans hnodiag.symm⟩

/-- A row of R82 whose DOM names the domain. -/
theorem fields_of_decodeDomain {f : Cmd32} {c : Domain → Instr} {j : Instr}
    (h : decodeDomain f c = .command j) (hrsv : f.rsv = 0)
    (hopc : ∀ d, f.opc.toNat = (c d).opc.toNat) (hdom : ∀ d, (c d).domBit = bitOfDomain d)
    (hnodiag : ∀ d, (c d).nodiagBit = false) : f = j.fields := by
  obtain ⟨hfnodiag, rfl⟩ := decodeDomain_eq_command_iff.1 h
  exact Cmd32.eq_fields_iff.2
    ⟨hrsv, hopc _, by rw [hdom, bitOfDomain_domainOfBit], hfnodiag.trans (hnodiag _).symm⟩

/-- The fields of a command decode to it. -/
theorem decodeFields_fields (i : Instr) : decodeFields i.fields = .command i := by
  cases i
  case unlock d => cases d <;> rfl
  case lock d => cases d <;> rfl
  all_goals rfl

/-- No other fields decode to a command: by the rows of R82. -/
theorem fields_of_decodeFields {f : Cmd32} {i : Instr} (h : decodeFields f = .command i) :
    f = i.fields := by
  unfold decodeFields at h
  split at h
  · cases h
  next hrsv =>
    replace hrsv : f.rsv = 0 := not_not.1 hrsv
    split at h
    case h_1 hopc => exact fields_of_decodeDomain h hrsv (fun _ => hopc) (fun _ => rfl) fun _ => rfl
    case h_2 hopc => exact fields_of_decodeDomain h hrsv (fun _ => hopc) (fun _ => rfl) fun _ => rfl
    case h_15 hopc =>
      obtain ⟨hdom, rfl⟩ := decodeRunFast_eq_command_iff.1 h
      exact Cmd32.eq_fields_iff.2 ⟨hrsv, hopc, hdom, rfl⟩
    case h_16 => cases h
    all_goals next hopc => exact fields_of_decodePlain h hrsv hopc rfl rfl

theorem decodeFields_eq_command_iff {f : Cmd32} {i : Instr} :
    decodeFields f = .command i ↔ f = i.fields :=
  ⟨fields_of_decodeFields, fun h => h ▸ decodeFields_fields i⟩

/-- A word is told by its fields (R80). -/
theorem fieldsOfWord_eq_iff {w : Word} {f : Cmd32} : fieldsOfWord w = f ↔ f.word = w :=
  ⟨fun h => h ▸ word_fieldsOfWord w, fun h => h ▸ fieldsOfWord_word f⟩

/-- Settles O2: decoder and encoder are inverse on fields, and fields and words say the same. -/
theorem decodeInvertsEncode : Obligations.DecodeInvertsEncode := fun _ _ =>
  decodeFields_eq_command_iff.trans fieldsOfWord_eq_iff

/-- Settles O1: every command's word is in its row, and each row's word is its command's. -/
theorem legalWordsAreExactlyTheOpcodeMap : Obligations.LegalWordsAreExactlyTheOpcodeMap := by
  intro w i
  rw [decodeInvertsEncode w i]
  constructor
  · rintro rfl
    cases i
    case unlock d => cases d <;> decide
    case lock d => cases d <;> decide
    case runFast nodiag => cases nodiag <;> decide
    all_goals decide
  · refine (?rows : ∀ p : Word × Instr, p ∈ _ → encode p.2 = p.1) (w, i)
    decide

/-- Settles O4: the legal words are the encodings of their commands. -/
theorem writtenOutWordsDecode : Obligations.WrittenOutWordsDecode := by
  have hcommand {w : Word} {i : Instr} : encode i = w → decode w = .command i :=
    (decodeInvertsEncode w i).2
  exact ⟨hcommand (by decide), hcommand (by decide), hcommand (by decide), hcommand (by decide),
    hcommand (by decide), hcommand (by decide), by decide, by decide, by decide, by decide⟩

/-! ### Illegal words -/

theorem Cmd32.wf_iff {f : Cmd32} : f.wf = true ↔ f.rsv = 0 ∧
    ((0x01 ≤ f.opc.toNat ∧ f.opc.toNat ≤ 0x07) ∨ (0x10 ≤ f.opc.toNat ∧ f.opc.toNat ≤ 0x15) ∨
      (0x20 ≤ f.opc.toNat ∧ f.opc.toNat ≤ 0x21)) ∧
    (f.dom = true → f.opc.toNat = 0x01 ∨ f.opc.toNat = 0x02) ∧
    (f.nodiag = true → f.opc.toNat = 0x21) := by
  have hdom : f.domOk = true ↔ (f.dom = true → f.opc.toNat = 0x01 ∨ f.opc.toNat = 0x02) := by
    cases h : f.dom <;> simp [Cmd32.domOk, h, BitVec.toNat_eq]
  have hnodiag : f.nodiagOk = true ↔ (f.nodiag = true → f.opc.toNat = 0x21) := by
    cases h : f.nodiag <;> simp [Cmd32.nodiagOk, h, BitVec.toNat_eq]
  simp only [Cmd32.wf, Bool.and_eq_true, hdom, hnodiag, and_assoc]
  simp [Cmd32.rsvOk, Cmd32.opcOk, or_assoc]

theorem Instr.fields_wf (i : Instr) : i.fields.wf = true := by
  cases i
  case unlock d => exact (Laws.Encoded.unlock d).1
  case lock d => exact (Laws.Encoded.lock d).1
  case runFast nodiag => exact (Laws.Encoded.runFast nodiag).1
  all_goals rfl

/-- Fields that pass the checks of R80 to R84 are refused in no row of R82. -/
theorem exists_command_of_wf {f : Cmd32} (h : f.wf = true) : ∃ i, decodeFields f = .command i := by
  obtain ⟨hrsv, hopc, hdom, hnodiag⟩ := Cmd32.wf_iff.1 h
  have hnodom (h1 : f.opc.toNat ≠ 0x01) (h2 : f.opc.toNat ≠ 0x02) : f.dom = false :=
    Bool.eq_false_iff.2 fun h => (hdom h).elim h1 h2
  have hdiag (h1 : f.opc.toNat ≠ 0x21) : f.nodiag = false := Bool.eq_false_iff.2 (mt hnodiag h1)
  unfold decodeFields
  rw [if_neg (not_not.2 hrsv)]
  split
  case h_1 hop => exact ⟨_, decodeDomain_eq_command_iff.2 ⟨hdiag (by omega), rfl⟩⟩
  case h_2 hop => exact ⟨_, decodeDomain_eq_command_iff.2 ⟨hdiag (by omega), rfl⟩⟩
  case h_15 hop =>
    exact ⟨_, decodeRunFast_eq_command_iff.2 ⟨hnodom (by omega) (by omega), rfl⟩⟩
  case h_16 =>
    simp only [imp_false] at *
    omega
  all_goals
    exact ⟨_, decodePlain_eq_command_iff.2
      ⟨hnodom (by omega) (by omega), hdiag (by omega), rfl⟩⟩

/-- The decoder refuses exactly the fields that the checks of R80 to R84 refuse. -/
theorem exists_decodeFields_eq_illegal_iff {f : Cmd32} :
    (∃ r, decodeFields f = .illegal r) ↔ f.wf = false := by
  rw [← Bool.not_eq_true]
  refine ⟨fun ⟨r, hr⟩ hwf => ?_, fun hwf => ?_⟩
  · obtain ⟨i, hi⟩ := exists_command_of_wf hwf
    cases hr.symm.trans hi
  · cases hd : decodeFields f with
    | command i => exact absurd (decodeFields_eq_command_iff.1 hd ▸ i.fields_wf) hwf
    | illegal r => exact ⟨r, rfl⟩

/-- OPC is bits [7:0] (R80). -/
theorem fieldsOfWord_opc_toNat (w : Word) : (fieldsOfWord w).opc.toNat = w.toNat % 256 := by
  simp [fieldsOfWord]

/-- RSV is bits [31:10] (R80). -/
theorem fieldsOfWord_rsv_eq_zero_iff (w : Word) :
    (fieldsOfWord w).rsv = 0 ↔ w.toNat / 1024 = 0 := by
  have hlt : w.toNat < 2 ^ 32 := w.isLt
  have hrsv : (fieldsOfWord w).rsv.toNat = w.toNat / 1024 := by
    simp only [fieldsOfWord, BitVec.extractLsb'_toNat, Nat.shiftRight_eq_div_pow]
    omega
  rw [← hrsv]
  exact BitVec.toNat_eq

/-- R84. -/
theorem exists_decode_eq_illegal_iff (w : Word) : (∃ r, decode w = .illegal r) ↔
    (w.toNat / 1024 ≠ 0 ∨ w.toNat % 256 = 0x00 ∨ (0x08 ≤ w.toNat % 256 ∧ w.toNat % 256 ≤ 0x0F) ∨
      (0x16 ≤ w.toNat % 256 ∧ w.toNat % 256 ≤ 0x1F) ∨ 0x22 ≤ w.toNat % 256 ∨
      (w.getLsbD 8 = true ∧ w.toNat % 256 ≠ 0x01 ∧ w.toNat % 256 ≠ 0x02) ∨
      (w.getLsbD 9 = true ∧ w.toNat % 256 ≠ 0x21)) := by
  have hdom : (fieldsOfWord w).dom = w.getLsbD 8 := rfl
  have hnodiag : (fieldsOfWord w).nodiag = w.getLsbD 9 := rfl
  have hopc (n : Nat) : ¬((0x01 ≤ n ∧ n ≤ 0x07) ∨ (0x10 ≤ n ∧ n ≤ 0x15) ∨ (0x20 ≤ n ∧ n ≤ 0x21)) ↔
      n = 0x00 ∨ (0x08 ≤ n ∧ n ≤ 0x0F) ∨ (0x16 ≤ n ∧ n ≤ 0x1F) ∨ 0x22 ≤ n := by omega
  rw [decode, exists_decodeFields_eq_illegal_iff, ← Bool.not_eq_true, Cmd32.wf_iff, hdom, hnodiag,
    fieldsOfWord_opc_toNat, fieldsOfWord_rsv_eq_zero_iff, not_and_or, not_and_or, not_and_or, hopc,
    Classical.not_imp, Classical.not_imp, not_or]
  simp only [or_assoc, ne_eq]

end Sys2Proof

namespace Sys2Proof.Machine

/-- The idle sequencer rejects an illegal word (R100). -/
theorem acceptCmd_illegal {s : State} {w : Word} {r : Reject} (hidle : s.seq = .idle)
    (hw : decode w = .illegal r) : acceptCmd w s = { s with illcmd := true } := by
  simp only [acceptCmd, hidle, hw]

/-- Settles O3: the refused fields in terms of the word, and R100's rejection in the host's turn. -/
theorem illegalWordsOnlySetIllcmd : Obligations.IllegalWordsOnlySetIllcmd := by
  refine ⟨exists_decode_eq_illegal_iff, fun s w r rest hwf hidle hw ha => ?_⟩
  have hfree : ¬s.seqbsy = true := by simp [State.seqbsy, hidle]
  rw [step_hostWrite hwf (by decide) rfl ha, if_neg hfree]
  exact congrArg _ (acceptCmd_illegal hidle hw)

end Sys2Proof.Machine

/-! ## Command acceptance and register writes in the host's turn -/

namespace Sys2Proof.Machine

/-- Settles O5: the sequencer's turn is a step of the running command. -/
theorem stepRunsTheCurrentCommand : Obligations.StepRunsTheCurrentCommand :=
  fun _ _ _ _ => step_sequencer

theorem seqbsy_of_exec {s : State} {i : Instr} {p : Point} (h : s.seq = .exec i p) :
    s.seqbsy = true := by
  simp [State.seqbsy, h]

theorem not_seqbsy_of_idle {s : State} (h : s.seq = .idle) : ¬s.seqbsy = true := by
  simp [State.seqbsy, h]

theorem not_seqbsy_of_faulted {s : State} (h : s.seq = .faulted) : ¬s.seqbsy = true := by
  simp [State.seqbsy, h]

/-- The host's write to a register with no command running (R64). -/
theorem step_regWrite {s : State} {off : Nat} {v : Word} {rest : List Turn}
    (hwf : s.cfg.wf = true) (hfree : ¬s.seqbsy = true) (ho : off < 0x200) (h4 : off % 4 = 0)
    (ha : s.agenda = s.wr off v :: rest) :
    step s = .next (regWrite off v { s with agenda := rest }) := by
  rw [step_hostWrite hwf ho h4 ha, if_neg hfree]

/-- Settles O7: a write during a command is dropped before its register is looked at. -/
theorem writesDuringACommandAreDropped : Obligations.WritesDuringACommandAreDropped := by
  intro s i p off v rest hwf hs ho h4 ha
  rw [step_hostWrite hwf ho h4 ha, if_pos (seqbsy_of_exec hs)]

/-- A flag and the complement of the bit that clears it. -/
theorem and_not_eq_ite (f b : Bool) : (f && !b) = if b then false else f := by
  cases b <;> simp

theorem writeStatr_eq (v : Word) (s : State) : writeStatr v s = { s with
    pgerr    := if v.getLsbD 2 then false else s.pgerr
    wrprterr := if v.getLsbD 4 then false else s.wrprterr
    eop      := if v.getLsbD 5 then false else s.eop
    ovr      := if v.getLsbD 8 then false else s.ovr
    illcmd   := if v.getLsbD 9 then false else s.illcmd } := by
  simp only [writeStatr, and_not_eq_ite]

/-- Settles O12: outside a command the write clears its bits, during one it is dropped. -/
theorem statrWriteClearsOnes : Obligations.StatrWriteClearsOnes := by
  intro s v rest hwf ha
  refine ⟨fun hfree => ?_, fun hbusy => ?_⟩
  · rw [step_regWrite hwf (by simp [hfree]) (by decide) rfl ha]
    exact congrArg _ (writeStatr_eq v { s with agenda := rest })
  · rw [step_hostWrite hwf (by decide) rfl ha, if_pos hbusy]

theorem acceptCmd_faulted {s : State} (w : Word) (h : s.seq = .faulted) :
    acceptCmd w s = { s with ovr := true } := by
  simp only [acceptCmd, h]

theorem acceptCmd_command {s : State} {w : Word} {i : Instr} (hidle : s.seq = .idle)
    (hw : decode w = .command i) :
    acceptCmd w s = { s with seq := .exec i .start, result := .busy, polls := 0 } := by
  simp only [acceptCmd, hidle, hw]

/-- The host's turn that accepts a command (R100). -/
theorem step_acceptCmd {s : State} {w : Word} {i : Instr} {rest : List Turn}
    (hwf : s.cfg.wf = true) (hidle : s.seq = .idle) (hw : decode w = .command i)
    (ha : s.agenda = s.wr 0x000 w :: rest) : step s =
      .next { s with agenda := rest, seq := .exec i .start, result := .busy, polls := 0 } := by
  rw [step_regWrite hwf (not_seqbsy_of_idle hidle) (by decide) rfl ha]
  exact congrArg _ (acceptCmd_command hidle hw)

/-- An accepted command makes its first step in the sequencer's next turn (R100, R102). -/
theorem steps_acceptCmd {s t : State} {w : Word} {i : Instr} {rest : List Turn}
    (hwf : s.cfg.wf = true) (hidle : s.seq = .idle) (hw : decode w = .command i)
    (ha : s.agenda = s.wr 0x000 w :: .sequencer :: rest)
    (ht : exec i { s with agenda := rest, seq := .exec i .start, result := .busy, polls := 0 } =
      .next t) : steps 2 s = .next t :=
  (steps_one (step_acceptCmd hwf hidle hw ha)).trans
    (steps_one ((step_sequencer rfl rfl).trans ht))

/-- Settles O6: by the sequencer's state and the decoder's answer. -/
theorem cmdWriteAcceptsOrRejects : Obligations.CmdWriteAcceptsOrRejects := by
  intro s w rest hwf ha
  refine ⟨fun hfaulted => ?_, fun r hidle hw => ?_, fun i hidle hw => ⟨?_, ?_⟩⟩
  · rw [step_regWrite hwf (not_seqbsy_of_faulted hfaulted) (by decide) rfl ha]
    exact congrArg _ (acceptCmd_faulted w hfaulted)
  · rw [step_regWrite hwf (not_seqbsy_of_idle hidle) (by decide) rfl ha]
    exact congrArg _ (acceptCmd_illegal hidle hw)
  · exact step_acceptCmd hwf hidle hw ha
  · rintro more rfl t ht
    exact steps_acceptCmd hwf hidle hw ha ht

end Sys2Proof.Machine

/-! ## The commands that never poll -/

namespace Sys2Proof.Machine

/-- Settles O25: the other domain's lock decides between the fault and the opening. -/
theorem unlockOpensItsDomain : Obligations.UnlockOpensItsDomain := by
  refine ⟨by decide, by decide, fun s => ⟨fun h => ?_, fun h => ?_, fun h => ?_, fun h => ?_⟩⟩
  · exact congrArg _ (unlockThen_of_open (d := .std) _ h)
  · refine congrArg _ ((unlockThen_of_locked (d := .std) _ h).trans ?_)
    simp [openDomain, finish]
  · exact congrArg _ (unlockThen_of_open (d := .fast) _ h)
  · refine congrArg _ ((unlockThen_of_locked (d := .fast) _ h).trans ?_)
    simp [openDomain, finish]

/-- Settles O26: for both domains the step writes the lock and finishes. -/
theorem lockClosesItsDomain : Obligations.LockClosesItsDomain :=
  ⟨by decide, by decide, fun _ => ⟨rfl, rfl⟩⟩

/-- Settles O27: the step clears the three flags and finishes. -/
theorem clearFlagsClearsThree : Obligations.ClearFlagsClearsThree :=
  ⟨by decide, fun _ => rfl⟩

end Sys2Proof.Machine

/-! ## The engine's completions -/

namespace Sys2Proof.Machine

/-- The engine's turn with an operation in flight (R110). -/
theorem step_engine {s : State} {op : Op} {b : Bool} {rest : List Turn}
    (he : s.engine = .inFlight op b) (ha : s.agenda = .engine :: rest) :
    step s = .next (completeOp op b { s with agenda := rest }) := by
  simp only [step, ha, takeTurn]
  rw [engineStep_busy (s := { s with agenda := rest }) he]

/-- A failed operation leaves exactly its target Indet (R111, R112). -/
theorem changedTo_indet (m : Memory) (op : Op) :
    (m.write op.base op.indetCells).ChangedTo m op.base op.size fun _ => .indet :=
  changedTo_write m op.base op.indetCells op.size _ (indetCells_length op) fun i hi => by
    simp [Op.indetCells, hi]

/-- The completion of an operation whose clock window was not broken: each outcome's whole state, by
what decides it (R111, R112). -/
theorem step_completion {s : State} {op : Op} {rest : List Turn} {f : Nat → FlashCell}
    (he : s.engine = .inFlight op false) (ha : s.agenda = .engine :: rest)
    (hf : ∀ i < op.size, op.cells[i]? = some (f i)) :
    (s.cfg.protects op.base op.size = true →
      step s = .next { s with agenda := rest, engine := .idle, wrprterr := true }) ∧
    (s.cfg.protects op.base op.size = false →
      op.overwrites s.flash = true ∨ s.cfg.failing op.kind op.base = true → ∃ m,
      step s = .next { s with agenda := rest, engine := .idle, pgerr := true, flash := m } ∧
        m.ChangedTo s.flash op.base op.size fun _ => .indet) ∧
    (s.cfg.protects op.base op.size = false → op.overwrites s.flash = false →
      s.cfg.failing op.kind op.base = false → ∃ m,
      step s = .next { s with agenda := rest, engine := .idle, eop := true, flash := m } ∧
        m.ChangedTo s.flash op.base op.size f) := by
  rw [step_engine he ha]
  refine ⟨fun hp => ?_, fun hp h => ⟨_, ?_, changedTo_indet s.flash op⟩, fun hp ho hk => ⟨_, ?_,
    changedTo_write s.flash op.base op.cells op.size f (cells_length op) hf⟩⟩
  · simp [completeOp, hp, refuseOp]
  · cases ho : op.overwrites s.flash with
    | true => simp [completeOp, hp, ho, failOp]
    | false => simp [completeOp, hp, ho, h.resolve_left (by simp [ho]), failOp]
  · simp [completeOp, hp, ho, hk, succeedOp]

/-- R9. -/
theorem failing_iff {p : Params} {k : OpKind} {a : Nat} :
    p.failing k a = true ↔ (k, a) ∈ p.fails := by
  simp [Params.failing]

theorem erase_cells_getElem {base size i : Nat} {kind : EraseKind} (h : i < size) :
    (Op.eraseRange base size kind).cells[i]? = some .erased := by
  simp [Op.cells, h]

/-- Settles O21: an erase overwrites nothing, so the protected pages and FAIL decide. -/
theorem eraseCompletesByItsOutcome : Obligations.EraseCompletesByItsOutcome := by
  intro s base size kind rest he ha hlo protectedPage fails
  have hprot : s.cfg.protects base size = true ↔ protectedPage := protects_iff hlo
  have hfree (h : ¬protectedPage) : s.cfg.protects base size = false :=
    Bool.eq_false_iff.2 (mt hprot.1 h)
  obtain ⟨hrefused, hfailed, hdone⟩ := step_completion (f := fun _ => .erased) he ha
    fun i hi => erase_cells_getElem hi
  refine ⟨fun h => hrefused (hprot.2 h), fun h hk => hfailed (hfree h) (.inr (failing_iff.2 hk)),
    fun h hk => ?_⟩
  obtain ⟨m, hstep, hm⟩ := hdone (hfree h) rfl (Bool.eq_false_iff.2 (mt failing_iff.1 hk))
  refine ⟨m, hstep, hm, fun k x h1 h2 => byteRead_erased k rfl ?_⟩
  have hcell := hm.1 (x - base) (Nat.sub_lt_left_of_lt_add h1 h2)
  rwa [show (Op.eraseRange base size kind).base = base from rfl, Nat.add_sub_cancel' h1] at hcell

/-- The bytes of a page program, from its words (R112). -/
theorem eq_pageBytes {W : Vector Word 64} {B : List Byte} (hlen : B.length = 256)
    (h : ∀ j < 64, ∀ k < 4, B[4 * j + k]? = some ((bufWord W j).extractLsb' (8 * k) 8)) :
    B = pageBytes W := by
  apply List.ext_getElem?
  intro i
  by_cases hi : i < 256
  · rw [pageBytes_getElem W hi, ← Nat.div_add_mod i 4, h (i / 4) (by omega) (i % 4) (by omega),
      Nat.div_add_mod]
    rfl
  · rw [List.getElem?_eq_none (by omega), List.getElem?_eq_none (by simp; omega)]

/-- A program of bytes and a page program write the bytes B at a, onto erased cells (R112). -/
structure Op.Writes (op : Op) (a : Nat) (B : List Byte) (kind : OpKind) : Prop where
  base       : op.base = a
  size       : op.size = B.length
  kind       : op.kind = kind
  cells      : op.cells = B.map .val
  overwrites : ∀ m, op.overwrites m = !m.allErased a B.length

theorem writes_program (a : Nat) (B : List Byte) : (Op.program a B).Writes a B .prog :=
  ⟨rfl, rfl, rfl, rfl, fun _ => rfl⟩

theorem writes_pageProgram (a : Nat) (W : Vector Word 64) :
    (Op.pageProgram a W).Writes a (pageBytes W) .pageProg :=
  ⟨rfl, (pageBytes_length W).symm, rfl, rfl, fun _ => by rw [pageBytes_length]; rfl⟩

/-- Settles O22: both program operations write their bytes, and complete alike. -/
theorem programCompletesByItsOutcome : Obligations.ProgramCompletesByItsOutcome := by
  intro s op a B kind rest he ha hlo hop protectedPage allErased
  have hw : op.Writes a B kind := by
    rcases hop with ⟨rfl, rfl⟩ | ⟨W, rfl, rfl, hlen, hB⟩
    · exact writes_program a B
    · rw [eq_pageBytes hlen hB]; exact writes_pageProgram a W
  have hprot : s.cfg.protects a B.length = true ↔ protectedPage := protects_iff hlo
  have hfree (h : ¬protectedPage) : s.cfg.protects a B.length = false :=
    Bool.eq_false_iff.2 (mt hprot.1 h)
  have hover : op.overwrites s.flash = true ↔ ¬allErased := by
    rw [hw.overwrites, Bool.not_eq_true', ← Bool.not_eq_true, Memory.allErased_iff]
  have hcells : ∀ i < op.size, op.cells[i]? = some (.val (B[i]?.getD 0)) := fun i hi => by
    rw [hw.size] at hi
    simp [hw.cells, hi]
  have key := step_completion he ha hcells
  rw [hw.base, hw.size, hw.kind] at key
  obtain ⟨hrefused, hfailed, hdone⟩ := key
  exact ⟨fun h => hrefused (hprot.2 h),
    fun h hk => hfailed (hfree h) (hk.imp hover.2 failing_iff.2),
    fun h hall hk => hdone (hfree h) (Bool.eq_false_iff.2 fun ho => hover.1 ho hall)
      (Bool.eq_false_iff.2 (mt failing_iff.1 hk))⟩

/-! ### Issues -/

/-- A turn taken with an operation in flight leaves it in flight, or the engine idle (R123). -/
theorem takeTurn_busy {x : Turn} {s t : State} {op : Op} {b : Bool}
    (he : s.engine = .inFlight op b) (h : takeTurn x s = .next t) :
    t.engine = .idle ∨ ∃ b', t.engine = .inFlight op b' := by
  cases x with
  | host a =>
    rcases (hostAct_keeps h).2 with e | e <;> rw [e, he]
    · exact .inr ⟨b, rfl⟩
    · exact .inr ⟨true, rfl⟩
  | sequencer =>
    cases sequencerTurn_ends h with
    | quiet hp => exact .inr ⟨b, hp.engine_eq.trans he⟩
    | issued c i p hp _ hidle => cases hidle.symm.trans (hp.engine_eq.trans he)
  | engine =>
    injection h with h; subst h
    exact .inl (by rw [engineStep_busy he, completeOp_engine])
  | reset => injection h with h; subst h; exact .inl rfl

/-- A turn that takes the engine from idle to an operation meets the conditions of an issue: only a
step of a command does (R105, R109, R140). -/
theorem takeTurn_issue {x : Turn} {s t : State} {op : Op} {b : Bool} (he : s.engine = .idle)
    (h : takeTurn x s = .next t) (ht : t.engine = .inFlight op b) :
    b = false ∧ t.clkSafe = true ∧ t.pgerr = false ∧ t.wrprterr = false ∧
      t.lock op.dom = false ∧ t.lock op.dom.other = true := by
  cases x with
  | host a =>
    rcases (hostAct_keeps h).2 with e | e <;> rw [e, he] at ht <;> cases ht
  | sequencer =>
    cases sequencerTurn_ends h with
    | quiet hp => cases ht.symm.trans (hp.engine_eq.trans he)
    | @issued u c i p _ hdom _ hpg hwr hclk hopen hshut =>
      obtain ⟨rfl, rfl⟩ : c.op = op ∧ false = b := by simpa using ht
      rw [hdom] at hopen hshut
      refine ⟨rfl, hclk, hpg, hwr, ?_, ?_⟩
      · cases hd : c.op.dom <;> rwa [hd] at hopen
      · cases hd : c.op.dom <;> rwa [hd] at hshut
  | engine =>
    injection h with h; subst h
    rw [engineStep_idle he, he] at ht
    cases ht
  | reset => injection h with h; subst h; cases ht

/-- Settles O24: by the turn the step takes. -/
theorem noOperationIssuedWhileBusy : Obligations.NoOperationIssuedWhileBusy := by
  refine ⟨fun s t op b he hstep => ?_, fun s t op b he hstep ht => ?_⟩
  · obtain ⟨x, g, d, hx⟩ := step_is_turn s
    exact takeTurn_busy (s := { s with agenda := g, draws := d }) he (hx ▸ hstep)
  · obtain ⟨x, g, d, hx⟩ := step_is_turn s
    exact takeTurn_issue (s := { s with agenda := g, draws := d }) he (hx ▸ hstep) ht

end Sys2Proof.Machine

/-! ## The busy-wait at its start and at a poll -/

namespace Sys2Proof.Machine

theorem engine_ne_idle_iff {s : State} :
    s.engine ≠ .idle ↔ ∃ op b, s.engine = .inFlight op b := by
  cases s.engine <;> simp

/-- With the engine busy the bound ends the wait (R107). -/
theorem pollOnce_bound {s : State} (he : s.engine ≠ .idle)
    (hb : s.timeout ≠ 0 ∧ s.polls = s.timeout) : pollOnce s = (some .timedOut, s) := by
  obtain ⟨op, b, he⟩ := engine_ne_idle_iff.1 he
  rw [pollOnce_busy he, if_pos hb]

/-- With the engine busy and the bound not reached the wait polls again (R107). -/
theorem pollOnce_again {s : State} (he : s.engine ≠ .idle)
    (hb : ¬(s.timeout ≠ 0 ∧ s.polls = s.timeout)) :
    pollOnce s = (none, setPolls (s.polls + 1) s) := by
  obtain ⟨op, b, he⟩ := engine_ne_idle_iff.1 he
  rw [pollOnce_busy he, if_neg hb]

/-- No bound is reached before the first poll (R107). -/
theorem beginWait_busy {s : State} (he : s.engine ≠ .idle) :
    beginWait s = (none, setPolls 1 s) :=
  pollOnce_again (s := setPolls 0 s) he fun hb => hb.1 hb.2.symm

theorem exec_wait_start {s : State} (h : s.seq = .exec .wait .start) :
    exec .wait s = .next ((finalWait (beginWait s)).andThen .wait .wait finish) := by
  simp only [exec, execWait, waitStep, pos_of_exec h]

theorem exec_wait_poll {s : State} {w : WaitKind} (h : s.seq = .exec .wait (.wait w)) :
    exec .wait s = .next ((finalWait (pollOnce s)).andThen .wait .wait finish) := by
  simp only [exec, execWait, waitStep, pos_of_exec h]

/-- A command that polls again from a poll stays where it stands (R102). -/
theorem suspend_setPolls_of_exec {s : State} {i : Instr} {p : Point} (h : s.seq = .exec i p)
    (n : Word) : suspend i p (setPolls n s) = { s with polls := n } := by
  simp only [suspend, setPolls, ← h]

/-- Settles O28: by the position of the wait, and what its loop body answers there. -/
theorem waitPollsUntilIdleOrBound : Obligations.WaitPollsUntilIdleOrBound := by
  refine ⟨by decide, fun s => ?_⟩
  intro flags
  refine ⟨fun hs he => ?_, fun hs he => ?_, fun hs he => ?_, fun hs he ht hp => ?_,
    fun hs he hb => ?_⟩
  · rw [exec_wait_start hs, beginWait_idle he]; rfl
  · rw [exec_wait_start hs, beginWait_busy he]; rfl
  · rw [exec_wait_poll hs, pollOnce_idle he]; rfl
  · rw [exec_wait_poll hs, pollOnce_bound he ⟨ht, hp⟩]; rfl
  · rw [exec_wait_poll hs, pollOnce_again he hb]
    exact congrArg _ (suspend_setPolls_of_exec hs _)

end Sys2Proof.Machine

/-! ## The commands that are one DoFlashOp -/

namespace Sys2Proof.Machine

/-- The commands that are one DoFlashOp and no page commit (R119 to R121, R146, R147). -/
abbrev IsFlashOp (i : Instr) : Prop :=
  i ∈ [.erasePage, .programHalfword, .programWord, .erasePageFast, .eraseBlock32kFast]

/-- Their meaning is that of the call they poll in (R109). -/
theorem exec_flashCommand {s : State} {i : Instr} {w : WaitKind} {c : FlashCall}
    (hi : IsFlashOp i) (hc : callAt i (.wait w) s = some c) :
    exec i s = .next (flashCommand i c s) := by
  simp only [IsFlashOp, List.mem_cons, List.not_mem_nil, or_false] at hi
  rcases hi with rfl | rfl | rfl | rfl | rfl <;> (cases hc; rfl)

theorem exec_flashOp_start {s : State} {i : Instr} {c : FlashCall} (hi : IsFlashOp i)
    (hs : s.seq = .exec i .start) (hc : callAt i (.wait .pre) s = some c) :
    exec i s = .next ((startFlashOp c s).andThen i .wait finish) := by
  rw [exec_flashCommand hi hc, flashCommand, pos_of_exec hs]

/-- Every erase and program command, from a poll (R102, R109). -/
theorem exec_flashOp_poll {s : State} {i : Instr} {w : WaitKind} {c : FlashCall}
    (hi : i ∈ [Instr.erasePage, .programHalfword, .programWord, .commitPageFast, .programPageFast,
      .erasePageFast, .eraseBlock32kFast])
    (hs : s.seq = .exec i (.wait w)) (hc : callAt i (.wait w) s = some c) :
    exec i s = .next ((resumeFlashOp c w s).andThen i .wait finish) := by
  have hpos := pos_of_exec hs
  by_cases hcommit : i = .commitPageFast
  · subst hcommit; cases hc
    simp only [exec, execCommitPageFast, commitStep, hpos]
  by_cases hprogram : i = .programPageFast
  · subst hprogram; cases hc
    simp only [exec, execProgramPageFast, programPageStep, hpos]
  · rw [exec_flashCommand (by simpa [IsFlashOp, hcommit, hprogram] using hi) hc, flashCommand, hpos]

theorem startFlashOp_badAddr {c : FlashCall} {s : State}
    (h : ¬addrOk s c.op.base c.op.size c.align = true) :
    startFlashOp c s = .stopped (raiseFault .addr s) :=
  if_neg h

/-- Settles O32: the address first, then what is left of the checks. -/
theorem flashCommandChecksInOrder : Obligations.FlashCommandChecksInOrder := by
  intro s i c hi hs hc
  rw [exec_flashOp_start hi hs hc]
  by_cases ha : addrOk s c.op.base c.op.size c.align = true
  · rw [if_neg (not_not.2 (addrOk_iff.1 ha)), startFlashOp_finish ha]
  · rw [if_pos (mt addrOk_iff.2 ha), startFlashOp_badAddr ha, andThen_stopped]

/-! ### Going on from a poll -/

theorem resumeFlashOp_again {c : FlashCall} {w : WaitKind} {s : State} (he : s.engine ≠ .idle)
    (hb : ¬(s.timeout ≠ 0 ∧ s.polls = s.timeout)) :
    resumeFlashOp c w s = .poll w (setPolls (s.polls + 1) s) := by
  cases w <;> simp [resumeFlashOp, pollOnce_again he hb, preWait, finalWait]

/-- With the engine idle the final wait returns what the flags say, and so does a pre-wait that sees
a stale error (R106, R109). -/
theorem resumeFlashOp_flags {c : FlashCall} {w : WaitKind} {s : State} (he : s.engine = .idle)
    (h : w = .final ∨ flagResult s ≠ .complete) :
    resumeFlashOp c w s = .ret (flagResult s) s := by
  rcases h with rfl | h
  · exact resumeFlashOp_final_idle he
  · exact resumeFlashOp_failed (pollOnce_idle he) h

theorem resumeFlashOp_pre_clean {c : FlashCall} {s : State} (he : s.engine = .idle)
    (h : flagResult s = .complete) : resumeFlashOp c .pre s = issueOp c s := by
  simp [resumeFlashOp, pollOnce_idle he, preWait, h]

/-- The checks after a clean pre-wait, in their order, and the issue, in a command that finishes
with its call's result (R105, R109, R122, R217). -/
theorem issueOp_finish (i : Instr) (c : FlashCall) (s : State) :
    (issueOp c s).andThen i .wait finish =
      (if s.clkSafe = false then raiseFault .clk s
      else if s.lockStd = false ∧ s.lockFast = false then raiseFault .both s
      else if s.lock c.dom then
        { s with wrprterr := true, result := .writeProtectError, seq := .idle }
      else if outOfOrder c s then raiseFault .order s
      else { issue c s with polls := 1, seq := .exec i (.wait .final) }) := by
  unfold issueOp
  split_ifs
  · rfl
  · rfl
  · rfl
  · rfl
  · rw [finalWait_issue]; rfl

/-- Settles O33: by what the wait's loop body answers at the poll. -/
theorem flashCommandsGoOnFromTheirPolls : Obligations.FlashCommandsGoOnFromTheirPolls := by
  intro s i w c hi hs hc flags
  rw [exec_flashOp_poll hi hs hc]
  refine ⟨fun he ht hp => ?_, fun he hb => ?_, fun he h => ?_, fun hw he h => ?_⟩
  · rw [resumeFlashOp_failed (pollOnce_bound he ⟨ht, hp⟩) (by decide)]; rfl
  · rw [resumeFlashOp_again he hb]
    exact congrArg _ (suspend_setPolls_of_exec hs _)
  · rw [resumeFlashOp_flags he h]; rfl
  · subst hw
    rw [resumeFlashOp_pre_clean he h, issueOp_finish]

/-! ### The issue on a ready block -/

/-- On a ready block a command of one DoFlashOp issues its operation in its first step and stands at
the first poll of its final wait (R105 to R109). -/
theorem exec_flashOp_ready {s : State} {i : Instr} {c : FlashCall} (hi : IsFlashOp i)
    (hs : s.seq = .exec i .start) (hc : callAt i (.wait .pre) s = some c) (hr : s.Ready c.dom)
    (ha : addrOk s c.op.base c.op.size c.align = true) (ho : outOfOrder c s = false) :
    exec i s = .next { issue c s with polls := 1, seq := .exec i (.wait .final) } := by
  rw [exec_flashOp_start hi hs hc, startFlashOp_ready ha hr.engine_idle hr.no_pgerr hr.no_wrprterr
    hr.clk_safe hr.domain_open hr.other_locked ho]
  rfl

/-- The two bytes of the low half of a word are its two low bytes (R65). -/
theorem lowHalf_byte (v : Word) {k : Nat} (hk : k ≤ 8) :
    (v.extractLsb' 0 16).extractLsb' k 8 = v.extractLsb' k 8 := by
  ext j hj
  simp [show k + j < 16 by omega]

/-- DATA0[15:0] as it is stored (R65, R120). -/
theorem halfBytes_data0Half (s : State) :
    halfBytes s.data0Half = [s.data0.extractLsb' 0 8, s.data0.extractLsb' 8 8] := by
  rw [halfBytes, State.data0Half, lowHalf_byte _ (by decide), lowHalf_byte _ (by decide)]

/-- A standard program not below LASTPROG is in order (R122). -/
theorem outOfOrder_program {a n : Nat} {B : List Byte} {s : State} (h : s.lastProg.toNat ≤ a) :
    outOfOrder ⟨.std, .program a B, n⟩ s = false := by
  simp [outOfOrder, h]

/-- Settles O29: the address is right, and an erase is never out of order. -/
theorem erasePageIssuesItsErase : Obligations.ErasePageIssuesItsErase :=
  fun s hs hr halign hlo hhi =>
    exec_flashOp_ready (c := erasePageCall s) (by decide) hs rfl hr
      (addrOk_iff.2 ⟨halign, hlo, hhi⟩) rfl

/-- Settles O30: the address is right, and not below LASTPROG. -/
theorem programHalfwordIssuesItsBytes : Obligations.ProgramHalfwordIssuesItsBytes := by
  intro s hs hr halign hlo hhi hlast
  rw [← halfBytes_data0Half]
  exact exec_flashOp_ready (c := programHalfwordCall s) (by decide) hs rfl hr
    (addrOk_iff.2 ⟨halign, hlo, hhi⟩) (outOfOrder_program hlast)

/-- Settles O31: the address is right, and not below LASTPROG. -/
theorem programWordIssuesItsBytes : Obligations.ProgramWordIssuesItsBytes :=
  fun s hs hr halign hlo hhi hlast =>
    exec_flashOp_ready (c := programWordCall s) (by decide) hs rfl hr
      (addrOk_iff.2 ⟨halign, hlo, hhi⟩) (outOfOrder_program hlast)

/-! ### The page commits -/

/-- CheckAddr of a fast page: ADDR's page is aligned, so the window decides (R81, R104). -/
theorem addrOk_fastPage {s : State} : addrOk s s.fastPage 256 256 = true ↔
    s.cfg.flashBase ≤ s.addr.toNat - s.addr.toNat % 256 ∧
      s.addr.toNat - s.addr.toNat % 256 + 256 ≤ s.cfg.flashEnd := by
  rw [addrOk_iff, ← fastPage_eq]
  exact and_iff_right (Nat.mul_mod_left _ _)

/-- A page commit's DoFlashOp where Fast is open: both domains are where Std is, its own is not
locked, and a page program is never out of order (R105 to R109). -/
theorem startFlashOp_finish_page {i : Instr} {p : Nat} {s : State}
    (ha : addrOk s p 256 256 = true) (hopen : s.lockFast = false) :
    (startFlashOp (pageCall p s) s).andThen i .wait finish =
      (if s.engine ≠ .idle then { s with polls := 1, seq := .exec i (.wait .pre) }
      else if s.pgerr then { s with polls := 0, result := .programError, seq := .idle }
      else if s.wrprterr then { s with polls := 0, result := .writeProtectError, seq := .idle }
      else if s.clkSafe = false then raiseFault .clk { s with polls := 0 }
      else if s.lockStd = false then raiseFault .both { s with polls := 0 }
      else { issue (pageCall p s) s with polls := 1, seq := .exec i (.wait .final) }) := by
  have hlock : s.lock (pageCall p s).dom = false := hopen
  have horder : outOfOrder (pageCall p s) s = false := rfl
  rw [startFlashOp_finish (c := pageCall p s) ha]
  simp only [hopen, and_true, hlock, horder, Bool.false_eq_true, if_false]

theorem exec_commitPageFast_start {s : State} (h : s.seq = .exec .commitPageFast .start) :
    exec .commitPageFast s = .next ((commitStart s).andThen .commitPageFast .wait finish) := by
  simp only [exec, execCommitPageFast, commitStep, pos_of_exec h]

theorem exec_programPageFast_start {s : State} (h : s.seq = .exec .programPageFast .start) :
    exec .programPageFast s =
      .next ((programPageStart s.fastPage s).andThen .programPageFast .wait finish) := by
  simp only [exec, execProgramPageFast, programPageStep, pos_of_exec h]

/-- Settles O40: the address, the loaded bits, then DoFlashOp; a page program is never out of
order. -/
theorem commitIssuesTheLoadedBuffer : Obligations.CommitIssuesTheLoadedBuffer := by
  intro s hs p
  rw [exec_commitPageFast_start hs, commitStart]
  by_cases ha : addrOk s s.fastPage 256 256 = true
  · rw [if_pos ha, if_neg (not_not.2 (addrOk_fastPage.1 ha))]
    by_cases hl : s.loaded = BitVec.allOnes 64
    · rw [if_pos (c := s.loaded = allLoaded) hl, if_neg (c := s.loaded ≠ _) (not_not.2 hl),
        startFlashOp_finish (c := pageCall s.fastPage s) ha, pageCall, fastPage_eq]
      rfl
    · rw [if_neg (c := s.loaded = allLoaded) hl, if_pos (c := s.loaded ≠ _) hl, andThen_stopped]
  · rw [if_neg ha, if_pos (mt addrOk_fastPage.2 ha), andThen_stopped]

/-- Settles O41: the address, the locked domain, then the buffer is filled and DoFlashOp follows. -/
theorem programPageFastIssuesTheSource : Obligations.ProgramPageFastIssuesTheSource := by
  intro s hs p
  refine ⟨(fillFromSource s).pbuf, (fillFromSource s).draws, fun j hj hw => ?_, ?_⟩
  · rw [fillFromSource, bufWord_wordsOf _ hj, srcWord, if_pos hw]
  · intro f
    rw [exec_programPageFast_start hs, programPageStart]
    by_cases ha : addrOk s s.fastPage 256 256 = true
    · rw [if_pos ha, if_neg (not_not.2 (addrOk_fastPage.1 ha))]
      by_cases hl : s.lockFast = true
      · rw [if_pos hl, if_pos hl]; rfl
      · rw [if_neg hl, if_neg hl, startFlashOp_finish_page (s := fillFromSource s) ha
          (Bool.eq_false_iff.2 hl), fastPage_eq]
        rfl
    · rw [if_neg ha, if_pos (mt addrOk_fastPage.2 ha), andThen_stopped]

end Sys2Proof.Machine

/-! ## Whole runs of erase and program commands -/

namespace Sys2Proof.Machine

theorem exists_callAt_of_flashOp {i : Instr} (hi : IsFlashOp i) (w : WaitKind) (s : State) :
    ∃ c, callAt i (.wait w) s = some c := by
  simp only [IsFlashOp, List.mem_cons, List.not_mem_nil, or_false] at hi
  rcases hi with rfl | rfl | rfl | rfl | rfl <;> exact ⟨_, rfl⟩

/-- A final wait that finds the engine idle and no error flag finishes Complete (R106, R107). -/
theorem exec_flashOp_complete {s : State} {i : Instr} (hi : IsFlashOp i)
    (hs : s.seq = .exec i (.wait .final)) (he : s.engine = .idle) (hp : s.pgerr = false)
    (hw : s.wrprterr = false) : exec i s = .next (finish .complete s) := by
  obtain ⟨c, hc⟩ := exists_callAt_of_flashOp hi .final s
  rw [exec_flashCommand hi hc, flashCommand, pos_of_exec hs]
  simp only [resumeFlashOp_final_clear he hp hw, andThen_ret]

/-- From the first poll of the final wait: the engine completes, and the command with it (R110). -/
theorem steps_flashOp_poll {s : State} {i : Instr} {op : Op} {rest : List Turn}
    (hi : IsFlashOp i) (hs : s.seq = .exec i (.wait .final)) (he : s.engine = .inFlight op false)
    (hp : s.pgerr = false) (hw : s.wrprterr = false)
    (hprot : s.cfg.protects op.base op.size = false) (hover : op.overwrites s.flash = false)
    (hfail : s.cfg.failing op.kind op.base = false)
    (ha : s.agenda = .engine :: .sequencer :: rest) :
    steps 2 s = .next (finish .complete { succeedOp op s with agenda := rest }) :=
  steps_engine_sequencer ha he hs hprot hover hfail
    (exec_flashOp_complete (s := { succeedOp op s with agenda := rest }) hi hs rfl hp hw)

/-- A command of one DoFlashOp on a ready block, run by the sequencer, the engine and the sequencer
again, on a target that is unprotected, unfailing and, for a program, erased (R109 to R112). -/
theorem steps_flashOp {s : State} {i : Instr} {c : FlashCall} {rest : List Turn}
    (hi : IsFlashOp i) (hs : s.seq = .exec i .start) (hc : callAt i (.wait .pre) s = some c)
    (hr : s.Ready c.dom)
    (haddr : addrOk s c.op.base c.op.size c.align = true) (ho : outOfOrder c s = false)
    (hprot : s.cfg.protects c.op.base c.op.size = false)
    (hover : c.op.overwrites s.flash = false) (hfail : s.cfg.failing c.op.kind c.op.base = false)
    (ha : s.agenda = .sequencer :: .engine :: .sequencer :: rest) :
    steps 3 s = .next { s with
      agenda   := rest
      seq      := .idle
      result   := .complete
      eop      := true
      lastProg := lastProgAfter c s
      loaded   := loadedAfter c s
      polls    := 1
      flash    := s.flash.write c.op.base c.op.cells } := by
  have hissue := exec_flashOp_ready (s := { s with agenda := .engine :: .sequencer :: rest }) hi hs
    ((callAt_modelFields i _ s s.ovr s.clkSafe _ s.draws s.busData).trans hc)
    { hr with } haddr ho
  rw [steps_one ((step_sequencer hs ha).trans hissue)]
  refine Eq.trans
    (steps_flashOp_poll hi rfl rfl hr.no_pgerr hr.no_wrprterr hprot hover hfail rfl) ?_
  simp [finish, succeedOp, issue, hr.engine_idle, lastProgAfter, loadedAfter]

/-- The calls of the three erase commands (R119, R146, R147). -/
theorem callAt_erase {i : Instr} {d : Domain} {n : Nat} {kind : EraseKind}
    (h : (i, d, n, kind) ∈ [(Instr.erasePage, Domain.std, 4096, EraseKind.page4K),
      (.erasePageFast, .fast, 256, .fastPage), (.eraseBlock32kFast, .fast, 32768, .block32K)])
    (s : State) :
    IsFlashOp i ∧ callAt i (.wait .pre) s = some ⟨d, .eraseRange s.addr.toNat n kind, n⟩ := by
  simp only [List.mem_cons, List.not_mem_nil, or_false, Prod.mk.injEq] at h
  rcases h with ⟨rfl, rfl, rfl, rfl⟩ | ⟨rfl, rfl, rfl, rfl⟩ | ⟨rfl, rfl, rfl, rfl⟩ <;>
    exact ⟨by decide, rfl⟩

/-- Settles O34: an erase overwrites nothing and is never out of order. -/
theorem eraseCommandsEraseTheirTarget : Obligations.EraseCommandsEraseTheirTarget := by
  intro s i d n kind rest hmem hs hr halign hlo hhi hprot hfail ha
  obtain ⟨hi, hc⟩ := callAt_erase hmem s
  exact ⟨_, steps_flashOp hi hs hc hr (addrOk_iff.2 ⟨halign, hlo, hhi⟩) rfl hprot rfl hfail ha,
    changedTo_write _ _ _ _ _ (cells_length _) fun k hk => erase_cells_getElem hk⟩

/-- The calls of the two standard program commands: their bytes are those of DATA0, lowest first
(R65, R120, R121). -/
theorem callAt_program {i : Instr} {n : Nat}
    (h : (i, n) ∈ [(Instr.programHalfword, 2), (.programWord, 4)]) (s : State) :
    IsFlashOp i ∧ ∃ B : List Byte, B.length = n ∧
      (∀ k < n, B[k]? = some (s.data0.extractLsb' (8 * k) 8)) ∧
      callAt i (.wait .pre) s = some ⟨.std, .program s.addr.toNat B, n⟩ := by
  simp only [List.mem_cons, List.not_mem_nil, or_false, Prod.mk.injEq] at h
  rcases h with ⟨rfl, rfl⟩ | ⟨rfl, rfl⟩
  · refine ⟨by decide, halfBytes s.data0Half, rfl, fun k hk => ?_, rfl⟩
    rw [halfBytes_data0Half]
    interval_cases k <;> rfl
  · refine ⟨by decide, wordBytes s.data0, rfl, fun k hk => ?_, rfl⟩
    interval_cases k <;> rfl

/-- Settles O35: the target is erased, and the program is not below LASTPROG. -/
theorem programCommandsWriteTheirBytes : Obligations.ProgramCommandsWriteTheirBytes := by
  intro s i n rest hmem hs hr halign hlo hhi _ hlast herased hprot hfail ha
  obtain ⟨hi, B, rfl, hB, hc⟩ := callAt_program hmem s
  have hover : (Op.program s.addr.toNat B).overwrites s.flash = false := by
    simp [Op.overwrites, (Memory.allErased_iff _ _ _).2 herased]
  exact ⟨_, steps_flashOp hi hs hc hr (addrOk_iff.2 ⟨halign, hlo, hhi⟩) (outOfOrder_program hlast)
      hprot hover hfail ha,
    changedTo_write _ _ _ _ _ (by simp [Op.cells]) fun k hk => by simp [Op.cells, hB k hk]⟩

/-- Settles O36: the second poll finds the bound with the engine busy, and the operation stays in
flight until its completion. -/
theorem timedOutDoesNotCancelTheErase : Obligations.TimedOutDoesNotCancelTheErase := by
  intro s rest hs hr ht halign hlo hhi hprot hfail ha
  have hissue := step_sequencer hs ha
  rw [erasePageIssuesItsErase { s with agenda := .sequencer :: .engine :: rest } hs { hr with }
    halign hlo hhi] at hissue
  generalize hu : ({ s with
    agenda   := .sequencer :: .engine :: rest
    engine   := .inFlight (.eraseRange s.addr.toNat 4096 .page4K) false
    lastProg := 0
    polls    := 1
    seq      := .exec .erasePage (.wait .final) } : State) = u at hissue
  have hbound : step u = .next (finish .timedOut { u with agenda := .engine :: rest }) := by
    have hbusy : u.engine ≠ .idle := by simp [← hu]
    have hlast : u.timeout ≠ 0 ∧ u.polls = u.timeout := by simp [← hu, ht]
    have hseq : u.seq = .exec .erasePage (.wait .final) := by rw [← hu]
    have hexec := (flashCommandsGoOnFromTheirPolls { u with agenda := .engine :: rest } .erasePage
      .final _ (by decide) hseq rfl).1 hbusy hlast.1 hlast.2
    exact (step_sequencer hseq (by rw [← hu])).trans hexec
  obtain ⟨-, -, hdone⟩ := step_completion
    (s := finish .timedOut { u with agenda := .engine :: rest })
    (op := .eraseRange s.addr.toNat 4096 .page4K) (f := fun _ => .erased) (by subst hu; rfl) rfl
    fun i hi => erase_cells_getElem hi
  subst hu
  obtain ⟨m, hstep, hm⟩ := hdone hprot rfl hfail
  exact ⟨⟨_, (steps_one hissue).trans (steps_one hbound), rfl, rfl, rfl, rfl⟩,
    _, (steps_one hissue).trans ((steps_one hbound).trans (steps_one hstep)), rfl, rfl, rfl, rfl,
    hm⟩

end Sys2Proof.Machine

/-! ## A round trip of the host -/

namespace Sys2Proof.Machine

/-- The end of a run, from a state it passes through. -/
theorem exists_steps_add {m n : Nat} {s u : State} {P : State → Prop} (h : steps m s = .next u)
    (hu : ∃ t, steps n u = .next t ∧ P t) : ∃ t, steps (m + n) s = .next t ∧ P t := by
  rwa [steps_add h]

/-- UNLOCK.STD on a locked block (R115). -/
theorem steps_unlockStd {s : State} {rest : List Turn} (hwf : s.cfg.wf = true)
    (hidle : s.seq = .idle) (hstd : s.lockStd = true) (hfast : s.lockFast = true)
    (ha : s.agenda = s.wr 0x000 0x00000001 :: .sequencer :: rest) :
    steps 2 s = .next { s with
      agenda := rest, lockStd := false, lastProg := 0, polls := 0, result := .complete } := by
  have hw : decode 0x00000001 = .command (.unlock .std) := (decodeInvertsEncode _ _).2 (by decide)
  obtain ⟨-, -, hunlock⟩ := unlockOpensItsDomain
  refine steps_acceptCmd hwf hidle hw ha (Eq.trans ((hunlock _).2.1 hfast) ?_)
  simp [hidle, hstd]

/-- LOCK.STD (R116). -/
theorem steps_lockStd {s : State} {rest : List Turn} (hwf : s.cfg.wf = true)
    (hidle : s.seq = .idle) (ha : s.agenda = s.wr 0x000 0x00000002 :: .sequencer :: rest) :
    steps 2 s = .next { s with
      agenda := rest, lockStd := true, polls := 0, result := .complete } := by
  have hw : decode 0x00000002 = .command (.lock .std) := (decodeInvertsEncode _ _).2 (by decide)
  obtain ⟨-, -, hlock⟩ := lockClosesItsDomain
  refine steps_acceptCmd hwf hidle hw ha (Eq.trans (hlock _).1 ?_)
  simp [hidle]

/-- The host writes a register, then a command word that is accepted (R64, R100). -/
theorem steps_write_accept {s : State} {off : Nat} {v w : Word} {i : Instr} {rest : List Turn}
    (hwf : s.cfg.wf = true) (hidle : s.seq = .idle) (h0 : off ≠ 0) (ho : off < 0x200)
    (h4 : off % 4 = 0) (hw : decode w = .command i)
    (ha : s.agenda = s.wr off v :: s.wr 0x000 w :: rest) :
    steps 2 s = .next { regWrite off v { s with agenda := s.wr 0x000 w :: rest } with
      agenda := rest, seq := .exec i .start, result := .busy, polls := 0 } := by
  have hwrite := step_regWrite hwf (not_seqbsy_of_idle hidle) ho h4 ha
  obtain ⟨hg, -, hseq, -, hag⟩ := regWrite_keeps v { s with agenda := s.wr 0x000 w :: rest } h0
  generalize regWrite off v { s with agenda := s.wr 0x000 w :: rest } = u at *
  have hcfg : u.cfg = s.cfg := congrArg Prod.fst hg
  have ha' : u.agenda = u.wr 0x000 w :: rest := by rw [hag, State.wr, State.wr, hcfg]
  exact (steps_one hwrite).trans
    (steps_one (step_acceptCmd (by rwa [hcfg]) (hseq.trans hidle) hw ha'))

/-- ADDR and ERASE_PAGE written, and the command run to its end (R119, R124). -/
theorem steps_erasePageAt {s : State} {a : Word} {rest : List Turn} (hwf : s.cfg.wf = true)
    (hidle : s.seq = .idle) (hr : s.Ready .std) (halign : a.toNat % 4096 = 0)
    (hlo : s.cfg.flashBase ≤ a.toNat) (hhi : a.toNat + 4096 ≤ s.cfg.flashEnd)
    (hprot : s.cfg.protects a.toNat 4096 = false) (hfail : s.cfg.failing .page4K a.toNat = false)
    (ha : s.agenda = s.wr 0x004 a :: s.wr 0x000 0x00000005 :: .sequencer :: .engine ::
      .sequencer :: rest) :
    steps 5 s = .next { s with
      addr := a, agenda := rest, result := .complete, eop := true, lastProg := 0, polls := 1,
      flash := s.flash.write a.toNat (List.replicate 4096 .erased) } := by
  have hw : decode 0x00000005 = .command .erasePage := (decodeInvertsEncode _ _).2 (by decide)
  refine (steps_add (n := 3) (steps_write_accept hwf hidle (by decide) (by decide) rfl hw
    ha)).trans ?_
  refine Eq.trans (steps_flashOp (i := .erasePage)
    (c := ⟨.std, .eraseRange a.toNat 4096 .page4K, 4096⟩) (by decide) rfl rfl { hr with }
    (addrOk_iff.2 ⟨halign, hlo, hhi⟩) rfl hprot rfl hfail rfl) ?_
  simp only [regWrite, hidle]
  rfl

/-- DATA0 and PROGRAM_HALFWORD written, and the command run to its end (R120, R124). -/
theorem steps_programHalfwordAt {s : State} {v : Word} {rest : List Turn} (hwf : s.cfg.wf = true)
    (hidle : s.seq = .idle) (hr : s.Ready .std) (halign : s.addr.toNat % 2 = 0)
    (hlo : s.cfg.flashBase ≤ s.addr.toNat) (hhi : s.addr.toNat + 2 ≤ s.cfg.flashEnd)
    (hlast : s.lastProg.toNat ≤ s.addr.toNat)
    (herased : ∀ k < 2, s.flash.cell (s.addr.toNat + k) = .erased)
    (hprot : s.cfg.protects s.addr.toNat 2 = false)
    (hfail : s.cfg.failing .prog s.addr.toNat = false)
    (ha : s.agenda = s.wr 0x008 v :: s.wr 0x000 0x00000006 :: .sequencer :: .engine ::
      .sequencer :: rest) :
    steps 5 s = .next { s with
      data0 := v, agenda := rest, result := .complete, eop := true,
      lastProg := BitVec.ofNat 32 (s.addr.toNat + 2), polls := 1,
      flash := s.flash.write s.addr.toNat ((halfBytes (v.extractLsb' 0 16)).map .val) } := by
  have hw : decode 0x00000006 = .command .programHalfword :=
    (decodeInvertsEncode _ _).2 (by decide)
  have hover : (Op.program s.addr.toNat (halfBytes (v.extractLsb' 0 16))).overwrites s.flash =
      false := by
    simp only [Op.overwrites, Bool.not_eq_false']
    exact (Memory.allErased_iff _ _ _).2 herased
  refine (steps_add (n := 3) (steps_write_accept hwf hidle (by decide) (by decide) rfl hw
    ha)).trans ?_
  refine Eq.trans (steps_flashOp (i := .programHalfword)
    (c := ⟨.std, .program s.addr.toNat (halfBytes (v.extractLsb' 0 16)), 2⟩) (by decide) rfl rfl
    { hr with } (addrOk_iff.2 ⟨halign, hlo, hhi⟩) (outOfOrder_program hlast) hprot hover hfail
    rfl) ?_
  simp only [regWrite, hidle]
  rfl

theorem settledByte_val {s : State} {a : Nat} {b : Byte} (he : s.engine = .idle)
    (hc : s.flash.cell a = .val b) : s.settledByte a = some b := by
  simp [State.settledByte, underOp_idle he, hc]

/-- A host read of a half-word that holds h, with the engine idle (R63, R65). -/
theorem step_halfRead {s : State} {a : Word} {h : Half} {rest : List Turn} (he : s.engine = .idle)
    (halign : a.toNat % 2 = 0) (hw : s.cfg.inWindow a.toNat = false)
    (hlo : s.cfg.flashBase ≤ a.toNat) (hhi : a.toNat + 2 ≤ s.cfg.flashEnd)
    (hcells : ∀ k < 2, s.flash.cell (a.toNat + k) = .val (h.extractLsb' (8 * k) 8))
    (ha : s.agenda = .host (.read a 2) :: rest) :
    step s = .next { s with agenda := rest, busData := h.zeroExtend 32 } := by
  obtain ⟨hdraws, hlt, hbytes⟩ := arrRead_settled s.draws 2 a.toNat
    (fun k => h.extractLsb' (8 * k) 8) (by decide) fun k hk => settledByte_val he (hcells k hk)
  rw [step_flashRead ha (by decide) halign hw hlo hhi, hdraws,
    (halfRead_eq_iff hlt hbytes).2 ⟨rfl, rfl⟩]

/-- The cells of a half-word just programmed (R65, R112). -/
theorem cell_write_half (m : Memory) (a : Nat) (h : Half) {k : Nat} (hk : k < 2) :
    (m.write a ((halfBytes h).map .val)).cell (a + k) = .val (h.extractLsb' (8 * k) 8) :=
  (changedTo_write m a ((halfBytes h).map .val) 2 (fun k => .val (h.extractLsb' (8 * k) 8)) rfl
    fun i hi => by interval_cases i <;> rfl).1 k hk

/-- The cells of a range just erased (R111). -/
theorem cell_write_erased (m : Memory) {a n k : Nat} (hk : k < n) :
    (m.write a (List.replicate n .erased)).cell (a + k) = .erased :=
  (changedTo_write m a (List.replicate n .erased) n (fun _ => .erased) (List.length_replicate ..)
    fun i hi => by simp [hi]).1 k hk

/-- Settles O37: the commands one after the other, and the read. -/
theorem eraseThenProgramReadsBack : Obligations.EraseThenProgramReadsBack := by
  intro s a v rest hwf hidle he hp hw hclk hstd hfast hwin halign hlo hhi hprot hfailE hfailP ha
  have halign2 : a.toNat % 2 = 0 := by omega
  have hhi2 : a.toNat + 2 ≤ s.cfg.flashEnd := by omega
  refine exists_steps_add (m := 2) (n := 13) (steps_unlockStd hwf hidle hstd hfast ha) ?_
  refine exists_steps_add (m := 5) (n := 8) (steps_erasePageAt hwf hidle
    ⟨he, hp, hw, hclk, rfl, hfast⟩ halign hlo hhi hprot hfailE rfl) ?_
  refine exists_steps_add (m := 5) (n := 3) (steps_programHalfwordAt hwf hidle
    ⟨he, hp, hw, hclk, rfl, hfast⟩ halign2 hlo hhi2 (Nat.zero_le _)
    (fun k hk => cell_write_erased _ (by omega)) (protects_mono le_rfl (by omega) hprot) hfailP
    rfl) ?_
  refine exists_steps_add (m := 2) (n := 1) (steps_lockStd hwf hidle rfl) ?_
  exact ⟨_, steps_one (step_halfRead he halign2 hwin hlo hhi2
    (fun k hk => cell_write_half _ _ _ hk) rfl), half_zeroExtend v, rfl, rfl, hfast, rfl, rfl⟩

end Sys2Proof.Machine

/-! ## The frame of WAIT and the erase and program commands -/

namespace Sys2Proof.Machine

/-- What a step of WAIT or of an erase or program command leaves unchanged where it raises no fault:
the lock domains, EOP, PGERR and PROTERR; WRPRTERR is at most set, and LASTPROG is written by an
issue alone (R109, R118, R122). -/
structure FlashFrame (s t : State) : Prop where
  lockStd  : t.lockStd = s.lockStd
  lockFast : t.lockFast = s.lockFast
  eop      : t.eop = s.eop
  pgerr    : t.pgerr = s.pgerr
  proterr  : t.proterr = s.proterr
  wrprterr : t.wrprterr = s.wrprterr ∨ t.wrprterr = true
  lastProg : t.engine = s.engine → t.lastProg = s.lastProg

/-- The frame of a step that is one step of the DoFlashOp c: the buffer is unchanged, the
loaded bits and the engine change in the issue of c alone (R109, R144). -/
structure CallFrame (c : FlashCall) (s t : State) : Prop extends FlashFrame s t where
  pbuf   : t.pbuf = s.pbuf
  draws  : t.draws = s.draws
  loaded : t.loaded = s.loaded ∨ t.loaded = loadedAfter c s
  engine : t.engine = s.engine ∨ (s.engine = .idle ∧ t.engine = .inFlight c.op false)

theorem faults_append_ne {s : State} {r : FaultReason} : s.faults ++ [r] ≠ s.faults := by
  simp

/-- A step inside DoFlashOp that raises no fault, in a command that finishes with its result. -/
theorem CallEnd.frame {c : FlashCall} {s : State} {e : Call} (h : CallEnd c s e) (i : Instr)
    (hf : (e.andThen i .wait finish).faults = s.faults) :
    CallFrame c s (e.andThen i .wait finish) := by
  cases h with
  | fault r p => exact absurd hf faults_append_ne
  | waiting w p _ =>
    exact ⟨⟨rfl, rfl, rfl, rfl, rfl, .inl rfl, fun _ => rfl⟩, rfl, rfl, .inl rfl, .inl rfl⟩
  | issued p hidle =>
    refine ⟨⟨rfl, rfl, rfl, rfl, rfl, .inl rfl, fun he => ?_⟩, rfl, rfl, .inr rfl,
      .inr ⟨hidle, rfl⟩⟩
    cases he.trans hidle
  | locked p _ =>
    exact ⟨⟨rfl, rfl, rfl, rfl, rfl, .inr rfl, fun _ => rfl⟩, rfl, rfl, .inl rfl, .inl rfl⟩
  | result r p _ =>
    exact ⟨⟨rfl, rfl, rfl, rfl, rfl, .inl rfl, fun _ => rfl⟩, rfl, rfl, .inl rfl, .inl rfl⟩

/-- A step of a primitive command of one DoFlashOp is a step of it (R102, R119). -/
theorem flashCommand_end (i : Instr) (c : FlashCall) (s : State) :
    ∃ e, CallEnd c s e ∧ flashCommand i c s = e.andThen i .wait finish := by
  unfold flashCommand
  split
  · exact ⟨_, resumeFlashOp_end _ _ s, rfl⟩
  · exact ⟨_, startFlashOp_end _ s, rfl⟩

/-- A step of COMMIT_PAGE_FAST is a step of its DoFlashOp, or ends in one of its faults (R144). -/
theorem commitStep_end (s : State) : CallEnd (pageCall s.fastPage s) s (commitStep s) := by
  unfold commitStep
  split
  · exact resumeFlashOp_end _ _ s
  · unfold commitStart
    split
    · split
      · exact startFlashOp_end _ s
      · exact .fault .buf s.polls
    · exact .fault .addr s.polls

/-- A step of PROGRAM_PAGE_FAST is a step of its DoFlashOp or stops before it, or, from its start,
it is one on the buffer filled from SRCBUF (R145). -/
theorem programPageStep_end (s : State) :
    CallEnd (pageCall s.fastPage s) s (programPageStep s) ∨
      CallEnd (pageCall s.fastPage (fillFromSource s)) (fillFromSource s) (programPageStep s) := by
  unfold programPageStep
  split
  · exact .inl (resumeFlashOp_end _ _ s)
  · unfold programPageStart
    split
    · split
      · next hl => exact .inl (.locked s.polls hl)
      · exact .inr (startFlashOp_end _ _)
    · exact .inl (.fault .addr s.polls)

/-- PROGRAM_PAGE_FAST issues the program of the buffer as the step leaves it (R145). -/
theorem programPageStep_frame {i : Instr} {s t : State}
    (ht : t = (programPageStep s).andThen i .wait finish) (hf : t.faults = s.faults) :
    FlashFrame s t ∧ (t.engine = s.engine ∨
      (s.engine = .idle ∧ t.engine = .inFlight (.pageProgram s.fastPage t.pbuf) false)) := by
  subst ht
  rcases programPageStep_end s with h | h
  · have f := h.frame i hf
    exact ⟨f.toFlashFrame, by rw [f.pbuf]; exact f.engine⟩
  · have f := h.frame i hf
    exact ⟨{ f with }, by rw [f.pbuf]; exact f.engine⟩

/-- A loop body of WAIT writes its counter, the result and the position alone (R107, R118). -/
theorem waitLoop_frame (n : Word) (s : State) : ∃ p r q,
    (finalWait (pollOnce (setPolls n s))).andThen .wait .wait finish =
      { s with polls := p, result := r, seq := q } := by
  rcases pollOnce_cases (setPolls n s) with ⟨_, e⟩ | ⟨_, e⟩ | ⟨_, e⟩ <;> rw [e] <;>
    exact ⟨_, _, _, rfl⟩

theorem exec_wait_frame {s t : State} (h : exec .wait s = .next t) :
    ∃ p r q, t = { s with polls := p, result := r, seq := q } := by
  injection h with h; subst h
  unfold waitStep
  split
  · exact waitLoop_frame s.polls s
  · exact waitLoop_frame 0 s

/-- Only a page commit clears the loaded bits (R144, R145). -/
theorem loadedAfter_of_callAt {i : Instr} {w : WaitKind} {c : FlashCall} {s : State}
    (hi : IsFlashOp i) (hc : callAt i (.wait w) s = some c) : loadedAfter c s = s.loaded := by
  simp only [IsFlashOp, List.mem_cons, List.not_mem_nil, or_false] at hi
  rcases hi with rfl | rfl | rfl | rfl | rfl <;> (cases hc; rfl)

/-- Settles O46: WAIT, the two page commits, and the commands that are one DoFlashOp alone. -/
theorem flashCommandFrame : Obligations.FlashCommandFrame := by
  intro i s t hi h hf
  by_cases hwait : i = .wait
  · subst hwait
    obtain ⟨p, r, q, rfl⟩ := exec_wait_frame h
    exact ⟨rfl, rfl, rfl, rfl, rfl, .inl rfl, fun _ => ⟨rfl, rfl⟩, fun _ _ => rfl, fun _ => rfl,
      fun _ => rfl, .inl rfl⟩
  by_cases hprogram : i = .programPageFast
  · subst hprogram
    injection h with h
    obtain ⟨f, hengine⟩ := programPageStep_frame h.symm hf
    exact ⟨f.lockStd, f.lockFast, f.eop, f.pgerr, f.proterr, f.wrprterr, fun hn => absurd rfl hn,
      fun hn => absurd rfl hn, f.lastProg, nofun,
      hengine.imp_right fun ⟨hidle, he⟩ => ⟨hidle, .inr ⟨rfl, he⟩⟩⟩
  have key : ∃ c, callAt i (.wait .pre) s = some c ∧ CallFrame c s t ∧
      (i ≠ .commitPageFast → loadedAfter c s = s.loaded) := by
    by_cases hcommit : i = .commitPageFast
    · subst hcommit
      injection h with h; subst h
      exact ⟨_, rfl, (commitStep_end s).frame _ hf, fun hn => absurd rfl hn⟩
    · have hi5 : IsFlashOp i := by simpa [IsFlashOp, hwait, hprogram, hcommit] using hi
      obtain ⟨c, hc⟩ := exists_callAt_of_flashOp hi5 .pre s
      obtain ⟨e, hend, he⟩ := flashCommand_end i c s
      rw [exec_flashCommand hi5 hc, he] at h
      injection h with h; subst h
      exact ⟨c, hc, hend.frame i hf, fun _ => loadedAfter_of_callAt hi5 hc⟩
  obtain ⟨c, hc, f, hloaded⟩ := key
  exact ⟨f.lockStd, f.lockFast, f.eop, f.pgerr, f.proterr, f.wrprterr, fun _ => ⟨f.pbuf, f.draws⟩,
    fun _ hn => f.loaded.elim id (·.trans (hloaded hn)), f.lastProg, fun hw => absurd hw hwait,
    f.engine.imp_right fun ⟨hidle, he⟩ => ⟨hidle, .inl ⟨hprogram, c, hc, he⟩⟩⟩

end Sys2Proof.Machine

/-! ## The early stops of RUN_STANDARD -/

namespace Sys2Proof.Machine

/-- After a failure the programming phase is entered and makes no write (R175, C2). -/
theorem stdProgram_failed {s : State} (h : s.flashStatus ≠ .complete) : stdProgram s =
    stdVerify { s with orchPhase := .programming, cursor := s.startAddr } :=
  stdProgramLoop_failed (s := { s with orchPhase := .programming, cursor := s.startAddr }) h

/-- An erase of RUN_STANDARD that fails is counted, and ends the erasing loop (R174). -/
theorem exec_stdErase_failed {s : State} {w : WaitKind} {r : OpResult}
    (hs : s.seq = .exec .runStandard (.stdErase w)) (h : pollOnce s = (some r, s))
    (hr : r ≠ .complete) : exec .runStandard s = .next (stdVerify { s with
      flashStatus := r, eraseCnt := s.eraseCnt + 1, orchPhase := .programming,
      cursor := s.startAddr }) := by
  have hfail : (stdErased r s).flashStatus ≠ .complete := hr
  simp only [exec, execRunStandard, stdStep, pos_of_exec hs, resumeFlashOp_failed h hr, andThen_ret,
    stdEraseFrom, stdEraseLoop_failed hfail, stdProgram_failed hfail]
  rfl

/-- A program of RUN_STANDARD that fails leaves CURSOR past it, and ends the programming loop
(R175). -/
theorem exec_stdProgram_failed {s : State} {w : WaitKind} {r : OpResult}
    (hs : s.seq = .exec .runStandard (.stdProgram w)) (h : pollOnce s = (some r, s))
    (hr : r ≠ .complete) : exec .runStandard s = .next (stdVerify { s with
      flashStatus := r, cursor := s.cursor + 2 }) := by
  have hfail : (stdProgrammed r s).flashStatus ≠ .complete := hr
  simp only [exec, execRunStandard, stdStep, pos_of_exec hs, resumeFlashOp_failed h hr, andThen_ret,
    stdProgramFrom, stdProgramLoop_failed hfail]
  rfl

/-- How RUN_STANDARD leaves the block after its verify phase: Done with FLASH_STATUS, Std locked,
and neither the engine nor a cell touched (R176, R177). -/
theorem stdVerify_ended (s : State) :
    (stdVerify s).seq = .idle ∧ (stdVerify s).orchPhase = .done ∧
      (stdVerify s).result = s.flashStatus ∧ (stdVerify s).flashStatus = s.flashStatus ∧
      (stdVerify s).engine = s.engine ∧ (stdVerify s).flash = s.flash ∧
      (stdVerify s).lastProg = s.lastProg ∧ (stdVerify s).lockStd = true ∧
      (stdVerify s).lockFast = s.lockFast ∧ (stdVerify s).faults = s.faults ∧
      (stdVerify s).nbrPage = s.nbrPage ∧ (stdVerify s).eraseCnt = s.eraseCnt := by
  obtain ⟨r, -, e⟩ := stdVerify_eq s
  rw [e]
  exact ⟨rfl, rfl, rfl, rfl, rfl, rfl, rfl, rfl, rfl, rfl, rfl, rfl⟩

/-- A poll that finds an error flag with the engine idle, or the bound with the engine busy, returns
a result that is not Complete (R106, R107). -/
theorem pollOnce_failed {s : State} {r : OpResult}
    (h : (s.engine = .idle ∧ ((s.pgerr = true ∧ r = .programError) ∨
        (s.pgerr = false ∧ s.wrprterr = true ∧ r = .writeProtectError))) ∨
      (s.engine ≠ .idle ∧ s.timeout ≠ 0 ∧ s.polls = s.timeout ∧ r = .timedOut)) :
    pollOnce s = (some r, s) ∧ r ≠ .complete := by
  rcases h with ⟨he, ⟨hp, rfl⟩ | ⟨hp, hw, rfl⟩⟩ | ⟨he, ht, hb, rfl⟩
  · exact ⟨by rw [pollOnce_idle he, flagResult, if_pos hp], nofun⟩
  · exact ⟨by rw [pollOnce_idle he, flagResult, if_neg (by simp [hp]), if_pos hw], nofun⟩
  · exact ⟨pollOnce_bound he ⟨ht, hb⟩, nofun⟩

/-- Settles O51: the failing poll ends the loop it stands in, and the verify phase the run. -/
theorem failedEraseStartsNoProgramming : Obligations.FailedEraseStartsNoProgramming := by
  intro s p w r hs h ended
  obtain ⟨hpoll, hr⟩ := pollOnce_failed h
  refine ⟨?_, ?_⟩
  · rintro rfl
    obtain ⟨h1, h2, h3, h4, h5, h6, h7, h8, h9, h10, h11, hcount⟩ := stdVerify_ended { s with
      flashStatus := r, eraseCnt := s.eraseCnt + 1, orchPhase := .programming,
      cursor := s.startAddr }
    exact ⟨_, exec_stdErase_failed hs hpoll hr, ⟨h1, h2, h3, h4, h5, h6, h7, h8, h9, h10, h11⟩,
      hcount, rfl⟩
  · rintro rfl
    obtain ⟨h1, h2, h3, h4, h5, h6, h7, h8, h9, h10, h11, hcount⟩ := stdVerify_ended { s with
      flashStatus := r, cursor := s.cursor + 2 }
    exact ⟨_, exec_stdProgram_failed hs hpoll hr,
      ⟨h1, h2, h3, h4, h5, h6, h7, h8, h9, h10, h11⟩, hcount, rfl⟩

end Sys2Proof.Machine

/-! ## The buffer commands and the fast erases -/

namespace Sys2Proof.Machine

/-- BufGate where Fast is locked (R141). -/
theorem bufGate_locked {s : State} (k : State → State) (h : s.lockFast = true) :
    bufGate k s = finish .writeProtectError (flagLocked s) := if_pos h

/-- BufGate where Fast is open (R141). -/
theorem bufGate_open {s : State} (k : State → State) (h : s.lockFast = false) :
    bufGate k s = k s := if_neg (Bool.eq_false_iff.1 h)

/-- Settles O38: the gate decides. -/
theorem resetBufferUnloadsEveryWord : Obligations.ResetBufferUnloadsEveryWord :=
  ⟨by decide, fun _ => ⟨fun h => congrArg _ (bufGate_locked _ h),
    fun h => ⟨_, congrArg _ (bufGate_open _ h), fun _ hj => bufWord_wordsOf _ hj⟩⟩⟩

/-- The buffer index of ADDR, as a number (R81). -/
theorem bufIndex_eq (s : State) : s.bufIndex = s.addr.toNat / 4 % 64 := by
  simp [State.bufIndex, BitVec.extractLsb'_toNat, Nat.shiftRight_eq_div_pow]

/-- A group of four words loaded inside the buffer, and the words around it (R143). -/
theorem bufWord_loadWords (s : State) {j0 : Nat} (h : j0 + 3 < 64) (j : Nat) :
    bufWord (loadWords s j0) j =
      if j0 + 3 = j then s.data3
      else if j0 + 2 = j then s.data2
      else if j0 + 1 = j then s.data1
      else if j0 = j then s.data0
      else bufWord s.pbuf j := by
  have inside {k : Nat} (hk : k ≤ j0 + 3) : k < 64 := Nat.lt_of_le_of_lt hk h
  simp [loadWords, bufWord_setIfInBounds, inside]

/-- The loaded bits of a group of four words (R143). -/
theorem loadMask_getLsbD {j0 j : Nat} (hj : j < 64) :
    (loadMask j0).getLsbD j = decide (j0 ≤ j ∧ j < j0 + 4) := by
  have low (k : Nat) : (0xF#64).getLsbD k = decide (k < 4) := by
    rw [show 0xF#64 = (BitVec.allOnes 4).setWidth 64 from rfl, BitVec.getLsbD_setWidth,
      BitVec.getLsbD_allOnes, Bool.eq_iff_iff]
    simp
    omega
  rw [loadMask, BitVec.getLsbD_shiftLeft, low, Bool.eq_iff_iff]
  simp
  omega

/-- Settles O39: the address, the gate, then the four words and bits of the group. -/
theorem loadBufferLoadsFourWords : Obligations.LoadBufferLoadsFourWords := by
  refine ⟨by decide, ?_⟩
  intro s ok j0
  refine ⟨fun h => ?_, fun hok h => ?_, fun hok h => ?_⟩
  · exact congrArg _ (if_neg (mt addrOk_iff.1 h))
  · exact congrArg _ ((if_pos (addrOk_iff.2 hok)).trans (bufGate_locked _ h))
  · have hj0 : s.bufIndex = j0 := bufIndex_eq s
    have hgroup : j0 + 3 < 64 := by
      have halign : s.addr.toNat % 16 = 0 := hok.1
      omega
    have hword := bufWord_loadWords s hgroup
    refine ⟨loadWords s j0, s.loaded ||| loadMask j0, ?_, by simp [hword], by simp [hword],
      by simp [hword], by simp [hword], fun j hj => ?_, fun j hj => ?_⟩
    · rw [← hj0]
      exact congrArg _ ((if_pos (addrOk_iff.2 hok)).trans (bufGate_open _ h))
    · rw [hword, if_neg (by omega), if_neg (by omega), if_neg (by omega), if_neg (by omega)]
    · rw [BitVec.getLsbD_or, loadMask_getLsbD hj]

/-- Settles O42: the address is right, and an erase is never out of order. -/
theorem fastErasesIssueTheirRange : Obligations.FastErasesIssueTheirRange := by
  intro s i n kind hmem hs hr halign hlo hhi
  obtain ⟨hi, hc⟩ := callAt_erase (d := .fast) (by simpa using hmem) s
  exact exec_flashOp_ready hi hs hc hr (addrOk_iff.2 ⟨halign, hlo, hhi⟩) rfl

end Sys2Proof.Machine

/-! ## Whole runs of the page commits -/

namespace Sys2Proof.Machine

/-- A buffer is told by its 64 words. -/
theorem buffer_ext {v w : Vector Word 64} (h : ∀ j < 64, bufWord v j = bufWord w j) : v = w :=
  Vector.ext fun j hj => by simpa [bufWord, hj] using h j hj

/-- On a block ready in the Fast domain a page commit issues the program of its page in its first
step: of the loaded PBUF, or of a SRCBUF whose words have all been written (R144, R145). -/
theorem exec_pageCommit_ready {s : State} {i : Instr} {W : Vector Word 64} {p : Nat}
    (hs : s.seq = .exec i .start) (hr : s.Ready .fast) (hp : p = s.addr.toNat - s.addr.toNat % 256)
    (hi : (i = .commitPageFast ∧ s.loaded = BitVec.allOnes 64 ∧ W = s.pbuf) ∨
      (i = .programPageFast ∧ s.srcWritten = BitVec.allOnes 64 ∧ W = s.srcbuf))
    (hin : s.cfg.flashBase ≤ p ∧ p + 256 ≤ s.cfg.flashEnd) :
    ∃ k, exec i s = .next { s with
      engine := .inFlight (.pageProgram p W) false
      pbuf   := W
      loaded := 0
      draws  := k
      polls  := 1
      seq    := .exec i (.wait .final) } := by
  obtain ⟨he, hpg, hwr, hclk, hopen, hother⟩ := hr
  have hfast : s.lockFast = false := hopen
  have hstd : s.lockStd = true := hother
  subst hp
  rcases hi with ⟨rfl, hloaded, rfl⟩ | ⟨rfl, hwritten, rfl⟩
  · refine ⟨s.draws, ?_⟩
    rw [commitIssuesTheLoadedBuffer s hs]
    simp [hin, hloaded, he, hpg, hwr, hclk, hfast, hstd]
  · obtain ⟨b, k, hb, hexec⟩ := programPageFastIssuesTheSource s hs
    obtain rfl : b = s.srcbuf :=
      buffer_ext fun j hj => hb j hj ((allLoaded_iff _).1 hwritten j hj)
    refine ⟨k, ?_⟩
    rw [hexec]
    simp [hin, he, hpg, hwr, hclk, hfast, hstd]

/-- A page commit at a poll of its final wait that finds the engine idle and no error flag finishes
Complete (R106, R107). -/
theorem exec_pageCommit_complete {s : State} {i : Instr}
    (hi : i = .commitPageFast ∨ i = .programPageFast) (hs : s.seq = .exec i (.wait .final))
    (he : s.engine = .idle) (hp : s.pgerr = false) (hw : s.wrprterr = false) :
    exec i s = .next (finish .complete s) := by
  have hc : callAt i (.wait .final) s = some (pageCall s.fastPage s) := by
    rcases hi with rfl | rfl <;> rfl
  rw [exec_flashOp_poll (by rcases hi with rfl | rfl <;> decide) hs hc,
    resumeFlashOp_final_clear he hp hw, andThen_ret]

/-- What byte k of a page holds once the words W are programmed (R65, R112). -/
def pageCell (W : Vector Word 64) (k : Nat) : FlashCell :=
  .val (wordByte (bufWord W (k / 4)) (k % 4))

theorem pageCell_word (W : Vector Word 64) {j b : Nat} (hb : b < 4) :
    pageCell W (4 * j + b) = .val (wordByte (bufWord W j) b) := by
  rw [pageCell, show (4 * j + b) / 4 = j by omega, show (4 * j + b) % 4 = b by omega]

/-- A page program changes exactly its page, to its words (R112). -/
theorem changedTo_pageProgram (m : Memory) (p : Nat) (W : Vector Word 64) :
    (m.write p (Op.pageProgram p W).cells).ChangedTo m p 256 (pageCell W) :=
  changedTo_write m p _ 256 _ (cells_length _) fun k hk => by
    simp [Op.cells, pageCell, pageBytes_getElem W hk]

/-- A read of the four bytes of a word, none of them a draw, is that word (R65, R66). -/
theorem arrRead_word {s : State} {a : Nat} {v : Word}
    (h : ∀ b < 4, s.settledByte (a + b) = some (wordByte v b)) (k : Nat) :
    (arrRead s k a 4).1 = v :=
  word_of_bytes (arrRead_settled k 4 a (wordByte v) le_rfl h).2.2

/-- Word j of a page whose cells hold the words W reads as word j, with the engine idle. -/
theorem arrRead_page {s : State} {m : Memory} {p j : Nat} {W : Vector Word 64}
    (he : s.engine = .idle) (hm : s.flash.ChangedTo m p 256 (pageCell W)) (hj : j < 64) (k : Nat) :
    (arrRead s k (p + 4 * j) 4).1 = bufWord W j := by
  refine arrRead_word (fun b hb => settledByte_val he ?_) k
  rw [Nat.add_assoc, hm.1 (4 * j + b) (by omega), pageCell_word W hb]

/-- Settles O43: the issue, the completion of the page program, and the end of the final wait. -/
theorem pageCommitsWriteSixtyFourWords : Obligations.PageCommitsWriteSixtyFourWords := by
  intro s i W p rest hs hr hp hi hlo hhi herased hprot hfail ha
  have hover : (Op.pageProgram p W).overwrites s.flash = false := by
    simp [Op.overwrites, (Memory.allErased_iff _ _ _).2 herased]
  obtain ⟨k, hissue⟩ := exec_pageCommit_ready
    (s := { s with agenda := .engine :: .sequencer :: rest }) hs { hr with } hp hi ⟨hlo, hhi⟩
  have hm := changedTo_pageProgram s.flash p W
  rw [steps_one ((step_sequencer hs ha).trans hissue)]
  refine ⟨_, steps_engine_sequencer (op := .pageProgram p W) rfl rfl rfl ?_ ?_ ?_
      (exec_pageCommit_complete (hi.imp And.left And.left) rfl rfl ?_ ?_),
    rfl, rfl, rfl, rfl, rfl, hm, fun j hj => arrRead_page rfl hm hj⟩
  exacts [hprot, hover, hfail, hr.no_pgerr, hr.no_wrprterr]

end Sys2Proof.Machine

/-! ## The first step of an orchestrator -/

namespace Sys2Proof.Machine

/-- On a ready block DoFlashOp ends its step at the first poll of its final wait, its operation
issued, whatever is to follow its result (R105 to R109). -/
theorem startFlashOp_andThen_ready {c : FlashCall} {s : State} (hr : s.Ready c.dom)
    (ha : addrOk s c.op.base c.op.size c.align = true) (ho : outOfOrder c s = false) (i : Instr)
    (p : WaitKind → Point) (k : OpResult → State → State) :
    (startFlashOp c s).andThen i p k = suspend i (p .final) (setPolls 1 (issue c s)) := by
  rw [startFlashOp_ready ha hr.engine_idle hr.no_pgerr hr.no_wrprterr hr.clk_safe hr.domain_open
    hr.other_locked ho, andThen_poll]

/-! ### RUN_STANDARD -/

theorem exec_runStandard_start {s : State} (hs : s.seq = .exec .runStandard .start) :
    exec .runStandard s = .next (stdStart s) := by
  simp only [exec, execRunStandard, stdStep, pos_of_exec hs]

/-- Settles O47: the entry check, then the other domain's lock. -/
theorem runStandardChecksItsRange : Obligations.RunStandardChecksItsRange := by
  intro s hs S E ok
  rw [exec_runStandard_start hs]
  refine ⟨fun h => ?_, fun h hfast => ?_⟩
  · exact congrArg _ (if_neg (mt (stdEntryOk_iff s).1 h))
  · exact congrArg _ ((if_pos ((stdEntryOk_iff s).2 h)).trans (unlockThen_of_open _ hfast))

/-- What RUN_STANDARD of s enters its erasing loop with (R172 to R174). -/
def stdBegun (s : State) : State := { s with
  orchKind := .standard, orchPhase := .erasing, eop := false, pgerr := false, wrprterr := false
  lockStd := false, lastProg := if s.lockStd then 0 else s.lastProg
  nbrPage := BitVec.ofNat 32 ((s.endAddr.toNat - s.startAddr.toNat + 4095) / 4096)
  eraseCnt := 0, flashStatus := .complete }

/-- On a good range with Fast locked the first step goes on to the erasing loop (R170 to R174). -/
theorem exec_runStandard_begun {s : State} (hs : s.seq = .exec .runStandard .start)
    (hok : stdEntryOk s = true) (hfast : s.lockFast = true) :
    exec .runStandard s = .next (stdEraseFrom (stdBegun s)) := by
  have hunlock : stdStart s = stdErase (openDomain .std
      { s with orchKind := .standard, orchPhase := .unlocking }) :=
    (if_pos hok).trans (unlockThen_of_locked _ hfast)
  rw [exec_runStandard_start hs, hunlock, stdErase_eq, pageCount_eq]
  simp [openDomain, stdBegun]

/-- With every page erased the programming phase follows (R174, R175). -/
theorem stdEraseFrom_done {s : State} (h : s.nbrPage.toNat ≤ s.eraseCnt.toNat) :
    stdEraseFrom s = stdProgram s := by
  rw [stdEraseFrom, Nat.sub_eq_zero_of_le h, stdEraseLoop]

/-- With a page left, the erasing loop issues its erase (R174). -/
theorem stdEraseFrom_issues {s : State} (hlt : s.eraseCnt.toNat < s.nbrPage.toNat)
    (hst : s.flashStatus = .complete) (hr : s.Ready .std)
    (ha : addrOk s (s.startAddr.toNat + 4096 * s.eraseCnt.toNat) 4096 4096 = true) :
    stdEraseFrom s =
      suspend .runStandard (.stdErase .final) (setPolls 1 (issue (stdEraseCall s) s)) := by
  obtain ⟨n, hn⟩ := Nat.exists_eq_add_of_lt hlt
  rw [stdEraseFrom, hn, Nat.add_assoc, Nat.add_sub_cancel_left, stdEraseLoop, if_pos hst]
  exact startFlashOp_andThen_ready (c := stdEraseCall s) hr ha rfl _ _ _

/-- With every half-word programmed the verifying phase follows (R175, R176). -/
theorem stdProgramFrom_done {s : State} (h : s.endAddr.toNat ≤ s.cursor.toNat) :
    stdProgramFrom s = stdVerify s := by
  rw [stdProgramFrom, halfCount, Nat.sub_eq_zero_of_le h, stdProgramLoop]

/-- With a half-word left, the programming loop issues its program (R175). -/
theorem stdProgramFrom_issues {s : State} (hlt : s.cursor.toNat < s.endAddr.toNat)
    (hst : s.flashStatus = .complete) (hr : s.Ready .std)
    (ha : addrOk s s.cursor.toNat 2 2 = true) (ho : s.lastProg.toNat ≤ s.cursor.toNat) :
    stdProgramFrom s =
      suspend .runStandard (.stdProgram .final) (setPolls 1 (issue (stdProgramCall s) s)) := by
  obtain ⟨n, hn⟩ : ∃ n, halfCount s.cursor.toNat s.endAddr.toNat = n + 1 :=
    ⟨(s.endAddr.toNat - s.cursor.toNat + 1) / 2 - 1, by rw [halfCount]; omega⟩
  rw [stdProgramFrom, hn, stdProgramLoop, if_pos hst]
  exact startFlashOp_andThen_ready (c := stdProgramCall s) hr ha (outOfOrder_program ho) _ _ _

/-- The programming loop starts at START (R175). -/
theorem stdProgram_eq (s : State) : stdProgram s =
    stdProgramFrom { s with orchPhase := .programming, cursor := s.startAddr } := rfl

/-- An empty range verifies (R176, C4). -/
theorem stdVerify_empty {s : State} (h : s.endAddr = s.startAddr) : stdVerify s = { s with
    orchPhase := .done, lockStd := true, verifyPassed := true, cursor := s.startAddr
    result := s.flashStatus, seq := .idle } := by
  obtain ⟨r, hr, e⟩ := stdVerify_eq s
  rw [show halfCount s.startAddr.toNat s.endAddr.toNat = 0 by simp [halfCount, h]] at hr
  rw [e, hr]
  simp [stdVerifyLoop]

/-- Settles O48: neither loop has anything to do, and the empty range verifies. -/
theorem runStandardOfNothingPasses : Obligations.RunStandardOfNothingPasses := by
  intro s hs hend halign hlo hhi hfast
  have hok : stdEntryOk s = true := by
    rw [stdEntryOk_iff, hend]
    exact ⟨le_rfl, halign, hlo, by omega⟩
  have hpages : (stdBegun s).nbrPage = 0 := by simp [stdBegun, hend]
  have hcursor : s.endAddr.toNat ≤ s.startAddr.toNat := by rw [hend]
  rw [exec_runStandard_begun hs hok hfast,
    stdEraseFrom_done (by rw [hpages]; exact Nat.zero_le _), stdProgram_eq,
    stdProgramFrom_done hcursor]
  refine congrArg _ ((stdVerify_empty (s := { stdBegun s with
    orchPhase := .programming, cursor := s.startAddr }) hend).trans ?_)
  rw [hpages]
  simp [stdBegun]

/-- Settles O49: there is a page to erase, and the block is ready for it. -/
theorem runStandardBeginsErasing : Obligations.RunStandardBeginsErasing := by
  intro s hs he hclk hfast S E hlt halign hlo hhi
  have hok : stdEntryOk s = true := (stdEntryOk_iff s).2 ⟨hlt.le, halign, hlo, hhi⟩
  have hr : (stdBegun s).Ready .std := ⟨he, rfl, rfl, hclk, rfl, hfast⟩
  have hE : E < 2 ^ 32 := s.endAddr.isLt
  have hpages : (stdBegun s).nbrPage.toNat = (E - S + 4095) / 4096 :=
    Nat.mod_eq_of_lt (by omega)
  have haddr : addrOk (stdBegun s) (S + 4096 * 0) 4096 4096 = true :=
    addrOk_iff.2 ⟨halign, hlo, show S + 4096 * 0 + 4096 ≤ s.cfg.flashEnd by omega⟩
  rw [exec_runStandard_begun hs hok hfast,
    stdEraseFrom_issues (by rw [hpages]; show 0 < _; omega) rfl hr haddr]
  rfl

/-! ### RUN_FAST -/

theorem exec_runFast_start {s : State} {nodiag : Bool}
    (hs : s.seq = .exec (.runFast nodiag) .start) :
    exec (.runFast nodiag) s = .next (fastStart nodiag s) := by
  simp only [exec, execRunFast, fastStep, pos_of_exec hs]

/-- Settles O53: the entry check, then the other domain's lock. -/
theorem runFastChecksItsBlock : Obligations.RunFastChecksItsBlock := by
  intro s nodiag hs ok
  rw [exec_runFast_start hs]
  refine ⟨fun h => ?_, fun h hstd => ?_⟩
  · exact congrArg _ (if_neg (mt (fastEntryOk_iff s).1 h))
  · exact congrArg _ ((if_pos ((fastEntryOk_iff s).2 h)).trans (unlockThen_of_open _ hstd))

/-- What RUN_FAST of s calls its block erase with (R178 to R181). -/
def fastBegun (s : State) : State := { s with
  orchKind := .fast, diagPage := .complete, diagStd := .complete, diagBlock := .complete
  diagRan := false, orchPhase := .erasing, eop := false, pgerr := false, wrprterr := false
  lockFast := false, srcbuf := wordsOf (BitVec.ofNat 32), srcWritten := BitVec.allOnes 64 }

theorem fastBegun_ready {s : State} (he : s.engine = .idle) (hclk : s.clkSafe = true)
    (hstd : s.lockStd = true) : (fastBegun s).Ready .fast :=
  ⟨he, rfl, rfl, hclk, rfl, hstd⟩

/-- On a good block with Std locked the first step issues the block erase (R178 to R181). -/
theorem exec_runFast_issues {s : State} {nodiag : Bool}
    (hs : s.seq = .exec (.runFast nodiag) .start) (hb : BlockAt s) (he : s.engine = .idle)
    (hclk : s.clkSafe = true) (hstd : s.lockStd = true) :
    exec (.runFast nodiag) s = .next (suspend (.runFast nodiag) (.fastErase .final)
      (setPolls 1 (issue (blockCall (fastBegun s)) (fastBegun s)))) := by
  have hunlock : fastStart nodiag s = fastErase nodiag (openDomain .fast
      { fastEnter s with orchPhase := .unlocking }) :=
    (if_pos ((fastEntryOk_iff s).2 hb)).trans (unlockThen_of_locked _ hstd)
  have hbegun : setPhase .erasing (writePattern (clearBody (openDomain .fast
      { fastEnter s with orchPhase := .unlocking }))) = fastBegun s := by
    simp [setPhase, writePattern, clearBody, openDomain, fastEnter, fastBegun]
  rw [exec_runFast_start hs, hunlock, fastErase]
  simp only [hbegun]
  exact congrArg _ (startFlashOp_andThen_ready (c := blockCall (fastBegun s))
    (fastBegun_ready he hclk hstd) (addrOk_block (n := 32768) hb dvd_rfl) rfl _ _ _)

/-- Settles O54: the block erase is issued over the pattern just written. -/
theorem runFastBeginsErasing : Obligations.RunFastBeginsErasing := by
  intro s nodiag hs he hclk hstd halign hlo hhi
  refine ⟨wordsOf (BitVec.ofNat 32), ?_, fun j hj => bufWord_wordsOf _ hj⟩
  rw [exec_runFast_issues hs ⟨halign, hlo, hhi⟩ he hclk hstd]
  rfl

end Sys2Proof.Machine

/-! ## The end of an orchestrator's run -/

namespace Sys2Proof.Machine

/-- Where the run has ended, by finish or by a fault, both domains are locked (R186). -/
abbrev EndsLocked (t : State) : Prop :=
  t.seq = .idle ∨ t.seq = .faulted → t.lockStd = true ∧ t.lockFast = true

theorem endsLocked_raiseFault (r : FaultReason) (s : State) : EndsLocked (raiseFault r s) :=
  fun _ => ⟨rfl, rfl⟩

/-- One step inside DoFlashOp suspends the command, raises a fault, or goes on with the lock domains
as they were. -/
theorem endsLocked_andThen {c : FlashCall} {s : State} {e : Call} (h : CallEnd c s e) (i : Instr)
    (p : WaitKind → Point) {k : OpResult → State → State}
    (hk : ∀ r t, t.lockStd = s.lockStd → t.lockFast = s.lockFast → EndsLocked (k r t)) :
    EndsLocked (e.andThen i p k) := by
  cases h with
  | fault r n => exact endsLocked_raiseFault r _
  | waiting w n _ => exact fun h => by simp at h
  | issued n => exact fun h => by simp at h
  | locked n _ => exact hk _ _ rfl rfl
  | result r n _ => exact hk _ _ rfl rfl

/-- UnlockBody raises a fault, or opens its domain with the other one locked (R115). -/
theorem endsLocked_unlockThen {d : Domain} {s : State} {k : State → State}
    (hk : ∀ t, t.lock d.other = true → EndsLocked (k t)) : EndsLocked (unlockThen d k s) := by
  cases ho : s.lock d.other with
  | false => rw [unlockThen_of_open k ho]; exact endsLocked_raiseFault _ _
  | true => rw [unlockThen_of_locked k ho]; exact hk _ (by cases d <;> exact ho)

/-! ### RUN_STANDARD, with Fast locked -/

theorem endsLocked_stdVerify {s : State} (h : s.lockFast = true) : EndsLocked (stdVerify s) := by
  obtain ⟨r, -, e⟩ := stdVerify_eq s
  rw [e]
  exact fun _ => ⟨rfl, h⟩

theorem endsLocked_stdProgramLoop (n : Nat) :
    ∀ s : State, s.lockFast = true → EndsLocked (stdProgramLoop n s) := by
  induction n with
  | zero => exact fun s h => endsLocked_stdVerify h
  | succ n ih =>
    intro s h
    unfold stdProgramLoop
    split
    · exact endsLocked_andThen (startFlashOp_end _ s) _ _ fun r t _ hf =>
        ih (stdProgrammed r t) (hf.trans h)
    · exact endsLocked_stdVerify h

theorem endsLocked_stdEraseLoop (n : Nat) :
    ∀ s : State, s.lockFast = true → EndsLocked (stdEraseLoop n s) := by
  have hprogram (s : State) (h : s.lockFast = true) : EndsLocked (stdProgram s) :=
    endsLocked_stdProgramLoop _ _ h
  induction n with
  | zero => exact hprogram
  | succ n ih =>
    intro s h
    unfold stdEraseLoop
    split
    · exact endsLocked_andThen (startFlashOp_end _ s) _ _ fun r t _ hf =>
        ih (stdErased r t) (hf.trans h)
    · exact hprogram s h

/-- A step of RUN_STANDARD, Fast being locked where it stands at a poll (R170). -/
theorem endsLocked_stdStep {s : State}
    (h : ∀ w, s.pos = .stdErase w ∨ s.pos = .stdProgram w → s.lockFast = true) :
    EndsLocked (stdStep s) := by
  unfold stdStep
  split
  · next w hw =>
    exact endsLocked_andThen (resumeFlashOp_end _ w s) _ _ fun r t _ hf =>
      endsLocked_stdEraseLoop _ (stdErased r t) (hf.trans (h w (.inl hw)))
  · next w hw =>
    exact endsLocked_andThen (resumeFlashOp_end _ w s) _ _ fun r t _ hf =>
      endsLocked_stdProgramLoop _ (stdProgrammed r t) (hf.trans (h w (.inr hw)))
  · unfold stdStart
    dsimp only
    split
    · refine endsLocked_unlockThen fun u hu => ?_
      rw [stdErase_eq]
      exact endsLocked_stdEraseLoop _ _ hu
    · exact endsLocked_raiseFault _ _

/-! ### RUN_FAST, with Std locked -/

theorem endsLocked_fastLock {s : State} (h : s.lockStd = true) : EndsLocked (fastLock s) := by
  rw [fastLock_eq]
  exact fun _ => ⟨h, rfl⟩

/-- The second diagnostic erase ends in UnlockBody of Fast (R184). -/
theorem endsLocked_diagStdDone (nodiag : Bool) (r : OpResult) (s : State) :
    EndsLocked (diagStdDone nodiag r s) :=
  endsLocked_unlockThen fun u hu => endsLocked_andThen (startFlashOp_end _ u) _ _
    fun r t hl _ => endsLocked_fastLock (s := { t with diagBlock := r, diagRan := true })
      (hl.trans hu)

/-- The first diagnostic erase ends in UnlockBody of Std (R184). -/
theorem endsLocked_diagPageDone (nodiag : Bool) (r : OpResult) (s : State) :
    EndsLocked (diagPageDone nodiag r s) :=
  endsLocked_unlockThen fun u _ => endsLocked_andThen (startFlashOp_end _ u) _ _
    fun r t _ _ => endsLocked_diagStdDone nodiag r t

theorem endsLocked_fastVerify {s : State} (nodiag : Bool) (h : s.lockStd = true) :
    EndsLocked (fastVerify nodiag s) := by
  obtain ⟨r, -, e⟩ := fastVerify_eq nodiag s
  rw [e]
  unfold fastDiag
  split
  · exact endsLocked_fastLock h
  · exact endsLocked_andThen (startFlashOp_end _ _) _ _ fun r t _ _ =>
      endsLocked_diagPageDone nodiag r t

/-- PROGRAM_PAGE_FAST's body ends as DoFlashOp does (R145). -/
theorem endsLocked_programPage {n : Nat} {s : State} (i : Instr) (p : WaitKind → Point)
    {k : OpResult → State → State}
    (hk : ∀ r t, t.lockStd = s.lockStd → t.lockFast = s.lockFast → EndsLocked (k r t)) :
    EndsLocked ((programPageStart n s).andThen i p k) := by
  unfold programPageStart
  split
  · split
    · exact hk _ (flagLocked s) rfl rfl
    · exact endsLocked_andThen (startFlashOp_end _ (fillFromSource s)) i p hk
  · exact endsLocked_raiseFault _ _

theorem endsLocked_fastProgramLoop (nodiag : Bool) (n : Nat) :
    ∀ s : State, s.lockStd = true → EndsLocked (fastProgramLoop nodiag n s) := by
  induction n with
  | zero => exact fun s h => endsLocked_fastVerify nodiag h
  | succ n ih =>
    intro s h
    unfold fastProgramLoop
    split
    · exact endsLocked_programPage _ _ fun r t hl _ => ih (fastProgrammed r t) (hl.trans h)
    · exact endsLocked_fastVerify nodiag h

theorem endsLocked_fastErased {s : State} (nodiag : Bool) (r : OpResult) (h : s.lockStd = true) :
    EndsLocked (fastErased nodiag r s) :=
  endsLocked_fastProgramLoop nodiag _ _ h

/-- A step of RUN_FAST, Std being locked where it stands at a poll of the run or of the third
diagnostic erase (R178). -/
theorem endsLocked_fastStep {s : State} (nodiag : Bool)
    (h : ∀ w, s.pos = .fastErase w ∨ s.pos = .fastProgram w ∨ s.pos = .diagBlock w →
      s.lockStd = true) : EndsLocked (fastStep nodiag s) := by
  unfold fastStep
  split
  · next w hw =>
    exact endsLocked_andThen (resumeFlashOp_end _ w s) _ _ fun r t hl _ =>
      endsLocked_fastErased nodiag r (hl.trans (h w (.inl hw)))
  · next w hw =>
    exact endsLocked_andThen (resumeFlashOp_end _ w s) _ _ fun r t hl _ =>
      endsLocked_fastProgramLoop nodiag _ (fastProgrammed r t)
        (hl.trans (h w (.inr (.inl hw))))
  · next w hw =>
    exact endsLocked_andThen (resumeFlashOp_end _ w s) _ _ fun r t _ _ =>
      endsLocked_diagPageDone nodiag r t
  · next w hw =>
    exact endsLocked_andThen (resumeFlashOp_end _ w s) _ _ fun r t _ _ =>
      endsLocked_diagStdDone nodiag r t
  · next w hw =>
    exact endsLocked_andThen (resumeFlashOp_end _ w s) _ _ fun r t hl _ =>
      endsLocked_fastLock (s := { t with diagBlock := r, diagRan := true })
        (hl.trans (h w (.inr (.inr hw))))
  · unfold fastStart
    dsimp only
    split
    · refine endsLocked_unlockThen fun u hu => ?_
      exact endsLocked_andThen (startFlashOp_end _ _) _ _ fun r t hl _ =>
        endsLocked_fastErased nodiag r (hl.trans hu)
    · exact endsLocked_raiseFault _ _

/-- Settles O57: the invariant has the other domain locked at every poll, and the locking phase
closes the orchestrator's own. -/
theorem orchestratorsLeaveDomainsLocked : Obligations.OrchestratorsLeaveDomainsLocked := by
  intro s t i p hinv hs hi he
  have hpos := pos_of_exec hs
  have hshut {q : Point} {d : Domain} (hq : s.pos = q) (hd : q.openDomain = some d) :
      s.lock d.other = true := (hinv.run_domain i p d hs (by rw [← hpos, hq, hd])).2
  rcases hi with rfl | ⟨n, rfl⟩ <;> (injection he with he; subst he)
  · refine endsLocked_stdStep fun w hw => ?_
    rcases hw with hw | hw <;> exact hshut hw rfl
  · refine endsLocked_fastStep n fun w hw => ?_
    rcases hw with hw | hw | hw <;> exact hshut hw rfl

end Sys2Proof.Machine

/-! ## The verdicts of the orchestrators -/

namespace Sys2Proof.Machine

/-! ### RUN_STANDARD -/

/-- A final wait of the programming loop that finds the engine idle goes on with the loop (R175). -/
theorem exec_stdProgram_idle {s : State} (hs : s.seq = .exec .runStandard (.stdProgram .final))
    (he : s.engine = .idle) :
    exec .runStandard s = .next (stdProgramFrom (stdProgrammed (flagResult s) s)) := by
  simp only [exec, execRunStandard, stdStep, pos_of_exec hs, resumeFlashOp_final_idle he,
    andThen_ret]

/-- Settles O52: no half-word is left to program, so the verify loop runs over the range. -/
theorem standardVerdictIsTheReadback : Obligations.StandardVerdictIsTheReadback := by
  intro s hs he hcur hend S n reads hsettled
  have hlast : s.endAddr.toNat ≤ (stdProgrammed (flagResult s) s).cursor.toNat :=
    hend.trans (BitVec.toNat_add_of_lt (y := 2) hcur).ge
  obtain ⟨r, hr, hverify⟩ := stdVerify_eq (stdProgrammed (flagResult s) s)
  rw [stdVerifyLoop_congr (s := stdProgrammed (flagResult s) s) (t := s) rfl rfl rfl rfl] at hr
  obtain ⟨hpassed, hcursor, hstop⟩ := stdVerifyLoop_settled s s.draws n S hsettled
  rw [exec_stdProgram_idle hs he, stdProgramFrom_done hlast, hverify, hr]
  exact ⟨_, rfl, rfl, rfl, hpassed, fun h => congrArg (BitVec.ofNat 32) (hcursor h),
    fun i hi hbefore hmiss => congrArg (BitVec.ofNat 32) (hstop i hi hbefore hmiss)⟩

/-! ### RUN_FAST -/

theorem exec_fastErase_idle {s : State} {nodiag : Bool}
    (hs : s.seq = .exec (.runFast nodiag) (.fastErase .final)) (he : s.engine = .idle) :
    exec (.runFast nodiag) s = .next (fastErased nodiag (flagResult s) s) := by
  simp only [exec, execRunFast, fastStep, pos_of_exec hs, resumeFlashOp_final_idle he, andThen_ret]

theorem exec_fastProgram_idle {s : State} {nodiag : Bool}
    (hs : s.seq = .exec (.runFast nodiag) (.fastProgram .final)) (he : s.engine = .idle) :
    exec (.runFast nodiag) s =
      .next (fastProgramFrom nodiag (fastProgrammed (flagResult s) s)) := by
  simp only [exec, execRunFast, fastStep, pos_of_exec hs, resumeFlashOp_final_idle he, andThen_ret]

/-- With every page programmed the verifying phase follows (R182, R183). -/
theorem fastProgramFrom_done {nodiag : Bool} {s : State} (h : 128 ≤ s.pageIdx.toNat) :
    fastProgramFrom nodiag s = fastVerify nodiag s := by
  rw [fastProgramFrom, Nat.sub_eq_zero_of_le h, fastProgramLoop]

/-- The step that ends the programming phase goes on to the verifying phase, with the result in
FLASH_STATUS (R181 to R183). -/
theorem exec_fastProgramming_ends {s : State} {nodiag : Bool} {p : Point}
    (hs : s.seq = .exec (.runFast nodiag) p) (he : s.engine = .idle)
    (h : (p = .fastErase .final ∧ flagResult s ≠ .complete) ∨
      (p = .fastProgram .final ∧ (flagResult s ≠ .complete ∨ s.pageIdx = 127))) :
    ∃ ph idx u, u = { s with orchPhase := ph, flashStatus := flagResult s, pageIdx := idx } ∧
      exec (.runFast nodiag) s = .next (fastVerify nodiag u) := by
  rcases h with ⟨rfl, hf⟩ | ⟨rfl, hf | hlast⟩
  · exact ⟨.programming, 0, _, rfl, (exec_fastErase_idle hs he).trans
      (congrArg _ (fastProgramLoop_failed hf))⟩
  · exact ⟨s.orchPhase, s.pageIdx + 1, _, rfl, (exec_fastProgram_idle hs he).trans
      (congrArg _ (fastProgramLoop_failed hf))⟩
  · refine ⟨s.orchPhase, s.pageIdx + 1, _, rfl, (exec_fastProgram_idle hs he).trans
      (congrArg _ (fastProgramFrom_done ?_))⟩
    show 128 ≤ (s.pageIdx + 1).toNat
    rw [hlast]
    decide

/-- On a block that is ready, the diagnostic phase issues the erase of the fast page at START
(R184). -/
theorem fastDiag_issues {s : State} (hr : s.Ready .fast) (hb : BlockAt s) :
    fastDiag false s = suspend (.runFast false) (.diagPage .final)
      (setPolls 1 (issue (diagPageCall s) (setPhase .diagnostic s))) := by
  have hready : (setPhase .diagnostic s).Ready .fast := { hr with }
  rw [fastDiag, if_neg (by decide)]
  exact startFlashOp_andThen_ready (c := diagPageCall s) hready
    (addrOk_block (n := 256) hb (by decide)) rfl _ _ _

/-- Where no byte of the block is a draw, the verifying phase leaves the last page's read-back in
FLAG, with CURSOR at the last word where it is set, and draws nothing (R183). -/
theorem fastVerify_settled {s : State} (nodiag : Bool) (h : ∀ x, s.startAddr.toNat ≤ x →
      x < s.startAddr.toNat + 32768 → s.settledByte x ≠ none) :
    ∃ flag cur, fastVerify nodiag s = fastDiag nodiag { s with
        orchPhase := .verifying, pageIdx := 127, verifyFlag := flag, cursor := cur } ∧
      (flag = true ↔ ∀ j < 64, ∀ k < 4, s.settledByte (s.startAddr.toNat + 256 * 127 + 4 * j + k) =
        some (wordByte (BitVec.ofNat 32 j) k)) ∧
      (flag = true → cur = BitVec.ofNat 32 (s.startAddr.toNat + 32764)) := by
  obtain ⟨v, hv, hverify⟩ := fastVerify_eq nodiag s
  obtain ⟨hflag, hcursor, hdraws⟩ := fastVerifyLoop_settled s 128 0
    (s.verifyFlag, s.cursor.toNat, s.draws) h (by decide)
  rw [← hv, show 0 + 128 - 1 = 127 from rfl] at hflag hcursor
  rw [← hv] at hdraws
  rw [hdraws] at hverify
  refine ⟨v.1, BitVec.ofNat 32 v.2.1, hverify, hflag, fun h => ?_⟩
  rw [hcursor h]

/-- Settles O56: the verify loop keeps the last page's read-back, and the diagnostic phase keeps
what the loop left. -/
theorem fastVerdictIsTheLastPage : Obligations.FastVerdictIsTheLastPage := by
  intro s nodiag p r hs he hr hp S hsettled
  obtain rfl : r = flagResult s := hr
  obtain ⟨ph, idx, u, hu, hexec⟩ := exec_fastProgramming_ends hs he hp
  have hread (x : Nat) : u.settledByte x = s.settledByte x := by rw [hu]; rfl
  have hS : u.startAddr.toNat = S := by rw [hu]
  obtain ⟨flag, cur, hverify, hflag, hcursor⟩ := fastVerify_settled (s := u) nodiag
    (by simpa only [hread, hS] using hsettled)
  simp only [hread, hS] at hflag hcursor
  rw [hexec, hverify]
  generalize hw : ({ u with
    orchPhase := .verifying, pageIdx := 127, verifyFlag := flag, cursor := cur } : State) = w
  subst hu
  obtain ⟨kstatus, kidx, kcursor, kflag, kflash⟩ := diagKeeps_fastDiag nodiag w
  refine ⟨_, rfl, ?_, ?_, ?_, ?_, ?_, ?_, ?_⟩
  · rw [kstatus, ← hw]
  · rw [kidx, ← hw]
  · rw [kflash, ← hw]
  · rw [kflag, ← hw]; exact hflag
  · rw [kflag, kcursor, ← hw]; exact hcursor
  · rintro rfl
    rw [show fastDiag true w = fastLock w from rfl, fastLock_eq, ← hw]
    exact ⟨rfl, rfl, rfl, he, rfl, rfl, rfl, rfl, rfl, rfl⟩
  · rintro rfl halign hlo hhi hstd hfast
    have hb : BlockAt w := by rw [← hw]; exact ⟨halign, hlo, hhi⟩
    refine ⟨fun hf => ?_, fun hf hclk => ?_⟩
    · have hfw : flagResult w = flagResult s := by rw [← hw]; rfl
      obtain ⟨l, e⟩ := fastDiag_stale (s := w) (by rw [← hw]; exact he) (by rwa [hfw]) hb
      rw [e, hfw, ← hw]
      exact ⟨rfl, rfl, rfl, he, rfl, rfl, rfl, rfl, rfl, rfl⟩
    · obtain ⟨hpg, hwr⟩ := flagResult_eq_complete.1 hf
      rw [fastDiag_issues (by rw [← hw]; exact ⟨he, hpg, hwr, hclk, hfast, hstd⟩) hb]
      refine ⟨rfl, rfl, ?_, ?_⟩
      · simp only [suspend_engine, setPolls_engine, issue_engine, diagPageCall, ← hw, S]
      · simp only [suspend_diagRan, setPolls_diagRan, issue_diagRan, setPhase_diagRan, ← hw]

end Sys2Proof.Machine

/-! ## Rounds of an orchestrator -/

namespace Sys2Proof.Machine

/-- What the sequencer finds at position p after the issue of c from s and the engine's successful
completion, with the turns `rest` left (R109 to R112). -/
def roundEnd (i : Instr) (p : Point) (c : FlashCall) (rest : List Turn) (s : State) : State :=
  { s with
    engine := .idle, eop := true, flash := s.flash.write c.op.base c.op.cells
    lastProg := lastProgAfter c s, loaded := loadedAfter c s, polls := 1, seq := .exec i p
    agenda := rest }

/-- One round: the engine completes the operation that s issued, on a target that is unprotected,
unfailing and, for a program, erased; then the sequencer steps (R109 to R112). -/
theorem steps_round {i : Instr} {p : Point} {c : FlashCall} {rest : List Turn} {s t : State}
    (ha : s.agenda = .engine :: .sequencer :: rest)
    (hprot : s.cfg.protects c.op.base c.op.size = false)
    (hover : c.op.overwrites s.flash = false) (hfail : s.cfg.failing c.op.kind c.op.base = false)
    (ht : exec i (roundEnd i p c rest s) = .next t) :
    steps 2 (suspend i p (setPolls 1 (issue c s))) = .next t := by
  have hend : { succeedOp c.op (suspend i p (setPolls 1 (issue c s))) with agenda := rest } =
      roundEnd i p c rest s := by
    simp [roundEnd]
  rw [← hend] at ht
  generalize hu : suspend i p (setPolls 1 (issue c s)) = u at ht ⊢
  exact steps_engine_sequencer (p := p) (by simpa [← hu] using ha) (by simp [← hu]) (by simp [← hu])
    (by simpa [← hu] using hprot) (by simpa [← hu] using hover) (by simpa [← hu] using hfail) ht

/-- A block ready in a domain is so after a round in it. -/
theorem State.Ready.roundEnd {s : State} {d : Domain} (h : s.Ready d) (i : Instr) (p : Point)
    (c : FlashCall) (rest : List Turn) : (roundEnd i p c rest s).Ready d :=
  { h with engine_idle := rfl }

/-- The turns of n rounds. -/
abbrev rounds (n : Nat) : List Turn := (List.replicate n [Turn.engine, Turn.sequencer]).flatten

theorem rounds_add (m n : Nat) (rest : List Turn) :
    rounds (m + n) ++ rest = rounds m ++ (rounds n ++ rest) := by
  rw [rounds, List.replicate_add, List.flatten_append, List.append_assoc]

/-- A loop f of which each of the first n rounds leads from P j to P (j + 1): from P 0 its first k
rounds lead to P k. -/
theorem steps_rounds {P : Nat → State → Prop} {f : State → State} {n : Nat}
    (hround : ∀ j < n, ∀ (u : State) (rest : List Turn), P j u →
      u.agenda = .engine :: .sequencer :: rest →
      ∃ v, steps 2 (f u) = .next (f v) ∧ P (j + 1) v ∧ v.agenda = rest)
    {u : State} (h0 : P 0 u) : ∀ k ≤ n, ∀ rest, u.agenda = rounds k ++ rest →
      ∃ v, steps (2 * k) (f u) = .next (f v) ∧ P k v ∧ v.agenda = rest := by
  intro k
  induction k with
  | zero => exact fun _ rest ha => ⟨u, rfl, h0, ha⟩
  | succ k ih =>
    intro hk rest ha
    obtain ⟨v, hsteps, hPv, hav⟩ := ih (by omega) _ (ha.trans (rounds_add k 1 rest))
    obtain ⟨w, hstep, hPw, haw⟩ := hround k hk v rest hPv hav
    exact ⟨w, (steps_add hsteps).trans hstep, hPw, haw⟩

end Sys2Proof.Machine

/-! ## Whole runs of RUN_STANDARD -/

namespace Sys2Proof.Machine

/-- The pages of RUN_STANDARD's range (R173). -/
def State.stdPages (s : State) : Nat := (s.endAddr.toNat - s.startAddr.toNat + 4095) / 4096

/-- The half-words of RUN_STANDARD's range (R175). -/
def State.stdHalves (s : State) : Nat := (s.endAddr.toNat - s.startAddr.toNat + 1) / 2

/-- A range of RUN_STANDARD that its run can erase and program (R9, R171). -/
structure StdRange (s : State) : Prop where
  ordered   : s.startAddr.toNat ≤ s.endAddr.toNat
  aligned   : s.startAddr.toNat % 4096 = 0
  above     : s.cfg.flashBase ≤ s.startAddr.toNat
  below     : s.startAddr.toNat + 4096 * s.stdPages ≤ s.cfg.flashEnd
  bounded   : s.cfg.flashEnd < 2 ^ 32
  free      : s.cfg.protects s.startAddr.toNat (4096 * s.stdPages) = false
  erases    : ∀ i < s.stdPages, s.cfg.failing .page4K (s.startAddr.toNat + 4096 * i) = false
  programs  : ∀ j < s.stdHalves, s.cfg.failing .prog (s.startAddr.toNat + 2 * j) = false

/-- The half-words lie in the pages. -/
theorem stdHalves_le (s : State) : 2 * s.stdHalves ≤ 4096 * s.stdPages := by
  unfold State.stdHalves State.stdPages
  omega

/-- What RUN_STANDARD of s leaves as it was from its unlock to its verify phase. -/
structure StdRuns (s u : State) : Prop where
  ready    : u.Ready .std
  status   : u.flashStatus = .complete
  kind     : u.orchKind = .standard
  start    : u.startAddr = s.startAddr
  finish   : u.endAddr = s.endAddr
  pattern  : u.pattern = s.pattern
  cfg      : u.cfg = s.cfg
  faults   : u.faults = s.faults
  pages    : u.nbrPage.toNat = s.stdPages

/-- The erasing loop of RUN_STANDARD of s goes on with u after k pages (R174). -/
structure StdErased (s : State) (k : Nat) (u : State) : Prop extends StdRuns s u where
  count    : u.eraseCnt.toNat = k
  lastProg : 0 < k → u.lastProg = 0
  cells    : u.flash.ChangedTo s.flash s.startAddr.toNat (4096 * k) fun _ => .erased

/-- What byte k of the range holds after j half-words of v (R65, R175). -/
def stdCell (v : Half) (j k : Nat) : FlashCell :=
  if k < 2 * j then .val (v.extractLsb' (8 * (k % 2)) 8) else .erased

/-- The programming loop of RUN_STANDARD of s goes on with u after j half-words (R175). -/
structure StdProgrammed (s : State) (j : Nat) (u : State) : Prop extends StdRuns s u where
  count    : u.eraseCnt.toNat = s.stdPages
  cursor   : u.cursor.toNat = s.startAddr.toNat + 2 * j
  ordered  : j < s.stdHalves → u.lastProg.toNat ≤ s.startAddr.toNat + 2 * j
  cells    : u.flash.ChangedTo s.flash s.startAddr.toNat (4096 * s.stdPages) (stdCell s.pattern j)

/-! ### The erasing loop -/

/-- A final wait of the erasing loop that finds the engine idle and no error flag goes on with the
loop (R106, R174). -/
theorem exec_stdErase_complete {u : State}
    (hs : u.seq = .exec .runStandard (.stdErase .final)) (hr : u.Ready .std) :
    exec .runStandard u = .next (stdEraseFrom (stdErased .complete u)) := by
  simp only [exec, execRunStandard, stdStep, pos_of_exec hs,
    resumeFlashOp_final_clear hr.engine_idle hr.no_pgerr hr.no_wrprterr, andThen_ret]

/-- An erase changes exactly its range, to Erased (R111). -/
theorem changedTo_erase (m : Memory) (a n : Nat) (kind : EraseKind) :
    (m.write a (Op.eraseRange a n kind).cells).ChangedTo m a n fun _ => .erased :=
  changedTo_write m a _ n _ (cells_length _) fun _ hi => erase_cells_getElem hi

/-- The next page of a range of erased pages. -/
theorem changedTo_erase_next {m m₀ : Memory} {a k : Nat}
    (h : m.ChangedTo m₀ a (4096 * k) fun _ => .erased) (kind : EraseKind) :
    (m.write (a + 4096 * k) (Op.eraseRange (a + 4096 * k) 4096 kind).cells).ChangedTo m₀ a
      (4096 * (k + 1)) fun _ => .erased := by
  refine changedTo_trans h (changedTo_erase m _ _ kind) _ (fun x hx => by omega) fun i hi => ?_
  by_cases hik : 4096 * k ≤ i
  · exact .inl ⟨by omega, by omega, rfl⟩
  · exact .inr ⟨by omega, by omega, rfl⟩

theorem StdErased.call {s u : State} {k : Nat} (h : StdErased s k u) : stdEraseCall u =
    ⟨.std, .eraseRange (s.startAddr.toNat + 4096 * k) 4096 .page4K, 4096⟩ := by
  rw [stdEraseCall, h.start, h.count]

/-- What RUN_STANDARD leaves as it was is so after a round and the bookkeeping of its loop. -/
theorem StdRuns.round {s u : State} (h : StdRuns s u) (p : Point) (c : FlashCall)
    (rest : List Turn) (n cur : Word) : StdRuns s { roundEnd .runStandard p c rest u with
      flashStatus := .complete, eraseCnt := n, cursor := cur } :=
  { h with ready := { h.ready with engine_idle := rfl }, status := rfl }

/-- One round of the erasing loop (R174). -/
theorem StdErased.round {s u : State} {k : Nat} {rest : List Turn} (hrange : StdRange s)
    (h : StdErased s k u) (hk : k < s.stdPages) (ha : u.agenda = .engine :: .sequencer :: rest) :
    ∃ v, steps 2 (stdEraseFrom u) = .next (stdEraseFrom v) ∧ StdErased s (k + 1) v ∧
      v.agenda = rest := by
  have hbelow := hrange.below
  have hpage : 4096 * (k + 1) ≤ 4096 * s.stdPages := Nat.mul_le_mul_left _ hk
  have haddr : addrOk u (u.startAddr.toNat + 4096 * u.eraseCnt.toNat) 4096 4096 = true := by
    have halign := hrange.aligned
    have habove := hrange.above
    rw [h.start, h.count, addrOk_iff, h.cfg]
    omega
  have hprot : u.cfg.protects (s.startAddr.toNat + 4096 * k) 4096 = false := by
    rw [h.cfg]
    exact protects_mono (by omega) (by omega) hrange.free
  have hfail : u.cfg.failing .page4K (s.startAddr.toNat + 4096 * k) = false := by
    rw [h.cfg]
    exact hrange.erases k hk
  rw [stdEraseFrom_issues (by rw [h.count, h.pages]; exact hk) h.status h.ready haddr, h.call]
  refine ⟨_, steps_round ha hprot rfl hfail
    (exec_stdErase_complete rfl (h.ready.roundEnd _ _ _ _)), ?_, rfl⟩
  exact
    { toStdRuns := h.toStdRuns.round _ _ rest _ u.cursor
      count     := by
        have hbound := hrange.bounded
        have hfit : u.eraseCnt.toNat + 1 < 2 ^ 32 := by
          rw [h.count]
          omega
        exact (BitVec.toNat_add_of_lt (y := 1) hfit).trans (congrArg (· + 1) h.count)
      lastProg  := fun _ => rfl
      cells     := changedTo_erase_next h.cells _ }

/-! ### The programming loop -/

/-- A final wait of the programming loop that finds the engine idle and no error flag goes on with
the loop (R106, R175). -/
theorem exec_stdProgram_complete {u : State}
    (hs : u.seq = .exec .runStandard (.stdProgram .final)) (hr : u.Ready .std) :
    exec .runStandard u = .next (stdProgramFrom (stdProgrammed .complete u)) := by
  rw [exec_stdProgram_idle hs hr.engine_idle, flagResult_of_clear hr.no_pgerr hr.no_wrprterr]

/-- A half-word program changes exactly its two bytes (R65, R112). -/
theorem changedTo_half (m : Memory) (a : Nat) (v : Half) :
    (m.write a (Op.program a (halfBytes v)).cells).ChangedTo m a 2
      fun k => .val (v.extractLsb' (8 * k) 8) :=
  changedTo_write m a _ 2 _ rfl fun i hi => by interval_cases i <;> rfl

/-- The next half-word of a range of erased pages. -/
theorem changedTo_half_next {m m₀ : Memory} {a n j : Nat} {v : Half}
    (h : m.ChangedTo m₀ a n (stdCell v j)) (hn : 2 * (j + 1) ≤ n) :
    (m.write (a + 2 * j) (Op.program (a + 2 * j) (halfBytes v)).cells).ChangedTo m₀ a n
      (stdCell v (j + 1)) := by
  refine changedTo_trans h (changedTo_half m _ v) _ (fun x hx => by omega) fun i hi => ?_
  by_cases hij : 2 * j ≤ i ∧ i < 2 * j + 2
  · refine .inl ⟨by omega, by omega, ?_⟩
    rw [stdCell, if_pos (by omega), show a + i - (a + 2 * j) = i % 2 by omega]
  · refine .inr ⟨by omega, hi, ?_⟩
    simp only [stdCell, show i < 2 * (j + 1) ↔ i < 2 * j by omega]

theorem StdProgrammed.call {s u : State} {j : Nat} (h : StdProgrammed s j u) : stdProgramCall u =
    ⟨.std, .program (s.startAddr.toNat + 2 * j) (halfBytes s.pattern), 2⟩ := by
  rw [stdProgramCall, h.cursor, h.pattern]

/-- One round of the programming loop (R175). -/
theorem StdProgrammed.round {s u : State} {j : Nat} {rest : List Turn} (hrange : StdRange s)
    (h : StdProgrammed s j u) (hj : j < s.stdHalves)
    (ha : u.agenda = .engine :: .sequencer :: rest) :
    ∃ v, steps 2 (stdProgramFrom u) = .next (stdProgramFrom v) ∧ StdProgrammed s (j + 1) v ∧
      v.agenda = rest := by
  have hbelow := hrange.below
  have hbound := hrange.bounded
  have hhalf := stdHalves_le s
  have haddr : addrOk u u.cursor.toNat 2 2 = true := by
    have halign := hrange.aligned
    have habove := hrange.above
    rw [h.cursor, addrOk_iff, h.cfg]
    omega
  have hlt : u.cursor.toNat < u.endAddr.toNat := by
    rw [h.cursor, h.finish]
    unfold State.stdHalves at hj
    omega
  have hprot : u.cfg.protects (s.startAddr.toNat + 2 * j) 2 = false := by
    rw [h.cfg]
    exact protects_mono (by omega) (by omega) hrange.free
  have hfail : u.cfg.failing .prog (s.startAddr.toNat + 2 * j) = false := by
    rw [h.cfg]
    exact hrange.programs j hj
  have hover : (Op.program (s.startAddr.toNat + 2 * j) (halfBytes s.pattern)).overwrites u.flash =
      false := by
    rw [Op.overwrites, Bool.not_eq_false']
    refine (Memory.allErased_iff _ _ _).2 fun (i : Nat) (hi : i < 2) => ?_
    rw [Nat.add_assoc, h.cells.1 (2 * j + i) (by omega), stdCell, if_neg (by omega)]
  have hcur : (u.cursor + 2).toNat = s.startAddr.toNat + 2 * (j + 1) := by
    have hfit : u.cursor.toNat + 2 < 2 ^ 32 := by
      rw [h.cursor]
      omega
    rw [BitVec.toNat_add_of_lt (y := 2) hfit, h.cursor]
    exact Nat.add_assoc _ (2 * j) 2
  have horder : u.lastProg.toNat ≤ u.cursor.toNat := by
    rw [h.cursor]
    exact h.ordered hj
  rw [stdProgramFrom_issues hlt h.status h.ready haddr horder, h.call]
  refine ⟨stdProgrammed .complete (roundEnd .runStandard (.stdProgram .final) _ rest u),
    steps_round ha hprot hover hfail (exec_stdProgram_complete rfl (h.ready.roundEnd _ _ _ _)),
    ?_, rfl⟩
  exact
    { toStdRuns := h.toStdRuns.round _ _ rest u.eraseCnt _
      count     := h.count
      cursor    := hcur
      ordered   := fun _ => Nat.mod_le _ _
      cells     := changedTo_half_next h.cells (by omega) }

/-! ### The whole run -/

/-- RUN_STANDARD of s enters its erasing loop, with no page erased (R172 to R174). -/
theorem stdErased_begun {s : State} (hrange : StdRange s) (he : s.engine = .idle)
    (hclk : s.clkSafe = true) (hfast : s.lockFast = true) (g : List Turn) :
    StdErased s 0 (stdBegun { s with agenda := g }) where
  ready    := ⟨he, rfl, rfl, hclk, rfl, hfast⟩
  status   := rfl
  kind     := rfl
  start    := rfl
  finish   := rfl
  pattern  := rfl
  cfg      := rfl
  faults   := rfl
  pages    := Nat.mod_eq_of_lt (by
    have hbelow := hrange.below
    have hbound := hrange.bounded
    unfold State.stdPages at hbelow
    omega)
  count    := rfl
  lastProg := nofun
  cells    := ⟨nofun, fun _ _ => rfl⟩

/-- With its pages erased the run enters the programming loop, with no half-word programmed
(R175). -/
theorem StdErased.programs {s u : State} (h : StdErased s s.stdPages u) :
    ∃ v, stdEraseFrom u = stdProgramFrom v ∧ StdProgrammed s 0 v ∧ v.agenda = u.agenda := by
  refine ⟨{ u with orchPhase := .programming, cursor := u.startAddr },
    (stdEraseFrom_done (by rw [h.count, h.pages])).trans (stdProgram_eq u), ?_, rfl⟩
  exact
    { h with
      ready   := { h.ready with }
      cursor  := congrArg BitVec.toNat h.start
      ordered := fun hhalf => by
        have hpages : 0 < s.stdPages := by
          have := stdHalves_le s
          omega
        rw [show _ = u.lastProg from rfl, h.lastProg hpages]
        exact Nat.zero_le _ }

/-- With its half-words programmed the run verifies, and passes (R176, R177). -/
theorem StdProgrammed.verifies {s u : State} (h : StdProgrammed s s.stdHalves u) :
    ∃ k, stdProgramFrom u = { u with
      orchPhase := .done, lockStd := true, verifyPassed := true
      cursor := BitVec.ofNat 32 (s.startAddr.toNat + 2 * s.stdHalves), draws := k
      result := u.flashStatus, seq := .idle } := by
  have hdone : u.endAddr.toNat ≤ u.cursor.toNat := by
    rw [h.finish, h.cursor, State.stdHalves]
    omega
  have hbyte {i : Nat} (hi : i < 2 * s.stdHalves) : u.settledByte (s.startAddr.toNat + i) =
      some (u.pattern.extractLsb' (8 * (i % 2)) 8) := by
    have hin := stdHalves_le s
    refine settledByte_val h.ready.engine_idle ?_
    rw [h.cells.1 i (by omega), stdCell, if_pos hi, h.pattern]
  obtain ⟨r, hr, hverify⟩ := stdVerify_eq u
  obtain ⟨hpassed, hcursor, -⟩ := stdVerifyLoop_settled u u.draws s.stdHalves s.startAddr.toNat
    fun x h1 h2 => by
      obtain ⟨i, rfl⟩ := Nat.exists_eq_add_of_le h1
      rw [hbyte (by omega)]
      exact nofun
  have hreads (i : Nat) (hi : i < s.stdHalves) :
      u.settledByte (s.startAddr.toNat + 2 * i) = some (u.pattern.extractLsb' 0 8) ∧
        u.settledByte (s.startAddr.toNat + 2 * i + 1) = some (u.pattern.extractLsb' 8 8) := by
    refine ⟨(hbyte (by omega)).trans ?_, (hbyte (i := 2 * i + 1) (by omega)).trans ?_⟩
    · rw [show 2 * i % 2 = 0 by omega]
    · rw [show (2 * i + 1) % 2 = 1 by omega]
  rw [show halfCount u.startAddr.toNat u.endAddr.toNat = s.stdHalves by
    rw [h.start, h.finish]; rfl, h.start] at hr
  rw [← hr] at hpassed hcursor
  refine ⟨r.2.2, ?_⟩
  rw [stdProgramFrom_done hdone, hverify, hpassed.2 hreads, hcursor hreads]

/-- Settles O50: the first step, a round for each page, a round for each half-word, the last of them
going on to the verify phase. -/
theorem runStandardProgramsAndVerifies : Obligations.RunStandardProgramsAndVerifies := by
  intro s rest hs he hclk hfast hbound S E N M hle halign hlo hhi hprot herases hprograms ha
  have hrange : StdRange s := ⟨hle, halign, hlo, hhi, hbound, hprot, herases, hprograms⟩
  have hok : stdEntryOk s = true :=
    (stdEntryOk_iff s).2 ⟨hle, halign, hlo, (Nat.mul_comm _ 4096).symm ▸ hhi⟩
  have hbegin := (step_sequencer hs ha).trans (exec_runStandard_begun hs hok hfast)
  obtain ⟨u, herase, hu, hau⟩ := steps_rounds (P := StdErased s) (f := stdEraseFrom)
    (fun k hk u rest hu hau => hu.round hrange hk hau)
    (stdErased_begun hrange he hclk hfast _) N le_rfl _ (rounds_add N M rest)
  obtain ⟨v, hv, hprogrammed, hav⟩ := hu.programs
  obtain ⟨w, hprogram, hw, haw⟩ := steps_rounds (P := StdProgrammed s) (f := stdProgramFrom)
    (fun j hj u rest hu hau => hu.round hrange hj hau) hprogrammed M le_rfl rest (hav.trans hau)
  obtain ⟨k, hverify⟩ := hw.verifies
  have hsteps : steps (1 + 2 * (N + M)) s = .next (stdProgramFrom w) := by
    rw [show 1 + 2 * (N + M) = 2 * N + 2 * M + 1 by omega, steps_one hbegin, steps_add herase, hv,
      hprogram]
  rw [hverify] at hsteps
  exact ⟨_, hsteps, rfl, hw.status, hw.status, rfl, rfl, hw.kind, rfl, hw.ready.other_locked,
    hw.ready.engine_idle, (BitVec.toNat_eq_nat.1 hw.pages).2, (BitVec.toNat_eq_nat.1 hw.count).2,
    rfl, hw.ready.no_pgerr, hw.ready.no_wrprterr, hw.faults, haw, hw.cells⟩

end Sys2Proof.Machine

/-! ## Whole runs of RUN_FAST -/

namespace Sys2Proof.Machine

/-- A block that a run of RUN_FAST can erase and program (R9, R179). -/
structure FastBlock (s : State) : Prop where
  block    : BlockAt s
  free     : s.cfg.protects s.startAddr.toNat 32768 = false
  erases   : ∀ n kind,
    s.cfg.failing (Op.eraseRange s.startAddr.toNat n kind).kind s.startAddr.toNat = false
  programs : ∀ i < 128, s.cfg.failing .pageProg (s.startAddr.toNat + 256 * i) = false

/-- What RUN_FAST of s leaves as it was from its block erase on, with domain d open. -/
structure FastRuns (s : State) (d : Domain) (u : State) : Prop where
  ready     : u.Ready d
  status    : u.flashStatus = .complete
  kind      : u.orchKind = .fast
  passed    : u.verifyPassed = s.verifyPassed
  diagPage  : u.diagPage = .complete
  diagStd   : u.diagStd = .complete
  diagBlock : u.diagBlock = .complete
  source    : u.srcbuf = wordsOf (BitVec.ofNat 32)
  written   : u.srcWritten = BitVec.allOnes 64
  start     : u.startAddr = s.startAddr
  cfg       : u.cfg = s.cfg
  faults    : u.faults = s.faults

/-- What byte k of the block holds after i pages (R65, R182). -/
def fastCell (i k : Nat) : FlashCell :=
  if k < 256 * i then .val (wordByte (BitVec.ofNat 32 (k / 4 % 64)) (k % 4)) else .erased

/-- The programming loop of RUN_FAST of s goes on with u after i pages (R182). -/
structure FastProgrammed (s : State) (i : Nat) (u : State) : Prop extends FastRuns s .fast u where
  index  : u.pageIdx.toNat = i
  ran    : u.diagRan = false
  loaded : 0 < i → u.loaded = 0
  cells  : u.flash.ChangedTo s.flash s.startAddr.toNat 32768 (fastCell i)

/-- RUN_FAST of s has verified its block, and is in u with domain d open and the cells f in the
block (R183 to R185). -/
structure FastVerified (s : State) (d : Domain) (f : Nat → FlashCell) (u : State) : Prop
    extends FastRuns s d u where
  index  : u.pageIdx = 127
  flag   : u.verifyFlag = true
  cursor : u.cursor = BitVec.ofNat 32 (s.startAddr.toNat + 32764)
  loaded : u.loaded = 0
  cells  : u.flash.ChangedTo s.flash s.startAddr.toNat 32768 f

/-! ### The erasing phase -/

/-- A final wait of the erasing phase that finds the engine idle and no error flag goes on to the
programming phase (R106, R181). -/
theorem exec_fastErase_complete {u : State} {nodiag : Bool}
    (hs : u.seq = .exec (.runFast nodiag) (.fastErase .final)) (hr : u.Ready .fast) :
    exec (.runFast nodiag) u = .next (fastErased nodiag .complete u) := by
  rw [exec_fastErase_idle hs hr.engine_idle, flagResult_of_clear hr.no_pgerr hr.no_wrprterr]

/-- The first round: the block is erased, and no page programmed (R181, R182). -/
theorem fastProgrammed_begun {s : State} {nodiag : Bool} {rest : List Turn} (hblock : FastBlock s)
    (hr : (fastBegun s).Ready .fast) (ha : s.agenda = .engine :: .sequencer :: rest) :
    ∃ u, steps 2 (suspend (.runFast nodiag) (.fastErase .final)
        (setPolls 1 (issue (blockCall (fastBegun s)) (fastBegun s)))) =
          .next (fastProgramFrom nodiag u) ∧
      FastProgrammed s 0 u ∧ u.agenda = rest := by
  obtain ⟨-, hfree, herases, -⟩ := hblock
  refine ⟨_, steps_round ha hfree rfl (herases _ .block32K)
    (exec_fastErase_complete rfl (hr.roundEnd _ _ _ rest)), ?_, rfl⟩
  exact
    { ready     := { hr with engine_idle := rfl }
      status    := rfl
      kind      := rfl
      passed    := rfl
      diagPage  := rfl
      diagStd   := rfl
      diagBlock := rfl
      source    := rfl
      written   := rfl
      start     := rfl
      cfg       := rfl
      faults    := rfl
      index     := rfl
      ran       := rfl
      loaded    := nofun
      cells     := changedTo_erase s.flash s.startAddr.toNat 32768 .block32K }

/-! ### The programming loop -/

/-- With a page left, the programming loop fills the page buffer and issues its program (R182). -/
theorem fastProgramFrom_issues {s : State} {nodiag : Bool} (hlt : s.pageIdx.toNat < 128)
    (hst : s.flashStatus = .complete) (hr : s.Ready .fast)
    (ha : addrOk s (fastRunPage s) 256 256 = true) : fastProgramFrom nodiag s =
      suspend (.runFast nodiag) (.fastProgram .final)
        (setPolls 1 (issue (pageCall (fastRunPage s) (fillFromSource s)) (fillFromSource s))) := by
  obtain ⟨n, hn⟩ : ∃ n, 128 - s.pageIdx.toNat = n + 1 := ⟨127 - s.pageIdx.toNat, by omega⟩
  have hready : (fillFromSource s).Ready .fast := { hr with }
  have hopen : ¬s.lockFast = true := Bool.eq_false_iff.1 hr.domain_open
  rw [fastProgramFrom, hn, fastProgramLoop, if_pos hst, programPageStart, if_pos ha, if_neg hopen]
  exact startFlashOp_andThen_ready (c := pageCall (fastRunPage s) (fillFromSource s)) hready ha rfl
    _ _ _

/-- A final wait of the programming loop that finds the engine idle and no error flag goes on with
the loop (R106, R182). -/
theorem exec_fastProgram_complete {u : State} {nodiag : Bool}
    (hs : u.seq = .exec (.runFast nodiag) (.fastProgram .final)) (hr : u.Ready .fast) :
    exec (.runFast nodiag) u =
      .next (fastProgramFrom nodiag (fastProgrammed .complete u)) := by
  rw [exec_fastProgram_idle hs hr.engine_idle, flagResult_of_clear hr.no_pgerr hr.no_wrprterr]

theorem FastRuns.roundEnd {s u : State} {d : Domain} (h : FastRuns s d u) (i : Instr) (p : Point)
    (c : FlashCall) (rest : List Turn) : FastRuns s d (roundEnd i p c rest u) :=
  { h with ready := h.ready.roundEnd i p c rest }

theorem FastRuns.filled {s u : State} {d : Domain} (h : FastRuns s d u) :
    FastRuns s d (fillFromSource u) :=
  { h with ready := { h.ready with } }

theorem FastRuns.programmed {s u : State} {d : Domain} (h : FastRuns s d u) :
    FastRuns s d (fastProgrammed .complete u) :=
  { h with ready := { h.ready with }, status := rfl }

/-- The page buffer is filled with the pattern of R180. -/
theorem FastRuns.pbuf_filled {s u : State} {d : Domain} (h : FastRuns s d u) :
    (fillFromSource u).pbuf = wordsOf (BitVec.ofNat 32) := by
  refine buffer_ext fun j hj => ?_
  have hw : u.srcWritten.getLsbD j = true := by
    rw [h.written]
    exact (allLoaded_iff _).1 rfl j hj
  rw [fillFromSource, bufWord_wordsOf _ hj, srcWord, if_pos hw, h.source]

theorem FastProgrammed.call {s u : State} {i : Nat} (h : FastProgrammed s i u) :
    pageCall (fastRunPage u) (fillFromSource u) =
      ⟨.fast, .pageProgram (s.startAddr.toNat + 256 * i) (wordsOf (BitVec.ofNat 32)), 256⟩ := by
  rw [pageCall, fastRunPage, h.pbuf_filled, h.start, h.index]

/-- The next page of an erased block. -/
theorem changedTo_page_next {m m₀ : Memory} {a i : Nat} (hi : i < 128)
    (h : m.ChangedTo m₀ a 32768 (fastCell i)) :
    (m.write (a + 256 * i)
      (Op.pageProgram (a + 256 * i) (wordsOf (BitVec.ofNat 32))).cells).ChangedTo m₀ a 32768
        (fastCell (i + 1)) := by
  refine changedTo_trans h (changedTo_pageProgram m _ _) _ (fun x hx => by omega) fun k hk => ?_
  by_cases hki : 256 * i ≤ k ∧ k < 256 * i + 256
  · refine .inl ⟨by omega, by omega, ?_⟩
    rw [fastCell, if_pos (by omega), pageCell, bufWord_wordsOf _ (by omega),
      show (a + k - (a + 256 * i)) / 4 = k / 4 % 64 by omega,
      show (a + k - (a + 256 * i)) % 4 = k % 4 by omega]
  · refine .inr ⟨by omega, hk, ?_⟩
    simp only [fastCell, show k < 256 * (i + 1) ↔ k < 256 * i by omega]

/-- One round of the programming loop (R182). -/
theorem FastProgrammed.round {s u : State} {nodiag : Bool} {i : Nat} {rest : List Turn}
    (hblock : FastBlock s) (h : FastProgrammed s i u) (hi : i < 128)
    (ha : u.agenda = .engine :: .sequencer :: rest) :
    ∃ v, steps 2 (fastProgramFrom nodiag u) = .next (fastProgramFrom nodiag v) ∧
      FastProgrammed s (i + 1) v ∧ v.agenda = rest := by
  obtain ⟨⟨halign, hlo, hhi⟩, hfree, -, hprograms⟩ := hblock
  have haddr : addrOk u (fastRunPage u) 256 256 = true := by
    rw [fastRunPage, h.start, h.index, addrOk_iff, h.cfg, Config.fastPageSize]
    omega
  have hprot : u.cfg.protects (s.startAddr.toNat + 256 * i) 256 = false := by
    rw [h.cfg]
    exact protects_mono (by omega) (by omega) hfree
  have hfail : u.cfg.failing .pageProg (s.startAddr.toNat + 256 * i) = false := by
    rw [h.cfg]
    exact hprograms i hi
  have hover : (Op.pageProgram (s.startAddr.toNat + 256 * i)
      (wordsOf (BitVec.ofNat 32))).overwrites u.flash = false := by
    rw [Op.overwrites, Bool.not_eq_false']
    refine (Memory.allErased_iff _ _ _).2 fun k hk => ?_
    rw [Nat.add_assoc, h.cells.1 (256 * i + k) (by omega), fastCell, if_neg (by omega)]
  have hfill := h.toFastRuns.filled
  rw [fastProgramFrom_issues (by rw [h.index]; exact hi) h.status h.ready haddr, h.call]
  refine ⟨fastProgrammed .complete (roundEnd (.runFast nodiag) (.fastProgram .final) _ rest
      (fillFromSource u)), steps_round ha hprot hover hfail
    (exec_fastProgram_complete rfl (hfill.ready.roundEnd _ _ _ _)), ?_, rfl⟩
  exact
    { toFastRuns := (hfill.roundEnd _ _ _ _).programmed
      index      := by
        have hfit : u.pageIdx.toNat + 1 < 2 ^ 32 := by
          rw [h.index]
          omega
        exact (BitVec.toNat_add_of_lt (y := 1) hfit).trans (congrArg (· + 1) h.index)
      ran        := h.ran
      loaded     := fun _ => rfl
      cells      := changedTo_page_next hi h.cells }

/-- With its pages programmed the run verifies them, and FLAG is set (R183). -/
theorem FastProgrammed.verifies {s u : State} {nodiag : Bool} (h : FastProgrammed s 128 u) :
    ∃ v, fastProgramFrom nodiag u = fastDiag nodiag v ∧ FastVerified s .fast (fastCell 128) v ∧
      v.diagRan = false ∧ v.agenda = u.agenda := by
  have hbyte {k : Nat} (hk : k < 32768) : u.settledByte (u.startAddr.toNat + k) =
      some (wordByte (BitVec.ofNat 32 (k / 4 % 64)) (k % 4)) := by
    refine settledByte_val h.ready.engine_idle ?_
    rw [h.start, h.cells.1 k hk, fastCell, if_pos hk]
  obtain ⟨flag, cur, hverify, hflag, hcursor⟩ := fastVerify_settled (s := u) nodiag
    fun x h1 h2 => by
      obtain ⟨k, rfl⟩ := Nat.exists_eq_add_of_le h1
      rw [hbyte (by omega)]
      exact nofun
  have hset : flag = true := hflag.2 fun j hj k hk => by
    rw [Nat.add_assoc, Nat.add_assoc, hbyte (by omega),
      show (256 * 127 + (4 * j + k)) / 4 % 64 = j by omega,
      show (256 * 127 + (4 * j + k)) % 4 = k by omega]
  refine ⟨_, (fastProgramFrom_done h.index.ge).trans hverify, ?_, h.ran, rfl⟩
  exact
    { h with
      ready  := { h.ready with }
      index  := rfl
      flag   := hset
      cursor := by rw [← h.start]; exact hcursor hset
      loaded := h.loaded (by decide) }

/-! ### The diagnostic phase -/

/-- The cells of a block whose first n bytes have been erased. -/
def erasedHead (n : Nat) (f : Nat → FlashCell) (k : Nat) : FlashCell :=
  if k < n then .erased else f k

theorem changedTo_erase_head {m m₀ : Memory} {a n : Nat} {f : Nat → FlashCell}
    (h : m.ChangedTo m₀ a 32768 f) (hn : n ≤ 32768) (kind : EraseKind) :
    (m.write a (Op.eraseRange a n kind).cells).ChangedTo m₀ a 32768 (erasedHead n f) := by
  refine changedTo_trans h (changedTo_erase m a n kind) _ (fun x hx => by omega) fun k hk => ?_
  by_cases hkn : k < n
  · exact .inl ⟨by omega, by omega, if_pos hkn⟩
  · exact .inr ⟨by omega, hk, if_neg hkn⟩

/-- One round of the diagnostic phase: the erase of the first n bytes of the block (R184). -/
theorem FastVerified.round {s u : State} {d : Domain} {f : Nat → FlashCell} {p : Point} {n : Nat}
    {kind : EraseKind} {rest : List Turn} (hblock : FastBlock s) (h : FastVerified s d f u)
    (hn : n ≤ 32768) (ha : u.agenda = .engine :: .sequencer :: rest) :
    ∃ v, (∀ t, exec (.runFast false) v = .next t → steps 2 (suspend (.runFast false) p
        (setPolls 1 (issue ⟨d, .eraseRange u.startAddr.toNat n kind, n⟩ u))) = .next t) ∧
      FastVerified s d (erasedHead n f) v ∧ v.seq = .exec (.runFast false) p ∧
      v.agenda = rest := by
  have hprot : u.cfg.protects u.startAddr.toNat n = false := by
    rw [h.cfg, h.start]
    exact protects_mono le_rfl (by omega) hblock.free
  have hfail : u.cfg.failing (Op.eraseRange u.startAddr.toNat n kind).kind u.startAddr.toNat =
      false := by
    rw [h.cfg, h.start]
    exact hblock.erases _ _
  refine ⟨_, fun t ht => steps_round ha hprot rfl hfail ht, ?_, rfl, rfl⟩
  exact
    { h with
      ready := h.ready.roundEnd _ _ _ _
      cells := by
        rw [h.start]
        exact changedTo_erase_head h.cells hn kind }

theorem FastRuns.blockAt {s u : State} {d : Domain} (h : FastRuns s d u) (hb : BlockAt s) :
    BlockAt u := by
  rw [BlockAt, h.start, h.cfg]
  exact hb

/-- The end of the first diagnostic erase opens Std and issues the second (R184). -/
theorem FastVerified.after_diagPage {s u : State} {f : Nat → FlashCell} (hb : BlockAt s)
    (h : FastVerified s .fast f u) : ∃ v, diagPageDone false .complete u =
        suspend (.runFast false) (.diagStd .final) (setPolls 1 (issue (diagStdCall v) v)) ∧
      FastVerified s .std f v ∧ v.agenda = u.agenda := by
  have hv : FastVerified s .std f (openDomain .std (setLock .fast true
      { u with diagPage := .complete })) :=
    { h with
      ready    := { h.ready with domain_open := rfl, other_locked := rfl }
      diagPage := rfl }
  refine ⟨_, (unlockThen_of_locked _ rfl).trans ?_, hv, rfl⟩
  exact startFlashOp_andThen_ready (c := diagStdCall _) hv.ready
    (addrOk_block (n := 4096) (hv.blockAt hb) (by decide)) rfl _ _ _

/-- The end of the second diagnostic erase opens Fast again and issues the third (R184). -/
theorem FastVerified.after_diagStd {s u : State} {f : Nat → FlashCell} (hb : BlockAt s)
    (h : FastVerified s .std f u) : ∃ v, diagStdDone false .complete u =
        suspend (.runFast false) (.diagBlock .final) (setPolls 1 (issue (blockCall v) v)) ∧
      FastVerified s .fast f v ∧ v.agenda = u.agenda := by
  have hv : FastVerified s .fast f (openDomain .fast (setLock .std true
      { u with diagStd := .complete })) :=
    { h with
      ready   := { h.ready with domain_open := rfl, other_locked := rfl }
      diagStd := rfl }
  refine ⟨_, (unlockThen_of_locked _ rfl).trans ?_, hv, rfl⟩
  exact startFlashOp_andThen_ready (c := blockCall _) hv.ready
    (addrOk_block (n := 32768) (hv.blockAt hb) dvd_rfl) rfl _ _ _

/-- A final wait of a diagnostic erase that finds the engine idle and no error flag goes on with
Complete (R106, R184). -/
theorem exec_diag_complete {u : State} {d : Domain} {p : Point} {k : OpResult → State → State}
    (hs : u.seq = .exec (.runFast false) p) (hr : u.Ready d)
    (hk : (p = .diagPage .final ∧ k = diagPageDone false) ∨
      (p = .diagStd .final ∧ k = diagStdDone false) ∨
      (p = .diagBlock .final ∧ k = diagBlockDone)) :
    exec (.runFast false) u = .next (k .complete u) := by
  rcases hk with ⟨rfl, rfl⟩ | ⟨rfl, rfl⟩ | ⟨rfl, rfl⟩ <;>
    simp only [exec, execRunFast, fastStep, pos_of_exec hs,
      resumeFlashOp_final_clear hr.engine_idle hr.no_pgerr hr.no_wrprterr, andThen_ret]

/-- The diagnostic phase: three rounds, after which the block is Erased (R184). -/
theorem FastVerified.diagnoses {s u : State} {f : Nat → FlashCell} {rest : List Turn}
    (hblock : FastBlock s) (h : FastVerified s .fast f u) (ha : u.agenda = rounds 3 ++ rest) :
    ∃ v g, steps 6 (fastDiag false u) = .next (fastLock v) ∧
      FastVerified s .fast (erasedHead 32768 g) v ∧ v.diagRan = true ∧ v.agenda = rest := by
  have hb := hblock.block
  have h0 : FastVerified s .fast f (setPhase .diagnostic u) := { h with ready := { h.ready with } }
  obtain ⟨v1, hround1, h1, hs1, ha1⟩ := h0.round (p := .diagPage .final) (n := 256)
    (kind := .fastPage) hblock (by decide) ha
  obtain ⟨w1, hdone1, hw1, haw1⟩ := h1.after_diagPage hb
  obtain ⟨v2, hround2, h2, hs2, ha2⟩ := hw1.round (p := .diagStd .final) (n := 4096)
    (kind := .page4K) hblock (by decide) (haw1.trans ha1)
  obtain ⟨w2, hdone2, hw2, haw2⟩ := h2.after_diagStd hb
  obtain ⟨v3, hround3, h3, hs3, ha3⟩ := hw2.round (p := .diagBlock .final) (n := 32768)
    (kind := .block32K) hblock le_rfl (haw2.trans ha2)
  have hend1 := hround1 _ (exec_diag_complete hs1 h1.ready (.inl ⟨rfl, rfl⟩))
  have hend2 := hround2 _ (exec_diag_complete hs2 h2.ready (.inr (.inl ⟨rfl, rfl⟩)))
  have hend3 := hround3 _ (exec_diag_complete hs3 h3.ready (.inr (.inr ⟨rfl, rfl⟩)))
  rw [hdone1] at hend1
  rw [hdone2] at hend2
  refine ⟨{ v3 with diagBlock := .complete, diagRan := true }, _, ?_,
    { h3 with ready := { h3.ready with }, diagBlock := rfl }, rfl, ha3⟩
  rw [fastDiag_issues h.ready (h.blockAt hb)]
  exact (steps_add (m := 2) (n := 4) hend1).trans ((steps_add (m := 2) (n := 2) hend2).trans hend3)

/-! ### The whole run -/

/-- The run up to the end of its verify phase, with the turns of m more rounds left (R178 to
R183). -/
theorem steps_runFast_verified {s : State} {nodiag : Bool} {m : Nat} {rest : List Turn}
    (hs : s.seq = .exec (.runFast nodiag) .start) (hblock : FastBlock s) (he : s.engine = .idle)
    (hclk : s.clkSafe = true) (hstd : s.lockStd = true)
    (ha : s.agenda = .sequencer :: (rounds (1 + (128 + m)) ++ rest)) :
    ∃ u, steps 259 s = .next (fastDiag nodiag u) ∧ FastVerified s .fast (fastCell 128) u ∧
      u.diagRan = false ∧ u.agenda = rounds m ++ rest := by
  rw [rounds_add, rounds_add] at ha
  have hissue := (step_sequencer hs ha).trans (exec_runFast_issues
    (s := { s with agenda := rounds 1 ++ (rounds 128 ++ (rounds m ++ rest)) }) hs hblock.block he
    hclk hstd)
  obtain ⟨v, herase, hv, hav⟩ := fastProgrammed_begun (nodiag := nodiag)
    (s := { s with agenda := rounds 1 ++ (rounds 128 ++ (rounds m ++ rest)) }) { hblock with }
    (fastBegun_ready he hclk hstd) rfl
  replace hv : FastProgrammed s 0 v := { hv with }
  obtain ⟨w, hprogram, hw, haw⟩ := steps_rounds (f := fastProgramFrom nodiag)
    (fun i hi u rest hu hau => hu.round hblock hi hau) hv 128 le_rfl _ hav
  obtain ⟨u, hverify, hu, hran, hau⟩ := hw.verifies (nodiag := nodiag)
  refine ⟨u, ?_, hu, hran, hau.trans haw⟩
  rw [← hverify]
  exact (steps_one hissue).trans ((steps_add (m := 2) (n := 256) herase).trans hprogram)

/-- Where the run ends after the verify phase, or after the diagnostic phase (R185, R188). -/
theorem FastVerified.locks {s u : State} {f g : Nat → FlashCell} {rest : List Turn}
    (h : FastVerified s .fast f u) (ha : u.agenda = rest) (hg : ∀ k < 32768, f k = g k) :
    let t := fastLock u
    t.seq = .idle ∧ t.result = .complete ∧ t.flashStatus = .complete ∧ t.verifyFlag = true ∧
      t.verifyPassed = s.verifyPassed ∧ t.pageIdx = 127 ∧
      t.cursor = BitVec.ofNat 32 (s.startAddr.toNat + 32764) ∧ t.orchPhase = .done ∧
      t.orchKind = .fast ∧ t.diagRan = u.diagRan ∧ t.diagPage = .complete ∧
      t.diagStd = .complete ∧ t.diagBlock = .complete ∧ t.lockStd = true ∧ t.lockFast = true ∧
      t.engine = .idle ∧ t.faults = s.faults ∧ t.agenda = rest ∧ t.loaded = 0 ∧
      (∀ j < 64, bufWord t.srcbuf j = BitVec.ofNat 32 j) ∧
      t.flash.ChangedTo s.flash s.startAddr.toNat 32768 g := by
  intro t
  have hcells : u.flash.ChangedTo s.flash s.startAddr.toNat 32768 g :=
    ⟨fun k hk => (h.cells.1 k hk).trans (hg k hk), h.cells.2⟩
  have hsource (j : Nat) (hj : j < 64) : bufWord u.srcbuf j = BitVec.ofNat 32 j := by
    rw [h.source, bufWord_wordsOf _ hj]
  rw [show t = _ from fastLock_eq u]
  exact ⟨rfl, h.status, h.status, h.flag, h.passed, h.index, h.cursor, rfl, h.kind, rfl,
    h.diagPage, h.diagStd, h.diagBlock, h.ready.other_locked, rfl, h.ready.engine_idle, h.faults,
    ha, h.loaded, hsource, hcells⟩

/-- Settles O55: the first step, a round for the block erase and one for each page, and without
NODIAG three more. -/
theorem runFastProgramsAndVerifies : Obligations.RunFastProgramsAndVerifies := by
  intro s nodiag rest hs he hclk hstd _ S K halign hlo hhi hprot hfail32 hfail256 hfail4 hpages ha
  have hblock : FastBlock s :=
    ⟨⟨halign, hlo, hhi⟩, hprot, by rintro n (_ | _ | _) <;> assumption, hpages⟩
  cases nodiag with
  | true =>
    obtain ⟨u, hsteps, hu, hran, hau⟩ := steps_runFast_verified (m := 0) hs hblock he hclk hstd ha
    refine ⟨_, hsteps, ?_⟩
    have hend := hu.locks hau (g := fun k => .val (wordByte (BitVec.ofNat 32 (k / 4 % 64)) (k % 4)))
      fun k hk => if_pos hk
    rw [hran] at hend
    exact hend
  | false =>
    obtain ⟨u, hsteps, hu, -, hau⟩ := steps_runFast_verified (m := 3) hs hblock he hclk hstd ha
    obtain ⟨v, g, hdiag, hv, hran, hav⟩ := hu.diagnoses hblock hau
    refine ⟨_, (steps_add (m := 259) (n := 6) hsteps).trans hdiag, ?_⟩
    have hend := hv.locks hav (g := fun _ => .erased) fun k hk => if_pos hk
    rw [hran] at hend
    exact hend

end Sys2Proof.Machine

/-! ## The Faulted state -/

namespace Sys2Proof.Machine

/-- No move of the host leaves Faulted: a command written to CMD is not accepted (R100, R220). -/
theorem HostEnd.faulted {s t : State} (h : HostEnd s t) (hs : s.seq = .faulted) :
    t.seq = .faulted := by
  cases h with
  | fault r => rfl
  | clockFell => rfl
  | written off v _ =>
    by_cases h0 : off = 0
    · subst h0
      exact (congrArg State.seq (acceptCmd_faulted v hs)).trans hs
    · obtain ⟨-, -, hseq, -, -⟩ := regWrite_keeps v s h0
      exact hseq.trans hs
  | _ => exact hs

/-- The sequencer has no enabled step in Faulted (R220). -/
theorem sequencerTurn_faulted {s : State} (hs : s.seq = .faulted) : sequencerTurn s = .next s := by
  simp only [sequencerTurn, hs]

@[simp] theorem completeOp_seq (op : Op) (b : Bool) (s : State) :
    (completeOp op b s).seq = s.seq := by
  rcases completeOp_cases op b s with e | e | e <;> rw [e] <;> rfl

@[simp] theorem engineStep_seq (s : State) : (engineStep s).seq = s.seq := by
  cases he : s.engine with
  | idle => rw [engineStep_idle he]
  | inFlight op b => rw [engineStep_busy he, completeOp_seq]

/-- A turn taken in Faulted ends there, or is the reset (R240). -/
theorem takeTurn_faulted {x : Turn} {s t : State} (h : takeTurn x s = .next t)
    (hs : s.seq = .faulted) : t.seq = .faulted ∨ x = .reset := by
  cases x with
  | host a => exact .inl ((hostAct_ends h).faulted hs)
  | sequencer =>
    injection (sequencerTurn_faulted hs).symm.trans h with h
    subst h
    exact .inl hs
  | engine =>
    injection h with h
    subst h
    exact .inl ((engineStep_seq s).trans hs)
  | reset => exact .inr rfl

/-- Settles O17: by the turn the step takes, which is no reset where the agenda is silent. -/
theorem onlyResetLeavesFaulted : Obligations.OnlyResetLeavesFaulted := by
  intro s t hs hstep
  rcases step_turn_cases s with ⟨x, rest, ha, hx⟩ | ⟨x, d, hd, hx⟩ <;> rw [hx] at hstep
  · rcases takeTurn_faulted hstep hs with ht | rfl
    · exact .inl ht
    · exact .inr ⟨rest, ha⟩
  · have hne : x ≠ .reset := by rcases hd with rfl | rfl <;> decide
    exact .inl ((takeTurn_faulted hstep hs).resolve_right hne)

end Sys2Proof.Machine

/-! ## The reset event -/

namespace Sys2Proof.Machine

/-- The platform's turn is the reset, on the state with the turn taken from the agenda (R240). -/
theorem step_reset {s : State} {rest : List Turn} (ha : s.agenda = .reset :: rest) :
    step s = .next (systemReset { s with agenda := rest }) := by
  simp only [step, ha, takeTurn]

/-- With no operation in flight a reset keeps the whole array (R242). -/
theorem flashAfterReset_idle {s : State} (he : s.engine = .idle) : flashAfterReset s = s.flash := by
  simp only [flashAfterReset, he]

/-- A reset spoils exactly the target of the operation in flight (R243). -/
theorem flashAfterReset_busy {s : State} {op : Op} {b : Bool} (he : s.engine = .inFlight op b) :
    (flashAfterReset s).ChangedTo s.flash op.base op.size fun _ => .indet := by
  have hwrite : flashAfterReset s = s.flash.write op.base op.indetCells := by
    simp only [flashAfterReset, he]
  rw [hwrite]
  exact changedTo_indet s.flash op

/-- A buffer filled with one word holds it at every index. -/
theorem bufWord_replicate (x : Word) {j : Nat} (hj : j < 64) :
    bufWord (Vector.replicate 64 x) j = x := by
  simp [bufWord, hj]

/-- The registers put together from several elements all read 0 after a reset: STATR, ORCH, VERIFY,
DIAG (R241). -/
theorem systemReset_composed (s : State) : (systemReset s).statr = 0 ∧ (systemReset s).orch = 0 ∧
    (systemReset s).verify = 0 ∧ (systemReset s).diag = 0 := by
  have hreset : State.reset.statr = 0 ∧ State.reset.orch = 0 ∧ State.reset.verify = 0 ∧
      State.reset.diag = 0 := by decide
  exact hreset

/-- Settles O19: the reset state holds each value, but for what the reset keeps of s and for the
registers and the buffer that are read through a function. -/
theorem resetGivesTheResetValues : Obligations.ResetGivesTheResetValues := by
  intro s rest ha
  obtain ⟨hstatr, horch, hverify, hdiag⟩ := systemReset_composed { s with agenda := rest }
  exact ⟨_, step_reset ha, rfl, rfl, rfl, rfl, hstatr, rfl, rfl, rfl, rfl, rfl, rfl, rfl, rfl, rfl,
    rfl, horch, rfl, rfl, rfl, rfl, rfl, hverify, hdiag, rfl, fun _ => bufWord_replicate _, rfl,
    rfl, rfl, rfl, rfl, regRead_zero _ (.inl rfl),
    flashAfterReset_idle (s := { s with agenda := rest }), rfl, rfl⟩

/-- Settles O20: by whether an operation is in flight. -/
theorem resetKeepsTheArray : Obligations.ResetKeepsTheArray := by
  intro s rest ha
  refine ⟨_, step_reset ha, rfl, fun he => ?_, fun op b he => ?_⟩
  · exact flashAfterReset_idle (s := { s with agenda := rest }) he
  · exact flashAfterReset_busy (s := { s with agenda := rest }) he

/-- Settles O59: the default parameters are legal, the array lists no cell, both domains are locked,
and with no command, no operation and no fault the other clauses ask nothing. -/
theorem resetMeetsTheInvariant : Obligations.ResetMeetsTheInvariant where
  cfg_wf          := by decide
  flash_wf        := by decide
  flash_inside    := nofun
  domains         := .inl rfl
  target_inside   := nofun
  proterr_faulted := ⟨nofun, nofun⟩
  faulted_locked  := nofun
  busy_exec       := nofun
  idle_not_busy   := fun _ => nofun
  status_not_busy := nofun
  spoiled_faulted := nofun
  position        := nofun
  run_domain      := nofun
  pending_checked := nofun
  last_program    := Nat.zero_le _

end Sys2Proof.Machine
